-- ==== Sys2Proof/Word.lean ====
section
/-! DEFINITION. The word types of GF2LAE and their widths. -/

namespace Sys2Proof

/-- A register, a bus data word, a packed vector, a matrix row: 32 bits (`XLEN`, 00_scope.md R6, R7). -/
abbrev Word := BitVec 32

/-- A 40-bit transaction record, format T (30_encoding.md R65). -/
abbrev Record := BitVec 40

/-- A stored leader weight: 6 bits (`WW`, 00_scope.md R6). -/
abbrev Weight := BitVec 6

/-- A bit position on the `BUILD` stack: 5 bits (10_state.md R28). -/
abbrev Position := BitVec 5

end Sys2Proof
end

