-- ==== Sys2Proof/Config.lean ====
section
/-! DEFINITION. What an implementation fixes (`NMAX`) and the free values of the model. -/

namespace Sys2Proof

/-- The implementation parameters (00_scope.md R6). `NMAX` is the only one left open: an integer with
`1 <= NMAX <= 32`, carried with the proof of its range. `XLEN = 32`, `WW = 6` and `AW = 7` are fixed. -/
structure Config where
  /-- `NMAX`: the largest codeword length `CFG` accepts, and the number of `GROW` and `PROW` registers. -/
  nmax : Nat
  nmax_pos : 1 ≤ nmax
  nmax_le : nmax ≤ 32
deriving DecidableEq, Repr

/-- The default parameter, `NMAX = 20` (00_scope.md R6). -/
def Config.default : Config where
  nmax := 20
  nmax_pos := by decide
  nmax_le := by decide

/-- The number of `TMEM` entries, `2^(NMAX-1)` (00_scope.md R6, 10_state.md R25). -/
def Config.tableDepth (c : Config) : Nat := 2 ^ (c.nmax - 1)

/-! ### Free values
Constants without a body, applied to the counter `State.fresh`: the values the spec leaves unspecified
(93_implementation_defined.md U3, U12). Nothing constrains them. Assumption log entry 2. -/

/-- `PEND` after a completion (10_state.md R24, U3). -/
opaque Config.freePend : Nat → Word

/-- `w` of `DEC` after a `DEC` (10_state.md R27, U12). -/
opaque Config.freeDecW : Nat → Word

/-- `s` of `DEC` after a `DEC` (10_state.md R27, U12). -/
opaque Config.freeDecS : Nat → BitVec 31

/-- `best` of `DEC` after a `DEC` (10_state.md R27, U12). -/
opaque Config.freeDecBest : Nat → Weight

/-- `m` of `DEC` after a `DEC` (10_state.md R27, U12). -/
opaque Config.freeDecM : Nat → BitVec 6

/-- `v` of `BUILD` after a `BUILD` (10_state.md R28, U12). -/
opaque Config.freeBuildV : Nat → Word

/-- `depth` of `BUILD` after a `BUILD` (10_state.md R28, U12). -/
opaque Config.freeBuildDepth : Nat → Weight

/-- `pos[]` of `BUILD` after a `BUILD` (10_state.md R28, U12). -/
opaque Config.freeBuildPos : Nat → Vector Position 32

/-- `p` of `BUILD` after a `BUILD` (10_state.md R28, U12). -/
opaque Config.freeBuildP : Nat → BitVec 6

/-- `cnt` of `BUILD` after a `BUILD` (10_state.md R28, U12). -/
opaque Config.freeBuildCnt : Nat → Word

end Sys2Proof
end

