-- ==== Sys2Proof/Syntax.lean ====
section
/-! DEFINITION. The instructions of spec/opcode_table.json: seven commands (format C) and two host
transactions (format T). -/

namespace Sys2Proof

/-- One constructor per row of spec/opcode_table.json. Commands have no operand field: their operands
are fixed registers (30_encoding.md R60, R63). -/
inductive Instr where
  /-- `CFG`: construct CodeParameters (41_code_parameters.md R90). -/
  | cfg
  /-- `BUILD`: build the decoding table (42_coset_leader_table.md R100). -/
  | build
  /-- `ENC`: systematic encode (43_codec.md R110). -/
  | enc
  /-- `DEC`: syndrome decode (43_codec.md R111). -/
  | dec
  /-- `SYN`: syndrome of a vector (41_code_parameters.md R91). -/
  | syn
  /-- `LDW`: look up a leader weight (42_coset_leader_table.md R104). -/
  | ldw
  /-- `RST`: restart the lifecycle (44_control.md R124). -/
  | rst
  /-- `wr`: `HostWrite(a, d)` to the word index `a` (20_memory.md R43). -/
  | wr (a : Nat) (d : Word)
  /-- `rd`: `HostRead(a)` of the word index `a` (20_memory.md R42). -/
  | rd (a : Nat)
deriving DecidableEq, Repr

end Sys2Proof
end

