-- ==== Sys2Proof/WellFormed.lean ====
section
/-! DEFINITION. Which instructions an encoding can carry. -/

namespace Sys2Proof

/-- The register space has 128 words, index `0 .. 127` (20_memory.md R40; `AW = 7`, 00_scope.md R6). -/
def wordCount : Nat := 128

/-- A host transaction names a word index the 7-bit address can carry. Commands have no field to check. -/
def Instr.wf : Instr → Bool
  | .cfg => true
  | .build => true
  | .enc => true
  | .dec => true
  | .syn => true
  | .ldw => true
  | .rst => true
  | .wr a _ => decide (a < wordCount)
  | .rd a => decide (a < wordCount)

end Sys2Proof
end

