-- ==== Sys2Proof/Decode.lean ====
section
/-! DEFINITION. The decoder of command words (format C) and transaction records (format T), total and
rejecting by name, and after it the encoder. -/

namespace Sys2Proof

/-- Why a word is no instruction. -/
inductive DecodeError where
  /-- Bits 31:8 of a command word are not zero (30_encoding.md R60, R62). -/
  | zeroFieldNotZero
  /-- `op` is `0x04`, the reserved `transmit` slot (30_encoding.md R61). -/
  | opcodeReserved
  /-- `op` is no opcode of the map (30_encoding.md R62). -/
  | opcodeUndefined
  /-- A record with `we = 0` whose data is not 0: it occurs in a trace, never in a program
  (30_encoding.md R65). -/
  | readCarriesData
deriving DecidableEq, Repr

/-- An instruction's bits: a 32-bit command word or a 40-bit transaction record. -/
inductive Encoded where
  | command (w : Word)
  | record (t : Record)
deriving DecidableEq, Repr

/-! ### Fields -/

/-- `zero`, bits 31:8 of a command word (30_encoding.md R60). -/
def zeroField (w : Word) : BitVec 24 := w.extractLsb' 8 24

/-- `op`, bits 7:0 of a command word (30_encoding.md R60). -/
def opField (w : Word) : BitVec 8 := w.extractLsb' 0 8

/-- `we`, bit 39 of a record (30_encoding.md R65). -/
def weField (t : Record) : Bool := t.getLsbD 39

/-- `addr`, bits 38:32 of a record (30_encoding.md R65). -/
def addrField (t : Record) : BitVec 7 := t.extractLsb' 32 7

/-- `data`, bits 31:0 of a record (30_encoding.md R65). -/
def dataField (t : Record) : Word := t.extractLsb' 0 32

/-! ### Decoding -/

/-- The opcode map (30_encoding.md R61). -/
def decodeOpcode (op : BitVec 8) : Except DecodeError Instr :=
  if op = 0x01 then .ok .cfg
  else if op = 0x02 then .ok .build
  else if op = 0x03 then .ok .enc
  else if op = 0x04 then .error .opcodeReserved
  else if op = 0x05 then .ok .dec
  else if op = 0x06 then .ok .syn
  else if op = 0x07 then .ok .ldw
  else if op = 0x0F then .ok .rst
  else .error .opcodeUndefined

/-- A command word: legal only with bits 31:8 zero and a mapped opcode (30_encoding.md R60 to R62). -/
def decodeCommand (w : Word) : Except DecodeError Instr :=
  if zeroField w = 0 then decodeOpcode (opField w) else .error .zeroFieldNotZero

/-- The transaction the ports carry: `we`, `addr`, `wdata`, the last ignored on a read
(20_memory.md R54). Total. -/
def decodeBus (t : Record) : Instr :=
  if weField t then .wr (addrField t).toNat (dataField t) else .rd (addrField t).toNat

/-- A record of a program: a read carries data 0 (30_encoding.md R65). -/
def decodeRecord (t : Record) : Except DecodeError Instr :=
  if weField t = false ∧ dataField t ≠ 0 then .error .readCarriesData else .ok (decodeBus t)

/-- Decoding of either format. -/
def decode : Encoded → Except DecodeError Instr
  | .command w => decodeCommand w
  | .record t => decodeRecord t

/-- The instruction of a row of spec/opcode_table.json: `nbits` is 32 for a command word and 40 for a
record. Both are numbered with bit 0 least significant, as the table numbers them. -/
def decodeTableWord (nbits w : Nat) : Option Instr :=
  if nbits = 32 then (decode (.command (BitVec.ofNat 32 w))).toOption
  else if nbits = 40 then (decode (.record (BitVec.ofNat 40 w))).toOption
  else none

/-! ### Encoding -/

/-- A record's 40 bits from its fields, `we ++ addr ++ data` (30_encoding.md R65). DESIGN CHOICE (assumption log
entry 16): `addr` has 7 bits, so of a word index of 128 or more, which no record carries, it keeps the
index modulo 128. -/
def mkRecord (we : Bool) (a : Nat) (d : Word) : Record :=
  BitVec.ofBool we ++ BitVec.ofNat 7 a ++ d

/-- The bits of an instruction (30_encoding.md R61, R65). -/
def encode : Instr → Encoded
  | .cfg => .command 0x00000001
  | .build => .command 0x00000002
  | .enc => .command 0x00000003
  | .dec => .command 0x00000005
  | .syn => .command 0x00000006
  | .ldw => .command 0x00000007
  | .rst => .command 0x0000000F
  | .wr a d => .record (mkRecord true a d)
  | .rd a => .record (mkRecord false a 0)

end Sys2Proof
end

