-- ==== Sys2Proof/Machine/State.lean ====
section
/-! DEFINITION. The state of GF2LAE (10_state.md), its reset value, and the reasons a step can stop. -/

namespace Sys2Proof.Machine

open Sys2Proof

/-! ### Why a step stops -/

/-- A fault of the model. The spec has no trap and no undefined behaviour (93_implementation_defined.md:
"the command decoder, the bus and every command are total"), so both constructors stand for inputs or
states the spec gives no meaning to, and no run from reset meets either. -/
inductive Fault where
  /-- Raised by `wr` and `rd` whose word index is 128 or more: the register space has no such word
  (20_memory.md R40), the 7-bit address cannot carry it and the decoder never makes it. Safe. -/
  | wordIndexOutside
  /-- Raised by `BUILD`, `ENC`, `DEC`, `SYN` and `LDW` past their lifecycle gate when `K`, `N` are not
  legal code parameters (`1 <= K <= N <= NMAX`): the spec defines no length, mask or table index there
  (00_scope.md R6, R7) and no run from reset reaches such a state (10_state.md R11, R30). Safe. -/
  | codeParametersIllegal
deriving DecidableEq, Repr

/-- A refusal of the model. -/
inductive Refusal where
  /-- Raised by an arm of `exec` that has no meaning yet (there is none). Safe. -/
  | notModelled (mnemonic : String)
deriving DecidableEq, Repr

/-! ### Parts of the state -/

/-- The completion codes of `STATUS.ECODE` (60_exceptions.md R131). "All other `ECODE` values are never
produced." The byte of each is `Code.byte` (Machine/Flags.lean). -/
inductive Code where
  | ok | eK | eN | eNmax | eShape | eRank | eVlen | eMiss | eNoconv | eIllcmd | eSeq | eFatal
deriving DecidableEq, Repr

/-- The fields of `STATUS` (10_state.md R21). The reserved bits 7:5 and 31:19 read 0, hold nothing and
are made by `Status.word` (Machine/Flags.lean). -/
structure Status where
  busy : Bool
  done : Bool
  cfgv : Bool
  tblv : Bool
  fatal : Bool
  ecode : Code
  ovr : Bool
  wlock : Bool
  badacc : Bool
deriving DecidableEq, Repr

/-- The fields of `IEN` (10_state.md R22); bits 31:2 read 0. -/
structure IntEnable where
  ieDone : Bool
  ieFatal : Bool
deriving DecidableEq, Repr

/-- A register array of up to 32 row words (`GROW`, `PROW`; 10_state.md R14, R15). Row `i` exists for
`i < NMAX`; a row that does not exist holds 0 and nothing reads or writes it. -/
abbrev RowFile := Vector Word 32

/-- An entry of `TMEM`: 1 + 6 bits (10_state.md R25). -/
structure Entry where
  valid : Bool
  weight : Weight
deriving DecidableEq, Repr

/-- `TMEM`, the table space: addresses strictly rising, no entry equal to `Entry.absent`, which is what
an unlisted address reads as (10_state.md R25; assumption log entry 3). -/
abbrev TMem := List (Nat × Entry)

/-- What an unlisted address of `TMEM` reads as: a syndrome absent from the map
(93_implementation_defined.md U10: "A model may represent `TMEM` as absent until `BUILD`"). -/
def Entry.absent : Entry := { valid := false, weight := 0 }

/-- The working registers of `DEC` (10_state.md R27). -/
structure DecWork where
  /-- the working vector -/
  w : Word
  /-- the current syndrome, up to 31 bits: `r = n - k` is at most 31, because `k` is at least 1 -/
  s : BitVec 31
  /-- NIS `bestWeight` -/
  best : Weight
  /-- the moving cursor -/
  m : BitVec 6
deriving DecidableEq, Repr

/-- The working registers of `BUILD` (10_state.md R28). -/
structure BuildWork where
  /-- the current vector -/
  v : Word
  /-- the number of set bits of `v` -/
  depth : Weight
  /-- the stack of chosen bit positions; `pos[i]` exists for `i < NMAX` -/
  pos : Vector Position 32
  /-- the next candidate position -/
  p : BitVec 6
  /-- the number of valid entries so far -/
  cnt : Word
deriving DecidableEq, Repr

/-- What happens next, as plain data: which agent moves (00_scope.md R9). -/
inductive Input where
  /-- The host performs the bus transaction of this record (20_memory.md R42, R43). -/
  | txn (t : Record)
  /-- The engine completes the command in flight, if there is one (44_control.md R121). -/
  | engine
  /-- The `rst` pin is sampled high (70_reset_and_hazards.md R150). -/
  | rstPin
  /-- The host repeats `rd STATUS` until the value read has `BUSY = 0` (30_encoding.md R67). `polls` is
  the timing, which no rule depends on: how many reads find `BUSY = 1` before the engine completes. -/
  | wait (polls : Nat)
deriving DecidableEq, Repr

/-! ### The state -/

/-- The complete state of GF2LAE (10_state.md R10), and four fields of the model's own: `config`,
`inputs`, `rdata` and `fresh` (assumption log entries 1, 4, 5, 2). -/
structure State where
  /-- the implementation's `NMAX`, which `CAP` shows; nothing writes it (R6, R23) -/
  config : Config
  /-- `STATUS` (R21) -/
  status : Status
  /-- `IEN` (R22) -/
  ien : IntEnable
  /-- `K` (R11) -/
  k : Word
  /-- `N` (R12) -/
  n : Word
  /-- `GROWS` (R13) -/
  grows : Word
  /-- `GCOLS` (R13) -/
  gcols : Word
  /-- `GROW[0..NMAX-1]` (R14) -/
  grow : RowFile
  /-- `PROW[0..NMAX-1]` (R15) -/
  prow : RowFile
  /-- `VIN` (R16) -/
  vin : Word
  /-- `VOUT` (R17) -/
  vout : Word
  /-- `SYND` (R18) -/
  synd : Word
  /-- `WGT` (R19) -/
  wgt : Word
  /-- `TCNT` (R20) -/
  tcnt : Word
  /-- `PEND`, the hidden latch behind `CMD` (R24) -/
  pend : Word
  /-- `TMEM` (R25) -/
  tmem : TMem
  /-- the working registers of `DEC` (R27) -/
  decWork : DecWork
  /-- the working registers of `BUILD` (R28) -/
  buildWork : BuildWork
  /-- what the host, the engine and the `rst` pin do next, in order -/
  inputs : List Input
  /-- the word the last `HostRead` returned -/
  rdata : Word
  /-- the counter the free values are applied to -/
  fresh : Nat
deriving DecidableEq, Repr

/-! ### Reset -/

/-- `STATUS` after reset: `0x00000000` (10_state.md R21, 70_reset_and_hazards.md R151). -/
def Status.reset : Status where
  busy := false
  done := false
  cfgv := false
  tblv := false
  fatal := false
  ecode := .ok
  ovr := false
  wlock := false
  badacc := false

/-- `IEN` after reset (10_state.md R22). -/
def IntEnable.reset : IntEnable where
  ieDone := false
  ieFatal := false

/-- A register array after reset: every word `0x00000000` (10_state.md R14, R15). -/
def RowFile.reset : RowFile := Vector.replicate 32 0

/-- The working registers of `DEC` after reset. The spec gives no value (R27): DESIGN CHOICE zero,
assumption log entry 6. -/
def DecWork.reset : DecWork where
  w := 0
  s := 0
  best := 0
  m := 0

/-- The working registers of `BUILD` after reset. The spec gives no value (R28): DESIGN CHOICE zero,
assumption log entry 6. -/
def BuildWork.reset : BuildWork where
  v := 0
  depth := 0
  pos := Vector.replicate 32 0
  p := 0
  cnt := 0

/-- The machine right after reset (70_reset_and_hazards.md R151): lifecycle EMPTY, the engine idle, and
nothing for it or the host to do. `PEND` is unspecified (R24): DESIGN CHOICE zero, entry 6. -/
def State.reset : State where
  config := Config.default
  status := Status.reset
  ien := IntEnable.reset
  k := 0
  n := 0
  grows := 0
  gcols := 0
  grow := RowFile.reset
  prow := RowFile.reset
  vin := 0
  vout := 0
  synd := 0
  wgt := 0
  tcnt := 0
  pend := 0
  tmem := []
  decWork := DecWork.reset
  buildWork := BuildWork.reset
  inputs := []
  rdata := 0
  fresh := 0

end Sys2Proof.Machine
end

