-- ==== Sys2Proof/Machine/Flags.lean ====
section
/-! DEFINITION. `STATUS`, `IEN`, `CAP` and `ID` as words, the write-1-to-clear bits, the completion code
bytes, the lifecycle state and its gate, and `irq`. -/

namespace Sys2Proof.Machine

open Sys2Proof

/-! ### Completion codes -/

/-- The byte of a completion code: high nibble class, low nibble cause (60_exceptions.md R131). -/
def Code.byte : Code → BitVec 8
  | .ok => 0x00
  | .eK => 0x11
  | .eN => 0x12
  | .eNmax => 0x13
  | .eShape => 0x14
  | .eRank => 0x15
  | .eVlen => 0x21
  | .eMiss => 0x31
  | .eNoconv => 0x32
  | .eIllcmd => 0x41
  | .eSeq => 0x42
  | .eFatal => 0x43

/-- The fatal codes (60_exceptions.md R131, R135). -/
def Code.isFatal : Code → Bool
  | .eRank => true
  | .eMiss => true
  | .eNoconv => true
  | .ok => false
  | .eK => false
  | .eN => false
  | .eNmax => false
  | .eShape => false
  | .eVlen => false
  | .eIllcmd => false
  | .eSeq => false
  | .eFatal => false

/-! ### Registers as words -/

/-- A flag at bit `i` of a word. -/
def flagAt (b : Bool) (i : Nat) : Word := (if b then 1#32 else 0#32) <<< i

/-- `STATUS` as a word (10_state.md R21); reserved bits read 0. -/
def Status.word (st : Status) : Word :=
  flagAt st.busy 0 ||| flagAt st.done 1 ||| flagAt st.cfgv 2 ||| flagAt st.tblv 3 |||
    flagAt st.fatal 4 ||| (st.ecode.byte.setWidth 32 <<< 8) ||| flagAt st.ovr 16 |||
    flagAt st.wlock 17 ||| flagAt st.badacc 18

/-- A host write of `d` to `STATUS`: each of bits 1, 16, 17, 18 written 1 clears its field, every other
bit of `d` is ignored (20_memory.md R43 case 3). -/
def Status.writeOneToClear (st : Status) (d : Word) : Status :=
  { st with
    done := st.done && !d.getLsbD 1
    ovr := st.ovr && !d.getLsbD 16
    wlock := st.wlock && !d.getLsbD 17
    badacc := st.badacc && !d.getLsbD 18 }

/-- `IEN` as a word; bits 31:2 read 0 (10_state.md R22). -/
def IntEnable.word (e : IntEnable) : Word := flagAt e.ieDone 0 ||| flagAt e.ieFatal 1

/-- A host write of `d` to `IEN`: `IEN[1:0] <- d[1:0]` (20_memory.md R43 case 4). -/
def IntEnable.ofWord (d : Word) : IntEnable := { ieDone := d.getLsbD 0, ieFatal := d.getLsbD 1 }

/-- `ID`, a constant (10_state.md R23). -/
def idWord : Word := 0x47463201

/-- `CAP`: `CAP[5:0] = NMAX`, `CAP[13:8] = 6`, the rest 0 (10_state.md R23). -/
def capWord (c : Config) : Word := BitVec.ofNat 32 c.nmax ||| (6#32 <<< 8)

/-! ### Interrupt -/

/-- `irq = (IEN.IE_DONE & STATUS.DONE) | (IEN.IE_FATAL & STATUS.FATAL)` (10_state.md R33). -/
def State.irq (s : State) : Bool :=
  (s.ien.ieDone && s.status.done) || (s.ien.ieFatal && s.status.fatal)

/-! ### Lifecycle -/

/-- The lifecycle states (10_state.md R26). -/
inductive Lifecycle where
  | empty | configured | ready | fatal
deriving DecidableEq, Repr

/-- The lifecycle state, a function of `FATAL`, `CFGV`, `TBLV` (10_state.md R26). -/
def Status.lifecycle (st : Status) : Lifecycle :=
  if st.fatal then .fatal
  else if st.tblv then .ready
  else if st.cfgv then .configured
  else .empty

/-- The gate of `CFG`: `CFGV = 0` (44_control.md R123). -/
def Status.gateCfg (st : Status) : Bool := !st.cfgv

/-- The gate of `BUILD`: `CFGV = 1` and `TBLV = 0` (44_control.md R123). -/
def Status.gateBuild (st : Status) : Bool := st.cfgv && !st.tblv

/-- The gate of `ENC` and `SYN`: `CFGV = 1` (44_control.md R123). -/
def Status.gateCode (st : Status) : Bool := st.cfgv

/-- The gate of `DEC` and `LDW`: `TBLV = 1` (44_control.md R123). -/
def Status.gateTable (st : Status) : Bool := st.tblv

end Sys2Proof.Machine
end

