-- ==== Sys2Proof/Machine/Operands.lean ====
section
/-! DEFINITION. Operand forms: the GF(2) primitives of 40_gf2_primitives.md over packed vectors and row
arrays, and the run-time lengths `k`, `n`, `r`. -/

namespace Sys2Proof.Machine

open Sys2Proof

/-! ### Bits, vectors, masks -/

/-- The sum modulo 2 of `f 0 .. f (n-1)`; the empty sum is 0 (R80). -/
def sumMod2 : Nat → (Nat → Bool) → Bool
  | 0, _ => false
  | n + 1, f => sumMod2 n f ^^ f n

/-- How many of `f 0 .. f (n-1)` are set. -/
def countSet : Nat → (Nat → Bool) → Nat
  | 0, _ => 0
  | n + 1, f => countSet n f + (f n).toNat

/-- The word of the vector of length `len` whose position `i` is `f i`, higher bits 0 (00_scope.md R7). -/
def packBits : Nat → (Nat → Bool) → Word
  | 0, _ => 0
  | n + 1, f => packBits n f ||| (if f n then 1#32 <<< n else 0)

/-- `mask(w)`, the word `2^w - 1` (00_scope.md R7). -/
def mask (w : Nat) : Word := BitVec.ofNat 32 (2 ^ w - 1)

/-- The stray bits of a vector of length `len`: `v & ~mask(len)` (00_scope.md, glossary). -/
def strayBits (len : Nat) (v : Word) : Word := v &&& ~~~(mask len)

/-! ### Primitives -/

/-- `Parity(x)`: the exclusive-or of the 32 bits (R82). -/
def parity (x : Word) : Bool := sumMod2 32 x.getLsbD

/-- `HW(x)`: the Hamming weight (R83). -/
def hammingWeight (x : Word) : Nat := countSet 32 x.getLsbD

/-- `Flip(v, m)`: the symbol at position `m` inverted (R88). -/
def flipBit (v : Word) (m : Nat) : Word := v ^^^ (1#32 <<< m)

/-- Row `i` of a register array; a row that does not exist reads 0. -/
def RowFile.row (f : RowFile) (i : Nat) : Word := f[i]?.getD 0

/-- A register array with row `i` written; a row that does not exist discards the write. -/
def RowFile.setRow (f : RowFile) (i : Nat) (x : Word) : RowFile := f.setIfInBounds i x

/-- `Transpose(M, R, C)`: row `i < C` has `T[i][j] = M[j][i]` for `j < R`; every other bit is 0 (R84). -/
def transpose (f : RowFile) (rows cols : Nat) : RowFile :=
  Vector.ofFn fun i : Fin 32 =>
    if i.val < cols then packBits rows fun j => (f.row j).getLsbD i.val else 0

/-- `MulMod2(M, R, C, x)`: `y[i] = Parity(M[i] & x & mask(C))` for `i < R`, higher bits 0 (R85). -/
def mulMod2 (f : RowFile) (rows cols : Nat) (x : Word) : Word :=
  packBits rows fun i => parity (f.row i &&& x &&& mask cols)

/-- `Syndrome(v)`: `s[i] = Parity(PROW[i] & v & mask(k)) xor v[k+i]` for `i < r`, higher bits 0 (R86). -/
def syndrome (k n : Nat) (prow : RowFile) (v : Word) : Word :=
  packBits (n - k) fun i => parity (prow.row i &&& v &&& mask k) ^^ v.getLsbD (k + i)

/-- The exclusive-or of the generator rows `i < count` that the message selects, `r` columns each:
the loop of `ParityBits` (R87). -/
def selectedRows (grow : RowFile) (r : Nat) (msg : Word) : Nat → Word
  | 0 => 0
  | i + 1 =>
    if msg.getLsbD i then selectedRows grow r msg i ^^^ (grow.row i &&& mask r)
    else selectedRows grow r msg i

/-- `ParityBits(msg)` (R87). -/
def parityBits (k n : Nat) (grow : RowFile) (msg : Word) : Word := selectedRows grow (n - k) msg k

/-- `Encode(msg)`: the message in positions `[0,k)` and the parity symbols in `[k,n)`; no shift when
`r = 0` (R87). -/
def encodeMessage (k n : Nat) (grow : RowFile) (msg : Word) : Word :=
  if n - k = 0 then msg else msg ||| (parityBits k n grow msg <<< k)

/-! ### Run-time lengths -/

/-- `k`, the value of `K` (00_scope.md R6). -/
def State.kLen (s : State) : Nat := s.k.toNat

/-- `n`, the value of `N` (00_scope.md R6). -/
def State.nLen (s : State) : Nat := s.n.toNat

/-- `r = n - k` (00_scope.md R6). -/
def State.rLen (s : State) : Nat := s.nLen - s.kLen

/-- `1 <= K <= N <= NMAX`, as signed integers: what holds after a successful `CFG` (10_state.md R11). -/
def State.paramsLegal (s : State) : Bool :=
  decide (1 ≤ s.k.toInt ∧ s.k.toInt ≤ s.n.toInt ∧ s.n.toInt ≤ s.config.nmax)

/-- `Syndrome(v)` of the code in `K`, `N`, `PROW` (R86). -/
def State.syndromeOf (s : State) (v : Word) : Word := syndrome s.kLen s.nLen s.prow v

/-- `Encode(msg)` of the code in `K`, `N`, `GROW` (R87). -/
def State.encodeOf (s : State) (msg : Word) : Word := encodeMessage s.kLen s.nLen s.grow msg

end Sys2Proof.Machine
end

