-- ==== Sys2Proof/Machine/Ops.lean ====
section
/-! DEFINITION. The named operations over the table memory, the register map, and the command protocol:
issue, completion, the entry of an error, dispatch, reset. -/

namespace Sys2Proof.Machine

open Sys2Proof

/-! ### The table memory `TMEM` (10_state.md R25, 20_memory.md R51) -/

/-- The canonical form: addresses strictly rising and no entry equal to what an unlisted address reads. -/
def TMem.wf (m : TMem) : Bool :=
  decide (m.Pairwise fun a b => a.1 < b.1) && m.all fun c => decide (c.2 ≠ Entry.absent)

/-- `TMEM[i]`. -/
def TMem.read : TMem → Nat → Entry
  | [], _ => Entry.absent
  | (a, e) :: rest, i => if a = i then e else TMem.read rest i

/-- The memory with address `i` unlisted. -/
def TMem.erase (m : TMem) (i : Nat) : TMem := m.filter fun c => decide (c.1 ≠ i)

/-- The memory with `(i, e)` listed at its place, for an `i` that is not listed. -/
def TMem.insert : TMem → Nat → Entry → TMem
  | [], i, e => [(i, e)]
  | (a, x) :: rest, i, e =>
    if i < a then (i, e) :: (a, x) :: rest else (a, x) :: TMem.insert rest i e

/-- `TMEM[i] <- e`; writing what an unlisted address reads removes the entry. -/
def TMem.write (m : TMem) (i : Nat) (e : Entry) : TMem :=
  if e = Entry.absent then TMem.erase m i else TMem.insert (TMem.erase m i) i e

/-- Phase 1 of `BUILD`: every entry of `0 .. count-1` becomes `(0, 0)` (42_coset_leader_table.md R100). -/
def TMem.clearBelow (m : TMem) (count : Nat) : TMem := m.filter fun c => decide (count ≤ c.1)

/-! ### The register map (20_memory.md R41) -/

/-- The host-visible registers. -/
inductive Reg where
  | id | cap | cmd | status | ien | k | n | grows | gcols | vin | vout | synd | wgt | tcnt
  | grow (i : Nat)
  | prow (i : Nat)
deriving DecidableEq, Repr

/-- The registers of a fixed word index, row by row of the map (R41). -/
def fixedRegs : List (Nat × Reg) :=
  [(0, .id), (1, .cap), (2, .cmd), (3, .status), (4, .ien), (8, .k), (9, .n), (10, .grows),
    (11, .gcols), (16, .vin), (17, .vout), (18, .synd), (19, .wgt), (20, .tcnt)]

/-- The row registers: `GROW[i]` at `64 + i` and `PROW[i]` at `96 + i`, for `i < NMAX` (R41). -/
def Reg.ofRowIndex (nmax a : Nat) : Option Reg :=
  if 64 ≤ a ∧ a < 64 + nmax then some (.grow (a - 64))
  else if 96 ≤ a ∧ a < 96 + nmax then some (.prow (a - 96))
  else none

/-- The register at word index `a`; `none` where the word is unmapped (R41, R47). -/
def Reg.ofIndex (nmax a : Nat) : Option Reg :=
  match fixedRegs.find? fun c => c.1 == a with
  | some c => some c.2
  | none => Reg.ofRowIndex nmax a

/-- The word index of a register (R41). DESIGN CHOICE (assumption log entry 16): a row register that R41 does
not have (`i >= 32`) gets the formula's `64 + i` or `96 + i` too. -/
def Reg.index : Reg → Nat
  | .id => 0
  | .cap => 1
  | .cmd => 2
  | .status => 3
  | .ien => 4
  | .k => 8
  | .n => 9
  | .grows => 10
  | .gcols => 11
  | .vin => 16
  | .vout => 17
  | .synd => 18
  | .wgt => 19
  | .tcnt => 20
  | .grow i => 64 + i
  | .prow i => 96 + i

/-- The registers a host write never reaches (R41 "RO", R43 case 2). -/
def Reg.readOnly : Reg → Bool
  | .id => true
  | .cap => true
  | .vout => true
  | .synd => true
  | .wgt => true
  | .tcnt => true
  | .prow _ => true
  | .cmd => false
  | .status => false
  | .ien => false
  | .k => false
  | .n => false
  | .grows => false
  | .gcols => false
  | .vin => false
  | .grow _ => false

/-- The code parameter registers, locked while `CFGV = 1` (R41 "Lock", R43 case 6). -/
def Reg.lockable : Reg → Bool
  | .k => true
  | .n => true
  | .grows => true
  | .gcols => true
  | .grow _ => true
  | .id => false
  | .cap => false
  | .cmd => false
  | .status => false
  | .ien => false
  | .vin => false
  | .vout => false
  | .synd => false
  | .wgt => false
  | .tcnt => false
  | .prow _ => false

/-- The committed value of a register, `CMD` reading 0 (R42, 10_state.md R24). -/
def State.readReg (s : State) : Reg → Word
  | .id => idWord
  | .cap => capWord s.config
  | .cmd => 0
  | .status => s.status.word
  | .ien => s.ien.word
  | .k => s.k
  | .n => s.n
  | .grows => s.grows
  | .gcols => s.gcols
  | .vin => s.vin
  | .vout => s.vout
  | .synd => s.synd
  | .wgt => s.wgt
  | .tcnt => s.tcnt
  | .grow i => s.grow.row i
  | .prow i => s.prow.row i

/-- The register takes all 32 bits of `d` (R43 case 8); a register that case does not reach keeps its
value. -/
def State.storeReg (s : State) (d : Word) : Reg → State
  | .k => { s with k := d }
  | .n => { s with n := d }
  | .grows => { s with grows := d }
  | .gcols => { s with gcols := d }
  | .vin => { s with vin := d }
  | .grow i => { s with grow := s.grow.setRow i d }
  | .id => s
  | .cap => s
  | .cmd => s
  | .status => s
  | .ien => s
  | .vout => s
  | .synd => s
  | .wgt => s
  | .tcnt => s
  | .prow _ => s

/-! ### Sticky flags (60_exceptions.md R137) -/

/-- `STATUS.BADACC <- 1`. -/
def State.setBadacc (s : State) : State := { s with status := { s.status with badacc := true } }

/-- `STATUS.OVR <- 1`. -/
def State.setOvr (s : State) : State := { s with status := { s.status with ovr := true } }

/-- `STATUS.WLOCK <- 1`. -/
def State.setWlock (s : State) : State := { s with status := { s.status with wlock := true } }

/-! ### Issue, completion, errors (44_control.md, 60_exceptions.md) -/

/-- Issue of command word `w`: `PEND <- w`, `BUSY <- 1`, `DONE <- 0`, `ECODE <- 0x00` (R120). It also
clears the record of the last error (60_exceptions.md R136). -/
def State.issue (s : State) (w : Word) : State :=
  { s with
    pend := w
    status := { s.status with busy := true, done := false, ecode := .ok } }

/-- Completion with code `c`: `BUSY <- 0`, `DONE <- 1`, `ECODE <- c` (R121). `PEND` is then any value
(93_implementation_defined.md U3): a free value. -/
def State.complete (s : State) (c : Code) : State :=
  { s with
    status := { s.status with busy := false, done := true, ecode := c }
    pend := Config.freePend s.fresh
    fresh := s.fresh + 1 }

/-- The entry of an error: the command completes with its code, and a fatal code also sets
`STATUS.FATAL` in the same step (60_exceptions.md R134, R135). The only exception mechanism there is
(R130); there is no return from it (R136). -/
def State.raise (s : State) (c : Code) : State :=
  State.complete { s with status := { s.status with fatal := s.status.fatal || c.isFatal } } c

/-- After a `DEC` its working registers are any value (U12): free values. -/
def State.releaseDec (s : State) : State :=
  { s with
    decWork :=
      { w := Config.freeDecW s.fresh
        s := Config.freeDecS s.fresh
        best := Config.freeDecBest s.fresh
        m := Config.freeDecM s.fresh } }

/-- After a `BUILD` its working registers are any value (U12): free values. -/
def State.releaseBuild (s : State) : State :=
  { s with
    buildWork :=
      { v := Config.freeBuildV s.fresh
        depth := Config.freeBuildDepth s.fresh
        pos := Config.freeBuildPos s.fresh
        p := Config.freeBuildP s.fresh
        cnt := Config.freeBuildCnt s.fresh } }

/-- Dispatch of a legal command word other than `RST`: `E_FATAL`, then the lifecycle gate, then the
command's own pseudocode (R122 cases 3 to 5). -/
def State.dispatch (s : State) (gate : Bool) (body : State → State) :
    Host.Outcome State Fault Refusal :=
  if s.status.fatal then .next (s.raise .eFatal)
  else if gate then .next (body s)
  else .next (s.raise .eSeq)

/-- Dispatch of a command that needs a CodeParameters object: past the gate its registers hold legal
code parameters, or the spec gives no meaning (`Fault.codeParametersIllegal`). -/
def State.dispatchCoded (s : State) (gate : Bool) (body : State → State) :
    Host.Outcome State Fault Refusal :=
  if s.status.fatal || !gate || s.paramsLegal then s.dispatch gate body
  else .fault .codeParametersIllegal

/-! ### Reset (70_reset_and_hazards.md R150, R151) -/

/-- Every register, field and hidden register at its reset value, by the `rst` pin or by `RST`. The
fields of the model's own are not the machine's and stay: the implementation's parameter, what the host
does next, what it last read, and the counter of the free values. -/
def State.toReset (s : State) : State :=
  { State.reset with
    config := s.config
    inputs := s.inputs
    rdata := s.rdata
    fresh := s.fresh }

end Sys2Proof.Machine
end

