-- ==== Sys2Proof/Machine/Bus.lean ====
section
/-! DEFINITION. The host transactions `wr` and `rd` (20_memory.md). -/

namespace Sys2Proof.Machine

open Sys2Proof

/-- `HostWrite(a, d)` to a mapped register that is not read-only: cases 3 to 8 of R43, in order. -/
def State.writeReg (s : State) (q : Reg) (d : Word) : State :=
  if q = .status then { s with status := s.status.writeOneToClear d }
  else if q = .ien then { s with ien := IntEnable.ofWord d }
  else if s.status.busy then s.setOvr
  else if s.status.cfgv && q.lockable then s.setWlock
  else if q = .cmd then s.issue d
  else s.storeReg d q

/-- `HostWrite(a, d)` (R43). -/
def State.hostWrite (s : State) (a : Nat) (d : Word) : State :=
  match Reg.ofIndex s.config.nmax a with
  | none => s.setBadacc
  | some q => if q.readOnly then s.setBadacc else s.writeReg q d

/-- `HostRead(a)`: the word it returns goes to `rdata`; the one register it can change is
`STATUS.BADACC`, on an unmapped word (R42). -/
def State.hostRead (s : State) (a : Nat) : State :=
  match Reg.ofIndex s.config.nmax a with
  | none => { s.setBadacc with rdata := 0 }
  | some q => { s with rdata := s.readReg q }

/-- `wr` (R43). A word index the 7-bit address cannot carry is no transaction. -/
def execWr (a : Nat) (d : Word) (s : State) : Host.Outcome State Fault Refusal :=
  if a < wordCount then .next (s.hostWrite a d) else .fault .wordIndexOutside

/-- `rd` (R42). A word index the 7-bit address cannot carry is no transaction. -/
def execRd (a : Nat) (s : State) : Host.Outcome State Fault Refusal :=
  if a < wordCount then .next (s.hostRead a) else .fault .wordIndexOutside

end Sys2Proof.Machine
end

