-- ==== Sys2Proof/Machine/CodeParameters.lean ====
section
/-! DEFINITION. The CodeParameters commands `CFG` and `SYN` (41_code_parameters.md). -/

namespace Sys2Proof.Machine

open Sys2Proof

/-- Some row `i < k` of `GROW` has an entry outside its `r` columns (R90). -/
def hasStrayRow (grow : RowFile) (k r : Nat) : Bool :=
  (List.range k).any fun i => decide (strayBits r (grow.row i) ≠ 0)

/-- The tests of `CFG` in order; the first that fails decides the code (R90). -/
def State.cfgError (s : State) : Option Code :=
  if s.k.toInt ≤ 0 then some .eK
  else if s.n.toInt < s.k.toInt then some .eN
  else if s.n.toInt > s.config.nmax then some .eNmax
  else if s.grows ≠ s.k ∨ s.gcols ≠ s.n - s.k then some .eShape
  else if hasStrayRow s.grow s.kLen s.rLen then some .eShape
  else none

/-- `PROW[i] <- T[i] if i < r else 0` for `i < NMAX`, with `T = Transpose(GROW, k, r)` (R90). -/
def State.parityRows (s : State) : RowFile :=
  Vector.ofFn fun i : Fin 32 =>
    if i.val < s.config.nmax then
      if i.val < s.rLen then (transpose s.grow s.kLen s.rLen).row i.val else 0
    else s.prow.row i.val

/-- `CFG` past its gate (R90). -/
def cfgBody (s : State) : State :=
  match s.cfgError with
  | some c => s.raise c
  | none =>
    State.complete { s with prow := s.parityRows, status := { s.status with cfgv := true } } .ok

/-- `CFG` (R90). -/
def execCfg (s : State) : Host.Outcome State Fault Refusal := s.dispatch s.status.gateCfg cfgBody

/-- `SYN` past its gate: `SYND <- Syndrome(VIN)` (R91). -/
def synBody (s : State) : State :=
  if strayBits s.nLen s.vin ≠ 0 then s.raise .eVlen
  else State.complete { s with synd := s.syndromeOf s.vin } .ok

/-- `SYN` (R91). -/
def execSyn (s : State) : Host.Outcome State Fault Refusal := s.dispatchCoded s.status.gateCode synBody

end Sys2Proof.Machine
end

