-- ==== Sys2Proof/Machine/Codec.lean ====
section
/-! DEFINITION. The codec commands `ENC` and `DEC` (43_codec.md). -/

namespace Sys2Proof.Machine

open Sys2Proof

/-- `ENC` past its gate: `VOUT <- Encode(VIN)` (R110). -/
def encBody (s : State) : State :=
  if strayBits s.kLen s.vin ≠ 0 then s.raise .eVlen
  else State.complete { s with vout := s.encodeOf s.vin } .ok

/-- `ENC` (R110). -/
def execEnc (s : State) : Host.Outcome State Fault Refusal := s.dispatchCoded s.status.gateCode encBody

/-- How the decoding of a vector ends (R111). -/
inductive DecEnd where
  /-- the syndrome is zero: `VOUT <- v` -/
  | zero (v : Word)
  /-- a `Lookup` met an entry with `valid = 0` -/
  | miss
  /-- the cursor ran off the vector -/
  | noconv
deriving DecidableEq, Repr

/-- `Lookup(s)`: the leader weight, or `none` where `TMEM[s].valid = 0` (R111). -/
def lookup (m : TMem) (syndr : Word) : Option Weight :=
  let e := m.read syndr.toNat
  if e.valid then some e.weight else none

/-- The loop of `DEC`. The first argument is `n - m`, the positions the cursor `m` has not passed: it is
0 exactly when `m = n`, so the loop ends there with no other cap (R111). A syndrome has `r <= 31` symbols,
so the 31-bit register `s` loses none (10_state.md R27; assumption log entry 12). -/
def decLoop (syn : Word → Word) (look : Word → Option Weight) : Nat → DecWork → DecEnd
  | 0, _ => .noconv
  | left + 1, b =>
    let w := flipBit b.w b.m.toNat
    let s := syn w
    if s = 0 then .zero w
    else
      match look s with
      | none => .miss
      | some t =>
        if t < b.best then
          decLoop syn look left { w := w, s := s.setWidth 31, best := t, m := b.m + 1 }
        else
          decLoop syn look left
            { w := flipBit w b.m.toNat, s := s.setWidth 31, best := b.best, m := b.m + 1 }

/-- The decoding of a vector `v` of length `n` (R111). -/
def decodeVector (syn : Word → Word) (look : Word → Option Weight) (n : Nat) (v : Word) : DecEnd :=
  let s := syn v
  if s = 0 then .zero v
  else
    match look s with
    | none => .miss
    | some best => decLoop syn look n { w := v, s := s.setWidth 31, best := best, m := 0 }

/-- `DEC` past its gate (R111). -/
def decBody (s : State) : State :=
  if strayBits s.nLen s.vin ≠ 0 then s.raise .eVlen
  else
    match decodeVector s.syndromeOf (lookup s.tmem) s.nLen s.vin with
    | .zero v => State.complete { s.releaseDec with vout := v } .ok
    | .miss => s.releaseDec.raise .eMiss
    | .noconv => s.releaseDec.raise .eNoconv

/-- `DEC` (R111). -/
def execDec (s : State) : Host.Outcome State Fault Refusal := s.dispatchCoded s.status.gateTable decBody

end Sys2Proof.Machine
end

