-- ==== Sys2Proof/Machine/Control.lean ====
section
/-! DEFINITION. The control commands: `RST` and the completion of an illegal word (44_control.md). -/

namespace Sys2Proof.Machine

open Sys2Proof

/-- `RST`: the whole state at its reset values, in every lifecycle state; `DONE` is then 0 (R121, R124). -/
def execRst (s : State) : Host.Outcome State Fault Refusal := .next s.toReset

/-- An illegal command word completes with `E_ILLCMD` and no other effect, in lifecycle FATAL too
(R122 case 1, R125). -/
def completeIllegal (s : State) : Host.Outcome State Fault Refusal := .next (s.raise .eIllcmd)

end Sys2Proof.Machine
end

