-- ==== Sys2Proof/Machine/CosetLeader.lean ====
section
/-! DEFINITION. The CosetLeaderTable commands `BUILD` and `LDW` (42_coset_leader_table.md). -/

namespace Sys2Proof.Machine

open Sys2Proof

/-- `Record(v, w)`: an unseen syndrome is recorded and counted, a strictly larger stored weight is
replaced, an equal or smaller one stays (R101). -/
def record (syn : Word → Word) (v : Word) (w : Weight) (m : TMem) (cnt : Word) : TMem × Word :=
  let i := (syn v).toNat
  let old := m.read i
  if old.valid = false then (m.write i { valid := true, weight := w }, cnt + 1)
  else if w < old.weight then (m.write i { valid := true, weight := w }, cnt)
  else (m, cnt)

/-- The working registers when phase 3 begins, `cnt` already counting the seed (R100). -/
def buildStart (cnt : Word) : BuildWork where
  v := 0
  depth := 0
  pos := Vector.replicate 32 0
  p := 0
  cnt := cnt

/-- One turn of the phase 3 loop of `BUILD`: extend with position `p`, or backtrack, or leave the loop
(`none`) (R100). -/
def buildTurn (syn : Word → Word) (n : Nat) (b : BuildWork) (m : TMem) : Option (BuildWork × TMem) :=
  if b.p.toNat < n then
    let v := b.v ||| (1#32 <<< b.p.toNat)
    let depth := b.depth + 1
    let (m', cnt) := record syn v depth m b.cnt
    some
      ({ v := v
         depth := depth
         pos := b.pos.setIfInBounds b.depth.toNat (b.p.setWidth 5)
         p := b.p + 1
         cnt := cnt }, m')
  else if b.depth = 0 then none
  else
    let depth := b.depth - 1
    let q := (b.pos[depth.toNat]?).getD 0
    some
      ({ v := b.v &&& ~~~(1#32 <<< q.toNat)
         depth := depth
         pos := b.pos
         p := q.setWidth 6 + 1
         cnt := b.cnt }, m)

/-- The phase 3 loop, at most `fuel` turns. `2^(n+1)` turns suffice: `2^n - 1` extensions, as many
backtracks, and the turn that leaves the loop (R100, R105 item 1). -/
def buildLoop (syn : Word → Word) (n : Nat) : Nat → BuildWork → TMem → BuildWork × TMem
  | 0, b, m => (b, m)
  | fuel + 1, b, m =>
    match buildTurn syn n b m with
    | none => (b, m)
    | some (b', m') => buildLoop syn n fuel b' m'

/-- Phases 1 to 3 of `BUILD`: clear the entries, seed the zero vector, enumerate every other vector;
the answer is the table and the number of its valid entries (R100). -/
def State.enumerate (s : State) : TMem × Word :=
  let cleared := s.tmem.clearBelow (2 ^ s.rLen)
  let (seeded, cnt) := record s.syndromeOf 0 0 cleared 0
  let (b, m) := buildLoop s.syndromeOf s.nLen (2 ^ (s.nLen + 1)) (buildStart cnt) seeded
  (m, b.cnt)

/-- Phase 4 of `BUILD`: `TCNT <- cnt`, then the completeness check and the publication (R100, R103). -/
def State.publish (s : State) (m : TMem) (cnt : Word) : State :=
  let t := { s with tmem := m, tcnt := cnt }
  if cnt ≠ BitVec.ofNat 32 (2 ^ s.rLen) then t.raise .eRank
  else State.complete { t with status := { s.status with tblv := true } } .ok

/-- `BUILD` past its gate (R100). -/
def buildBody (s : State) : State :=
  let (m, cnt) := s.enumerate
  s.releaseBuild.publish m cnt

/-- `BUILD` (R100). -/
def execBuild (s : State) : Host.Outcome State Fault Refusal :=
  s.dispatchCoded s.status.gateBuild buildBody

/-- `LDW` past its gate: `WGT <- TMEM[VIN].weight`, zero-extended (R104). -/
def ldwBody (s : State) : State :=
  if strayBits s.rLen s.vin ≠ 0 then s.raise .eVlen
  else
    let e := s.tmem.read s.vin.toNat
    if e.valid = false then s.raise .eMiss
    else State.complete { s with wgt := e.weight.setWidth 32 } .ok

/-- `LDW` (R104). -/
def execLdw (s : State) : Host.Outcome State Fault Refusal := s.dispatchCoded s.status.gateTable ldwBody

end Sys2Proof.Machine
end

