-- ==== Sys2Proof/Machine/Dispatch.lean ====
section
/-! DEFINITION. One arm per instruction: the completion of a command by the engine, or a transaction of
the host. -/

namespace Sys2Proof.Machine

open Sys2Proof

def exec (i : Instr) (s : State) : Host.Outcome State Fault Refusal :=
  match i with
  | .cfg => Sys2Proof.Machine.execCfg s
  | .build => Sys2Proof.Machine.execBuild s
  | .enc => Sys2Proof.Machine.execEnc s
  | .dec => Sys2Proof.Machine.execDec s
  | .syn => Sys2Proof.Machine.execSyn s
  | .ldw => Sys2Proof.Machine.execLdw s
  | .rst => Sys2Proof.Machine.execRst s
  | .wr a d => Sys2Proof.Machine.execWr a d s
  | .rd a => Sys2Proof.Machine.execRd a s

end Sys2Proof.Machine
end

