-- ==== Sys2Proof/Machine/Engine.lean ====
section
/-! DEFINITION. What the agents do in one step: the host's transaction, the engine's completion, the
`rst` pin (00_scope.md R9, 44_control.md R121, 70_reset_and_hazards.md R150). -/

namespace Sys2Proof.Machine

open Sys2Proof

/-- `Exec(PEND)`: the command word in flight is decoded and completed (44_control.md R121, R122). -/
def completePending (s : State) : Host.Outcome State Fault Refusal :=
  match decodeCommand s.pend with
  | .ok i => exec i s
  | .error _ => completeIllegal s

/-- The engine's turn: it completes the command in flight; an idle engine waits (R121, 60_exceptions.md
R141). -/
def engineTurn (s : State) : Host.Outcome State Fault Refusal :=
  if s.status.busy then completePending s else .next s

/-- The host performs the transaction the record stands for (20_memory.md R42, R43, R54). -/
def hostTurn (t : Record) (s : State) : Host.Outcome State Fault Refusal := exec (decodeBus t) s

/-- The `rst` pin is sampled high: every register takes its reset value and a running command is
abandoned (70_reset_and_hazards.md R150, R152). -/
def pinTurn (s : State) : Host.Outcome State Fault Refusal := .next s.toReset

/-- The record of `rd STATUS`, which `wait` repeats (30_encoding.md R67). -/
def statusRead : Record := 0x0300000000

/-- One turn of `wait`: a read of `STATUS`, or, when the polls that find `BUSY = 1` are done, the engine's
completion, which is what the host waits for (30_encoding.md R67, 44_control.md R126). -/
def waitTurn (polls : Nat) (s : State) : Host.Outcome State Fault Refusal :=
  if s.status.busy && polls == 0 then engineTurn s else hostTurn statusRead s

/-- What is still to happen after the first input's turn. A `wait` stays until its read finds
`BUSY = 0` (30_encoding.md R67); any other input is taken. -/
def remaining (busy : Bool) : List Input → List Input
  | [] => []
  | .txn _ :: rest => rest
  | .engine :: rest => rest
  | .rstPin :: rest => rest
  | .wait polls :: rest => if busy then .wait (polls - 1) :: rest else rest

/-- The state in which the first input has its turn. -/
def State.afterInput (s : State) : State := { s with inputs := remaining s.status.busy s.inputs }

/-- One step: the first input has its turn; with none left the engine has it, so every issued command
completes (44_control.md R126). -/
def runNext (s : State) : Host.Outcome State Fault Refusal :=
  match s.inputs with
  | [] => engineTurn s.afterInput
  | .txn t :: _ => hostTurn t s.afterInput
  | .engine :: _ => engineTurn s.afterInput
  | .rstPin :: _ => pinTurn s.afterInput
  | .wait polls :: _ => waitTurn polls s.afterInput

/-- A command word in flight whose completion is what happens next. -/
def State.withCommand (s : State) (w : Word) : State :=
  { s.issue w with inputs := .engine :: s.inputs }

/-- A transaction record that the host performs next. -/
def State.withRecord (s : State) (t : Record) : State := { s with inputs := .txn t :: s.inputs }

end Sys2Proof.Machine
end

