-- ==== Sys2Proof/Machine/Step.lean ====
section
/-! DEFINITION. The step, and where it takes its next instruction from. -/

namespace Sys2Proof.Machine

open Sys2Proof

/-- One step of the machine. -/
def step (s : State) : Host.Outcome State Fault Refusal := runNext s

/-- `s` with the instruction of bits `w` where the next step takes it from. A command word (32 bits) is
in flight, issued and about to complete; a record (40 bits) is the next thing the host performs. -/
def State.withFetchWord (s : State) (nbits w : Nat) : State :=
  if nbits = 32 then s.withCommand (BitVec.ofNat 32 w)
  else if nbits = 40 then s.withRecord (BitVec.ofNat 40 w)
  else s

end Sys2Proof.Machine
end

