-- ==== Sys2Proof/Machine/Assembler.lean ====
section
/-! DEFINITION. Host programs: the assembler statements, pseudo-instructions and vector literals of
30_encoding.md R66, R67, and the byte-addressed view a platform bridge gives (20_memory.md R44, R45).

DESIGN CHOICE (assumption log entry 16): operands that R66 and R67 give no meaning to are not refused here.
A row register that R41 does not have, `GROW[i]` or `PROW[i]` with `i >= 32`, a `code k, n` with `n < k` or
with a number of 33 bits or more, and a vector literal of more than 32 symbols are cut to the field's
width, as each definition below says. -/

namespace Sys2Proof.Machine

open Sys2Proof

/-- The word of a vector literal `[v0,v1,...]`, position `i` in bit `i` (00_scope.md R7, R66). DESIGN CHOICE
(entry 16): of a literal with more than 32 symbols the first 32 are kept. -/
def packVector : List Bool → Word
  | [] => 0
  | b :: rest => (packVector rest <<< 1) ||| (if b then 1 else 0)

/-- The seven command statements (R66). -/
inductive Command where
  | cfg | build | enc | dec | syn | ldw | rst
deriving DecidableEq, Repr

/-- The word a command statement writes to `CMD` (R61). -/
def Command.word : Command → Word
  | .cfg => 0x01
  | .build => 0x02
  | .enc => 0x03
  | .dec => 0x05
  | .syn => 0x06
  | .ldw => 0x07
  | .rst => 0x0F

/-- One line of a host program: a statement of R66 or a pseudo-instruction of R67. -/
inductive Statement where
  | wr (q : Reg) (value : Word)
  | rd (q : Reg)
  | cmd (c : Command)
  /-- `wait`; `polls` is the timing the spec leaves open (R67): how many of its reads find `BUSY = 1`
  before the engine completes the command in flight, if there is one. -/
  | wait (polls : Nat)
  | clr (bits : Word)
  /-- `ldg i, value`. DESIGN CHOICE (entry 16) for `i >= 32`, which R41 does not have: see `wrRecord`. -/
  | ldg (i : Nat) (value : Word)
  /-- `code k, n`. DESIGN CHOICE (entry 16) for `n < k`, where R67 gives no 32-bit data for the negative
  `n-k`: the word written to `GCOLS` is `n-k` modulo `2^32`. So too for `k` or `n` of `2^32` or more. -/
  | code (k n : Nat)
  /-- `run cmd`; `polls` as in `wait`. -/
  | run (c : Command) (polls : Nat)
deriving DecidableEq, Repr

/-- The record of `wr REG, value` (R66). DESIGN CHOICE (entry 16): for a row register that R41 does not have
(`i >= 32`) the address field keeps the index modulo 128, so `wr GROW[32], d` writes word 96 (`PROW[0]`) and
`wr PROW[32], d` word 0 (`ID`). -/
def wrRecord (q : Reg) (d : Word) : Record := mkRecord true q.index d

/-- The record of `rd REG` (R66). DESIGN CHOICE (entry 16) for `i >= 32`, as in `wrRecord`. -/
def rdRecord (q : Reg) : Record := mkRecord false q.index 0

/-- What a statement makes the host do, in order (R66, R67). `code` with `n < k` writes `n-k` modulo `2^32`
to `GCOLS` (DESIGN CHOICE, entry 16). -/
def Statement.inputs : Statement → List Input
  | .wr q d => [.txn (wrRecord q d)]
  | .rd q => [.txn (rdRecord q)]
  | .cmd c => [.txn (wrRecord .cmd c.word)]
  | .wait polls => [.wait polls]
  | .clr bits => [.txn (wrRecord .status bits)]
  | .ldg i d => [.txn (wrRecord (.grow i) d)]
  | .code k n =>
    [.txn (wrRecord .k (BitVec.ofNat 32 k)), .txn (wrRecord .n (BitVec.ofNat 32 n)),
      .txn (wrRecord .grows (BitVec.ofNat 32 k)),
      .txn (wrRecord .gcols (BitVec.ofNat 32 n - BitVec.ofNat 32 k))]
  | .run c polls => [.txn (wrRecord .cmd c.word), .wait polls]

/-- A host program, for `State.inputs`: one host, which performs its lines in order (R65, 20_memory.md
R48 (a)). -/
def assemble (lines : List Statement) : List Input := lines.flatMap Statement.inputs

/-! ### The view through a bridge -/

/-- The byte at offset `4*a + b`, `b < 4`, of a byte-addressed view is bits `8b+7 : 8b` of word `a` (R44). -/
def byteLane (w : Word) (b : Nat) : BitVec 8 := w.extractLsb' (8 * b) 8

/-- The word index a bridge passes on: only a naturally aligned 32-bit access inside the 512 bytes; any
other access the bridge refuses and GF2LAE never sees it (R45). -/
def bridgeIndex (offset bytes : Nat) : Option Nat :=
  if bytes = 4 ∧ offset % 4 = 0 ∧ offset / 4 < wordCount then some (offset / 4) else none

end Sys2Proof.Machine
end

