-- ==== Sys2Proof/Safety.lean ====
section
/-! DEFINITION. What counts as a safe run and as a good state, in the terms the statements use. -/

namespace Sys2Proof.Machine

open Sys2Proof

/-- The next step is taken: no fault and no refusal. -/
def Safe (s : State) : Prop := ∃ t, step s = .next t

/-- `v` is a packed vector of length `len`: it has no stray bit (00_scope.md R7). -/
def IsVector (len : Nat) (v : Word) : Prop := strayBits len v = 0

/-- How many steps the listed inputs take at most: a `wait` its polls, the completion it waits for, and the
read that ends it; any other input one. -/
def turnsOf : List Input → Nat
  | [] => 0
  | .txn _ :: rest => turnsOf rest + 1
  | .engine :: rest => turnsOf rest + 1
  | .rstPin :: rest => turnsOf rest + 1
  | .wait polls :: rest => turnsOf rest + (polls + 2)

/-! ### What a step leaves alone -/

/-- The code parameter registers hold what they held (10_state.md R11 to R14). -/
def SameCode (s t : State) : Prop :=
  t.k = s.k ∧ t.n = s.n ∧ t.grows = s.grows ∧ t.gcols = s.gcols ∧ t.grow = s.grow

/-- Every entry of `TMEM` reads as it read. -/
def SameTable (s t : State) : Prop := ∀ a, t.tmem.read a = s.tmem.read a

/-- The result registers hold what they held (10_state.md R17 to R20). -/
def SameResults (s t : State) : Prop :=
  t.vout = s.vout ∧ t.synd = s.synd ∧ t.wgt = s.wgt ∧ t.tcnt = s.tcnt

/-- What only the host writes holds what it held: `VIN`, `IEN`, the parameter `NMAX`, and what the host
read last and does next. -/
def SameHost (s t : State) : Prop :=
  t.vin = s.vin ∧ t.ien = s.ien ∧ t.config = s.config ∧ t.rdata = s.rdata ∧ t.inputs = s.inputs

/-- `STATUS` after a completion with code `c` that changes no other field (44_control.md R121). -/
def Completed (s t : State) (c : Code) : Prop :=
  t.status = { s.status with busy := false, done := true, ecode := c }

/-- The command ends with code `c` and changes nothing but `BUSY`, `DONE` and `ECODE`
(60_exceptions.md R134). -/
def FailsWith (i : Instr) (s : State) (c : Code) : Prop :=
  ∃ t, exec i s = .next t ∧ Completed s t c ∧ SameCode s t ∧ t.prow = s.prow ∧ SameResults s t ∧
    SameTable s t ∧ SameHost s t

/-- Every register, and every field of `STATUS`, has its reset value, and `NMAX` is still that of `s`
(70_reset_and_hazards.md R151). The registers the spec gives no reset value are not named. -/
def ResetFrom (s t : State) : Prop :=
  t.status.word = 0 ∧ t.ien.word = 0 ∧ t.k = 0 ∧ t.n = 0 ∧ t.grows = 0 ∧ t.gcols = 0 ∧
    (∀ i, t.grow.row i = 0) ∧ (∀ i, t.prow.row i = 0) ∧ t.vin = 0 ∧ t.vout = 0 ∧ t.synd = 0 ∧
    t.wgt = 0 ∧ t.tcnt = 0 ∧ t.irq = false ∧ t.status.lifecycle = .empty ∧ t.config = s.config

/-! ### Good states -/

/-- The CodeParameters object of 10_state.md R30 is in the registers: legal dimensions, the declared
shape, no entry outside it, and `PROW` the transpose of `GROW`. -/
structure HoldsCode (s : State) : Prop where
  legal : s.paramsLegal = true
  rows_declared : s.grows = s.k
  cols_declared : s.gcols = s.n - s.k
  no_stray : ∀ i, i < s.kLen → IsVector s.rLen (s.grow.row i)
  parity : ∀ i j, i < 32 → j < 32 →
    (s.prow.row i).getLsbD j =
      (decide (i < s.rLen) && decide (j < s.kLen) && (s.grow.row j).getLsbD i)

/-- The CosetLeaderTable of 10_state.md R32 is in `TMEM`: for every syndrome the least Hamming weight
among the vectors that have it. -/
structure HoldsTable (s : State) : Prop where
  seen : ∀ x, x < 2 ^ s.rLen → (s.tmem.read x).valid = true
  reached : ∀ x, x < 2 ^ s.rLen → ∃ v, IsVector s.nLen v ∧ (s.syndromeOf v).toNat = x ∧
    hammingWeight v = (s.tmem.read x).weight.toNat
  least : ∀ v, IsVector s.nLen v →
    (s.tmem.read (s.syndromeOf v).toNat).weight.toNat ≤ hammingWeight v

/-- The invariants of `STATUS` (10_state.md R21, R26). -/
structure StatusInv (s : State) : Prop where
  table_needs_code : s.status.tblv = true → s.status.cfgv = true
  fatal_needs_code : s.status.fatal = true → s.status.cfgv = true
  busy_is_fresh : s.status.busy = true → s.status.done = false ∧ s.status.ecode = .ok

/-- The invariant of the machine. -/
structure Inv (s : State) : Prop where
  status : StatusInv s
  /-- `TMEM` keeps its canonical form -/
  table_canonical : s.tmem.wf = true
  /-- `TMEM` lists only addresses of the table space (R25) -/
  table_inside : ∀ a, s.config.tableDepth ≤ a → s.tmem.read a = Entry.absent
  /-- a row that does not exist holds 0 (R41, R47) -/
  missing_rows : ∀ i, s.config.nmax ≤ i → s.grow.row i = 0 ∧ s.prow.row i = 0
  /-- `CFGV = 1`: a CodeParameters object exists (R30) -/
  code : s.status.cfgv = true → HoldsCode s
  /-- `CFGV = 0`: `PROW` and the result registers still hold their reset value (R15, R17 to R20) -/
  no_code : s.status.cfgv = false →
    (∀ i, s.prow.row i = 0) ∧ s.vout = 0 ∧ s.synd = 0 ∧ s.wgt = 0 ∧ s.tcnt = 0
  /-- `TBLV = 1`: the CosetLeaderTable exists, and `TCNT` counts its entries (R20, R32) -/
  table : s.status.tblv = true → HoldsTable s ∧ s.tcnt = BitVec.ofNat 32 (2 ^ s.rLen)
  /-- `VOUT` has no bit at or above `n`, `SYND` none at or above `r`, `WGT` none above bit 5 (R17 to R19) -/
  results : s.status.cfgv = true →
    IsVector s.nLen s.vout ∧ IsVector s.rLen s.synd ∧ IsVector 6 s.wgt

end Sys2Proof.Machine
end

