-- ==== Sys2Proof/Certificates/Slice0/Obligations.lean ====
section
/-! DEFINITION. The statements for the provers. Each docstring names the rule of spec/ it formalises. -/

open Sys2Proof Sys2Proof.Machine

/-! ## Encoding -/

/-- 30_encoding.md R61, R65: no bit of an encoding is dropped. -/
def Obligations.DecodeInvertsEncode : Prop := ∀ i : Instr, i.wf = true → decode (encode i) = .ok i

/-- 30_encoding.md R60 to R62, R65: what the decoder accepts is well-formed and has one encoding. -/
def Obligations.EncodeInvertsDecode : Prop :=
  ∀ (e : Encoded) (i : Instr), decode e = .ok i → i.wf = true ∧ encode i = e

/-- 30_encoding.md R62: the legal command words are the seven of the map, among all `2^32`. -/
def Obligations.CommandWordLegality : Prop :=
  ∀ w : Word, (∃ i, decodeCommand w = .ok i) ↔
    (w.extractLsb' 8 24 = 0#24 ∧
      ((w.extractLsb' 0 8).toNat = 0x01 ∨ (w.extractLsb' 0 8).toNat = 0x02 ∨
        (w.extractLsb' 0 8).toNat = 0x03 ∨ (w.extractLsb' 0 8).toNat = 0x05 ∨
        (w.extractLsb' 0 8).toNat = 0x06 ∨ (w.extractLsb' 0 8).toNat = 0x07 ∨
        (w.extractLsb' 0 8).toNat = 0x0F))

/-- 30_encoding.md R61, R62, R65, 44_control.md R125: the seven command words, the three records of R65's
example and three illegal words decode to what the spec says of them. -/
def Obligations.PublishedWordsDecode : Prop :=
  decodeTableWord 32 0x00000001 = some .cfg ∧ decodeTableWord 32 0x00000002 = some .build ∧
    decodeTableWord 32 0x00000003 = some .enc ∧ decodeTableWord 32 0x00000005 = some .dec ∧
    decodeTableWord 32 0x00000006 = some .syn ∧ decodeTableWord 32 0x00000007 = some .ldw ∧
    decodeTableWord 32 0x0000000F = some .rst ∧
    decodeCommand 0x00000004 = .error .opcodeReserved ∧
    decodeCommand 0x00000000 = .error .opcodeUndefined ∧
    decodeCommand 0x00000101 = .error .zeroFieldNotZero ∧
    decodeTableWord 40 0x8800000003 = some (.wr 8 3) ∧
    decodeTableWord 40 0x0300000000 = some (.rd 3) ∧
    decodeTableWord 40 0x8200000001 = some (.wr 2 1)

/-- 30_encoding.md R66, R67: the record of `wr` and `rd` decodes to the transaction the statement means,
for every register that exists; each command statement is the record R66 prints, a write to `CMD` of the
word that decodes to its command; the pseudo-instructions have the expansions of R67, and a turn of `wait`
is a read of `STATUS`, after which the host goes on exactly if the value read has `BUSY = 0`. When the
polls that find `BUSY = 1` are done the engine completes (the timing, assumption log entry 4).
00_scope.md R7: a vector literal has position `i` in bit `i`. Operands the two rules give no meaning to
(entry 16) are not named. -/
def Obligations.StatementsMeanTheirTransactions : Prop :=
  -- `wr` and `rd`
  (∀ (c : Config) (a : Nat) (q : Reg), Reg.ofIndex c.nmax a = some q →
    (∀ d, (Statement.wr q d).inputs = [.txn (wrRecord q d)] ∧
      decodeRecord (wrRecord q d) = .ok (.wr a d)) ∧
    (Statement.rd q).inputs = [.txn (rdRecord q)] ∧ decodeRecord (rdRecord q) = .ok (.rd a)) ∧
  (∀ (v : List Bool) (i : Nat), v.length ≤ 32 → (packVector v).getLsbD i = v.getD i false) ∧
  -- the command statements
  ((Statement.cmd .cfg).inputs = [.txn 0x8200000001] ∧ decodeCommand Command.cfg.word = .ok .cfg) ∧
  ((Statement.cmd .build).inputs = [.txn 0x8200000002] ∧
    decodeCommand Command.build.word = .ok .build) ∧
  ((Statement.cmd .enc).inputs = [.txn 0x8200000003] ∧ decodeCommand Command.enc.word = .ok .enc) ∧
  ((Statement.cmd .dec).inputs = [.txn 0x8200000005] ∧ decodeCommand Command.dec.word = .ok .dec) ∧
  ((Statement.cmd .syn).inputs = [.txn 0x8200000006] ∧ decodeCommand Command.syn.word = .ok .syn) ∧
  ((Statement.cmd .ldw).inputs = [.txn 0x8200000007] ∧ decodeCommand Command.ldw.word = .ok .ldw) ∧
  ((Statement.cmd .rst).inputs = [.txn 0x820000000F] ∧ decodeCommand Command.rst.word = .ok .rst) ∧
  (∀ c : Command, ∃ r, (Statement.cmd c).inputs = [.txn r] ∧ decodeRecord r = .ok (.wr 2 c.word)) ∧
  -- `clr`, `ldg`, `code`, `run`
  (∀ d : Word, ∃ r, (Statement.clr d).inputs = [.txn r] ∧ decodeRecord r = .ok (.wr 3 d)) ∧
  (∀ (i : Nat) (d : Word), i < 32 →
    ∃ r, (Statement.ldg i d).inputs = [.txn r] ∧ decodeRecord r = .ok (.wr (64 + i) d)) ∧
  (∀ k n : Nat, k ≤ n → n < 2 ^ 32 →
    ∃ r1 r2 r3 r4, (Statement.code k n).inputs = [.txn r1, .txn r2, .txn r3, .txn r4] ∧
      decodeRecord r1 = .ok (.wr 8 (BitVec.ofNat 32 k)) ∧
      decodeRecord r2 = .ok (.wr 9 (BitVec.ofNat 32 n)) ∧
      decodeRecord r3 = .ok (.wr 10 (BitVec.ofNat 32 k)) ∧
      decodeRecord r4 = .ok (.wr 11 (BitVec.ofNat 32 (n - k)))) ∧
  (∀ (c : Command) (m : Nat),
    (Statement.run c m).inputs = (Statement.cmd c).inputs ++ (Statement.wait m).inputs) ∧
  -- `wait`
  (∀ (s : State) (m : Nat) (rest : List Input), s.inputs = (Statement.wait m).inputs ++ rest →
    (s.status.busy = true → m = 0 → step s = engineTurn s) ∧
    (s.status.busy = false ∨ m ≠ 0 →
      ∃ t, step s = .next t ∧ exec (.rd 3) { s with inputs := t.inputs } = .next t ∧
        (t.rdata.getLsbD 0 = false → t.inputs = rest) ∧
        (t.rdata.getLsbD 0 = true → t.inputs = (Statement.wait (m - 1)).inputs ++ rest)))

/-! ## The step -/

/-- 20_memory.md R42, R43, 30_encoding.md R65: a step performs the transaction the next record decodes
to, in the state whose remaining inputs follow that record. -/
def Obligations.StepPerformsDecodedTransaction : Prop :=
  ∀ (s : State) (t : Record) (rest : List Input) (i : Instr),
    s.inputs = .txn t :: rest → decodeRecord t = .ok i → step s = exec i { s with inputs := rest }

/-- 44_control.md R121: the engine's step is `Exec(PEND)`, whether it is the next input, the host waits for
it, or nothing else is left to do. -/
def Obligations.StepCompletesDecodedCommand : Prop :=
  ∀ (s : State) (i : Instr), s.status.busy = true → decodeCommand s.pend = .ok i →
    (s.inputs = [] → step s = exec i s) ∧
    (∀ rest, s.inputs = .wait 0 :: rest → step s = exec i s) ∧
    (∀ rest, s.inputs = .engine :: rest → step s = exec i { s with inputs := rest })

/-- 44_control.md R125 (and R122 case 1): a word that is not one of the seven completes with `E_ILLCMD`
and no other effect, in lifecycle FATAL too. -/
def Obligations.IllegalWordOnlyReports : Prop :=
  ∀ (s : State) (rest : List Input), s.inputs = .engine :: rest → s.status.busy = true →
    s.pend ≠ 0x01 → s.pend ≠ 0x02 → s.pend ≠ 0x03 → s.pend ≠ 0x05 → s.pend ≠ 0x06 →
    s.pend ≠ 0x07 → s.pend ≠ 0x0F →
    ∃ t, step s = .next t ∧ Code.eIllcmd.byte = 0x41 ∧
      Completed { s with inputs := rest } t .eIllcmd ∧ SameCode s t ∧ t.prow = s.prow ∧
      SameResults s t ∧ SameTable s t ∧ SameHost { s with inputs := rest } t

/-- 60_exceptions.md R141: an idle engine waits and all state survives. -/
def Obligations.IdleEngineWaits : Prop :=
  ∀ s : State, s.status.busy = false →
    (s.inputs = [] → step s = .next s) ∧
    (∀ rest, s.inputs = .engine :: rest → step s = .next { s with inputs := rest })

/-- 44_control.md R126: a command in flight completes once the engine has its turn, however many other
inputs come first, and a host that only polls `STATUS` sees `BUSY = 0`: `wait` (30_encoding.md R67) ends
with the read that does, whatever the timing. Premise: the machine's invariant. -/
def Obligations.IssuedCommandCompletes : Prop :=
  ∀ s : State, Inv s → s.status.busy = true →
    (∃ j t, j ≤ turnsOf s.inputs + 1 ∧ core.run j s = .next t ∧ t.status.busy = false) ∧
    (∀ (m : Nat) (rest : List Input), s.inputs = .wait m :: rest →
      ∃ t, core.run (m + 2) s = .next t ∧ t.inputs = rest ∧ t.status.busy = false ∧
        t.rdata = t.status.word ∧ t.rdata.getLsbD 0 = false)

/-! ## Reset -/

/-- 70_reset_and_hazards.md R151: the values after reset. -/
def Obligations.ResetStateValues : Prop :=
  ResetFrom State.reset State.reset ∧ State.reset.readReg .id = 0x47463201 ∧
    State.reset.readReg .cap = 0x00000614 ∧ State.reset.status.busy = false

/-- 44_control.md R124: `RST`, in every lifecycle state; the same effect as the `rst` pin; while a command
runs its `CMD` write is dropped with `OVR`. -/
def Obligations.RstCommandResets : Prop :=
  encode .rst = .command 0x0000000F ∧
  (∀ s : State, ∃ t, exec .rst s = .next t ∧ ResetFrom s t ∧ t.inputs = s.inputs ∧
    t.rdata = s.rdata) ∧
  (∀ (s : State) (rest : List Input), s.inputs = .rstPin :: rest →
    step s = exec .rst { s with inputs := rest }) ∧
  (∀ s : State, s.status.busy = true → exec (.wr 2 0x0000000F) s =
    .next { s with status := { s.status with ovr := true } })

/-- 70_reset_and_hazards.md R150, R152: the `rst` pin abandons a running command, and none of its writes
commit. -/
def Obligations.PinAbandonsCommand : Prop :=
  ∀ (s : State) (rest : List Input), s.inputs = .rstPin :: rest →
    ∃ t, step s = .next t ∧ ResetFrom s t ∧ t.inputs = rest ∧ t.rdata = s.rdata

/-! ## Host transactions -/

/-- 20_memory.md R42: `HostRead`, by word index. -/
def Obligations.HostReadReturnsRegister : Prop :=
  ∀ (s : State) (a : Nat), a < 128 →
    (a = 0 → exec (.rd a) s = .next { s with rdata := 0x47463201 }) ∧
    (a = 1 → exec (.rd a) s = .next { s with rdata := BitVec.ofNat 32 (s.config.nmax + 6 * 256) }) ∧
    (a = 2 → exec (.rd a) s = .next { s with rdata := 0 }) ∧
    (a = 3 → exec (.rd a) s = .next { s with rdata := s.status.word }) ∧
    (a = 4 → exec (.rd a) s = .next { s with rdata := s.ien.word }) ∧
    (a = 8 → exec (.rd a) s = .next { s with rdata := s.k }) ∧
    (a = 9 → exec (.rd a) s = .next { s with rdata := s.n }) ∧
    (a = 10 → exec (.rd a) s = .next { s with rdata := s.grows }) ∧
    (a = 11 → exec (.rd a) s = .next { s with rdata := s.gcols }) ∧
    (a = 16 → exec (.rd a) s = .next { s with rdata := s.vin }) ∧
    (a = 17 → exec (.rd a) s = .next { s with rdata := s.vout }) ∧
    (a = 18 → exec (.rd a) s = .next { s with rdata := s.synd }) ∧
    (a = 19 → exec (.rd a) s = .next { s with rdata := s.wgt }) ∧
    (a = 20 → exec (.rd a) s = .next { s with rdata := s.tcnt }) ∧
    (∀ i : Fin 32, i.val < s.config.nmax → a = 64 + i.val →
      exec (.rd a) s = .next { s with rdata := s.grow[i.val] }) ∧
    (∀ i : Fin 32, i.val < s.config.nmax → a = 96 + i.val →
      exec (.rd a) s = .next { s with rdata := s.prow[i.val] }) ∧
    ((4 < a ∧ a < 8) ∨ (11 < a ∧ a < 16) ∨ (20 < a ∧ a < 64) ∨ (64 + s.config.nmax ≤ a ∧ a < 96) ∨
        96 + s.config.nmax ≤ a →
      exec (.rd a) s = .next { s with rdata := 0, status := { s.status with badacc := true } })

/-- 20_memory.md R43: `HostWrite`, the eight cases in order. -/
def Obligations.HostWriteCases : Prop :=
  ∀ (s : State) (a : Nat) (d : Word), a < 128 →
    -- 1. unmapped
    ((4 < a ∧ a < 8) ∨ (11 < a ∧ a < 16) ∨ (20 < a ∧ a < 64) ∨ (64 + s.config.nmax ≤ a ∧ a < 96) ∨
        96 + s.config.nmax ≤ a →
      exec (.wr a d) s = .next { s with status := { s.status with badacc := true } }) ∧
    -- 2. read-only
    (a = 0 ∨ a = 1 ∨ (17 ≤ a ∧ a ≤ 20) ∨ (96 ≤ a ∧ a < 96 + s.config.nmax) →
      exec (.wr a d) s = .next { s with status := { s.status with badacc := true } }) ∧
    -- 3. STATUS
    (a = 3 → exec (.wr a d) s = .next { s with
        status := { s.status with
          done := s.status.done && !d.getLsbD 1
          ovr := s.status.ovr && !d.getLsbD 16
          wlock := s.status.wlock && !d.getLsbD 17
          badacc := s.status.badacc && !d.getLsbD 18 } }) ∧
    -- 4. IEN
    (a = 4 → exec (.wr a d) s = .next { s with
        ien := { ieDone := d.getLsbD 0, ieFatal := d.getLsbD 1 } }) ∧
    -- 5. busy
    (s.status.busy = true →
      a = 2 ∨ a = 16 ∨ (8 ≤ a ∧ a ≤ 11) ∨ (64 ≤ a ∧ a < 64 + s.config.nmax) →
      exec (.wr a d) s = .next { s with status := { s.status with ovr := true } }) ∧
    -- 6. locked
    (s.status.busy = false → s.status.cfgv = true →
      (8 ≤ a ∧ a ≤ 11) ∨ (64 ≤ a ∧ a < 64 + s.config.nmax) →
      exec (.wr a d) s = .next { s with status := { s.status with wlock := true } }) ∧
    -- 7. CMD
    (s.status.busy = false → a = 2 → exec (.wr a d) s = .next { s with
        pend := d
        status := { s.status with busy := true, done := false, ecode := .ok } }) ∧
    -- 8. the register takes all 32 bits
    (s.status.busy = false → a = 16 → exec (.wr a d) s = .next { s with vin := d }) ∧
    (s.status.busy = false → s.status.cfgv = false →
      (a = 8 → exec (.wr a d) s = .next { s with k := d }) ∧
      (a = 9 → exec (.wr a d) s = .next { s with n := d }) ∧
      (a = 10 → exec (.wr a d) s = .next { s with grows := d }) ∧
      (a = 11 → exec (.wr a d) s = .next { s with gcols := d }) ∧
      (∀ i : Fin 32, i.val < s.config.nmax → a = 64 + i.val →
        exec (.wr a d) s = .next { s with grow := s.grow.set i.val d }))

/-- 44_control.md R120: issue, and a `CMD` write while busy. -/
def Obligations.CommandIssue : Prop :=
  ∀ (s : State) (w : Word), ∃ t, exec (.wr 2 w) s = .next t ∧
    (s.status.busy = false →
      t.pend = w ∧ t.status = { s.status with busy := true, done := false, ecode := .ok } ∧
        Code.ok.byte = 0x00 ∧ SameCode s t ∧ t.prow = s.prow ∧ SameResults s t ∧ SameTable s t ∧
        SameHost s t) ∧
    (s.status.busy = true →
      t.pend = s.pend ∧ t.status = { s.status with ovr := true } ∧ SameCode s t ∧
        t.prow = s.prow ∧ SameResults s t ∧ SameTable s t ∧ SameHost s t)

/-- The model's choice (assumption log entry 7), on 20_memory.md R40: the register space has 128 words,
so a word index of 128 or more is no transaction. -/
def Obligations.OutsideRegisterSpaceStops : Prop :=
  ∀ (s : State) (a : Nat) (d : Word), 128 ≤ a →
    exec (.wr a d) s = .fault .wordIndexOutside ∧ exec (.rd a) s = .fault .wordIndexOutside

/-- 20_memory.md R42, R48 (d): while a command runs, no transaction changes or shows anything of it.
Changes: every register but `STATUS` and `IEN` reads after it as it read before, and the command's own
state stays. Shows: whichever command is in flight, and whatever its working registers and `TMEM` hold, the
transaction ends alike, the word read included. A read of `STATUS` shows `BUSY = 1`, `DONE = 0`,
`ECODE = 0x00`. -/
def Obligations.BusyIntervalIsOpaque : Prop :=
  ∀ (s t : State) (i : Instr) (a : Nat) (d : Word), s.status.busy = true →
    i = .wr a d ∨ i = .rd a → exec i s = .next t →
    (SameCode s t ∧ t.prow = s.prow ∧ t.vin = s.vin ∧ SameResults s t ∧ SameTable s t ∧
      t.pend = s.pend ∧ t.config = s.config ∧ t.inputs = s.inputs ∧ t.decWork = s.decWork ∧
      t.buildWork = s.buildWork ∧ t.status.busy = true ∧ t.status.ecode = s.status.ecode ∧
      t.status.cfgv = s.status.cfgv ∧ t.status.tblv = s.status.tblv ∧
      t.status.fatal = s.status.fatal) ∧
    (∀ q : Reg, q ≠ .status → q ≠ .ien → t.readReg q = s.readReg q) ∧
    (∀ (p : Word) (m : TMem) (w : DecWork) (b : BuildWork),
      exec i { s with pend := p, tmem := m, decWork := w, buildWork := b } =
        .next { t with pend := p, tmem := m, decWork := w, buildWork := b }) ∧
    (StatusInv s → i = .rd 3 →
      t.rdata.getLsbD 0 = true ∧ t.rdata.getLsbD 1 = false ∧ t.rdata.extractLsb' 8 8 = 0x00#8)

/-- 20_memory.md R48 (b), 44_control.md R121: whatever the host does while a command runs, the command
ends as it would have ended without it: same code, same results, same lifecycle. -/
def Obligations.TransactionsDoNotDisturbCommand : Prop :=
  ∀ (s u t : State) (i : Instr) (r : Record), s.status.busy = true → decodeCommand s.pend = .ok i →
    exec (decodeBus r) s = .next u → exec i s = .next t →
    ∃ t', exec i u = .next t' ∧ SameCode t t' ∧ t'.prow = t.prow ∧ t'.vin = t.vin ∧
      SameResults t t' ∧ SameTable t t' ∧ t'.status.busy = t.status.busy ∧
      t'.status.ecode = t.status.ecode ∧ t'.status.done = t.status.done ∧
      t'.status.lifecycle = t.status.lifecycle

/-! ## Status, interrupt, codes -/

/-- 10_state.md R21 to R23: the layouts of `STATUS`, `IEN` and `CAP`, reserved bits 0. -/
def Obligations.StatusRegisterLayouts : Prop :=
  (∀ st : Status,
    st.word.getLsbD 0 = st.busy ∧ st.word.getLsbD 1 = st.done ∧ st.word.getLsbD 2 = st.cfgv ∧
      st.word.getLsbD 3 = st.tblv ∧ st.word.getLsbD 4 = st.fatal ∧
      st.word.extractLsb' 5 3 = 0#3 ∧ st.word.extractLsb' 8 8 = st.ecode.byte ∧
      st.word.getLsbD 16 = st.ovr ∧ st.word.getLsbD 17 = st.wlock ∧ st.word.getLsbD 18 = st.badacc ∧
      st.word.extractLsb' 19 13 = 0#13) ∧
  (∀ e : IntEnable, e.word.getLsbD 0 = e.ieDone ∧ e.word.getLsbD 1 = e.ieFatal ∧
    e.word.extractLsb' 2 30 = 0#30) ∧
  (∀ c : Config, ((capWord c).extractLsb' 0 6).toNat = c.nmax ∧
    (capWord c).extractLsb' 6 2 = 0#2 ∧ (capWord c).extractLsb' 8 6 = 6#6 ∧
    (capWord c).extractLsb' 14 18 = 0#18)

/-- 60_exceptions.md R131: the bytes, their classes in the high nibble, and the fatal ones. -/
def Obligations.CompletionCodeBytes : Prop :=
  Code.ok.byte = 0x00 ∧ Code.eK.byte = 0x11 ∧ Code.eN.byte = 0x12 ∧ Code.eNmax.byte = 0x13 ∧
    Code.eShape.byte = 0x14 ∧ Code.eRank.byte = 0x15 ∧ Code.eVlen.byte = 0x21 ∧
    Code.eMiss.byte = 0x31 ∧ Code.eNoconv.byte = 0x32 ∧ Code.eIllcmd.byte = 0x41 ∧
    Code.eSeq.byte = 0x42 ∧ Code.eFatal.byte = 0x43 ∧
    (∀ c : Code, c.isFatal = true ↔ c = .eRank ∨ c = .eMiss ∨ c = .eNoconv)

/-- 10_state.md R33, on the registers as the host reads them; after reset it is 0. -/
def Obligations.InterruptLine : Prop :=
  (∀ s : State, s.irq =
    ((s.ien.word.getLsbD 0 && s.status.word.getLsbD 1) ||
      (s.ien.word.getLsbD 1 && s.status.word.getLsbD 4))) ∧
  State.reset.irq = false

/-- 60_exceptions.md R138: every command but `RST` raises the `DONE` source at its completion, whatever
its code. -/
def Obligations.CompletionRaisesInterrupt : Prop :=
  ∀ (i : Instr) (s t : State), exec i s = .next t →
    (i = .cfg ∨ i = .build ∨ i = .enc ∨ i = .dec ∨ i = .syn ∨ i = .ldw →
      t.status.done = true ∧ t.ien = s.ien ∧ (s.ien.ieDone = true → t.irq = true)) ∧
    (i = .rst → t.irq = false)

/-! ## Dispatch and errors -/

/-- 44_control.md R123: the lifecycle gate, command by command; in lifecycle FATAL `E_FATAL` comes before
it. A command the gate passes does not end with `E_SEQ`, and `RST` passes in every state. -/
def Obligations.LifecycleGate : Prop :=
  ∀ (i : Instr) (s : State),
    (s.status.fatal = true →
      i = .cfg ∨ i = .build ∨ i = .enc ∨ i = .dec ∨ i = .syn ∨ i = .ldw → FailsWith i s .eFatal) ∧
    (s.status.fatal = false →
      (i = .cfg → s.status.cfgv = true → FailsWith i s .eSeq) ∧
      (i = .build → s.status.cfgv = false ∨ s.status.tblv = true → FailsWith i s .eSeq) ∧
      (i = .enc ∨ i = .syn → s.status.cfgv = false → FailsWith i s .eSeq) ∧
      (i = .dec ∨ i = .ldw → s.status.tblv = false → FailsWith i s .eSeq) ∧
      (∀ t, exec i s = .next t →
        (i = .cfg ∧ s.status.cfgv = false) ∨
          (i = .build ∧ s.status.cfgv = true ∧ s.status.tblv = false) ∨
          ((i = .enc ∨ i = .syn) ∧ s.status.cfgv = true) ∨
          ((i = .dec ∨ i = .ldw) ∧ s.status.tblv = true) →
        t.status.ecode ≠ .eSeq)) ∧
    (i = .rst → ∃ t, exec i s = .next t ∧ ResetFrom s t)

/-- The model's choice (assumption log entry 8), on 10_state.md R11, R30: past its gate a command that
needs a CodeParameters object stops where the registers hold none. -/
def Obligations.IllegalParametersStop : Prop :=
  ∀ s : State, s.status.fatal = false → s.paramsLegal = false →
    (s.status.cfgv = true → exec .enc s = .fault .codeParametersIllegal ∧
      exec .syn s = .fault .codeParametersIllegal) ∧
    (s.status.cfgv = true → s.status.tblv = false →
      exec .build s = .fault .codeParametersIllegal) ∧
    (s.status.tblv = true → exec .dec s = .fault .codeParametersIllegal ∧
      exec .ldw s = .fault .codeParametersIllegal)

/-- 60_exceptions.md R132: which command can end with which code. -/
def Obligations.PossibleCodes : Prop :=
  ∀ s t : State,
    (exec .cfg s = .next t → t.status.ecode ∈
      [Code.ok, .eK, .eN, .eNmax, .eShape, .eSeq, .eFatal]) ∧
    (exec .build s = .next t → t.status.ecode ∈ [Code.ok, .eRank, .eSeq, .eFatal]) ∧
    (exec .enc s = .next t → t.status.ecode ∈ [Code.ok, .eVlen, .eSeq, .eFatal]) ∧
    (exec .syn s = .next t → t.status.ecode ∈ [Code.ok, .eVlen, .eSeq, .eFatal]) ∧
    (exec .dec s = .next t → t.status.ecode ∈
      [Code.ok, .eVlen, .eMiss, .eNoconv, .eSeq, .eFatal]) ∧
    (exec .ldw s = .next t → t.status.ecode ∈ [Code.ok, .eVlen, .eMiss, .eSeq, .eFatal]) ∧
    (exec .rst s = .next t → t.status.ecode = .ok ∧ t.status.done = false)

/-- 60_exceptions.md R134: a command that ends with a non-fatal code, or an illegal word, changes `BUSY`,
`DONE`, `ECODE` and nothing else. -/
def Obligations.NonFatalErrorIsPrecise : Prop :=
  (∀ (i : Instr) (s t : State),
    i = .cfg ∨ i = .build ∨ i = .enc ∨ i = .dec ∨ i = .syn ∨ i = .ldw → exec i s = .next t →
    t.status.ecode ∈ [Code.eK, .eN, .eNmax, .eShape, .eVlen, .eIllcmd, .eSeq, .eFatal] →
    Completed s t t.status.ecode ∧ SameCode s t ∧ t.prow = s.prow ∧ SameResults s t ∧
      SameTable s t ∧ SameHost s t) ∧
  (∀ (s : State) (e : DecodeError), decodeCommand s.pend = .error e →
    ∃ t, completePending s = .next t ∧ Completed s t .eIllcmd ∧ SameCode s t ∧ t.prow = s.prow ∧
      SameResults s t ∧ SameTable s t ∧ SameHost s t)

/-- 60_exceptions.md R135: the entry of a fatal error. -/
def Obligations.FatalErrorEntry : Prop :=
  ∀ (i : Instr) (s t : State),
    i = .cfg ∨ i = .build ∨ i = .enc ∨ i = .dec ∨ i = .syn ∨ i = .ldw → exec i s = .next t →
    t.status.ecode ∈ [Code.eRank, .eMiss, .eNoconv] →
    t.status = { s.status with busy := false, done := true, fatal := true, ecode := t.status.ecode } ∧
      SameCode s t ∧ t.prow = s.prow ∧ t.vout = s.vout ∧ t.synd = s.synd ∧ t.wgt = s.wgt ∧
      SameHost s t ∧
      (t.status.ecode ≠ .eRank → t.tcnt = s.tcnt ∧ SameTable s t) ∧
      (t.status.ecode = .eRank → ∀ a, 2 ^ s.rLen ≤ a → t.tmem.read a = s.tmem.read a)

/-- 60_exceptions.md R135, R136: only reset leaves lifecycle FATAL. -/
def Obligations.OnlyResetLeavesFatal : Prop :=
  ∀ s t : State, s.status.fatal = true → step s = .next t →
    t.status.fatal = true ∨ ResetFrom s t

/-! ## The commands -/

/-- 41_code_parameters.md R90: `CFG`. -/
def Obligations.CfgConstructsCode : Prop :=
  encode .cfg = .command 0x00000001 ∧
  ∀ s : State, s.status.fatal = false →
    (s.status.cfgv = true → FailsWith .cfg s .eSeq) ∧
    (s.status.cfgv = false →
      (s.k.toInt ≤ 0 → FailsWith .cfg s .eK) ∧
      (0 < s.k.toInt → s.n.toInt < s.k.toInt → FailsWith .cfg s .eN) ∧
      (0 < s.k.toInt → s.k.toInt ≤ s.n.toInt → s.config.nmax < s.n.toInt →
        FailsWith .cfg s .eNmax) ∧
      (0 < s.k.toInt → s.k.toInt ≤ s.n.toInt → s.n.toInt ≤ s.config.nmax →
        (s.grows ≠ s.k ∨ s.gcols ≠ s.n - s.k ∨
            (∃ i j, i < s.kLen ∧ s.rLen ≤ j ∧ (s.grow.row i).getLsbD j = true) →
          FailsWith .cfg s .eShape) ∧
        (s.grows = s.k → s.gcols = s.n - s.k →
          (∀ i j, i < s.kLen → s.rLen ≤ j → (s.grow.row i).getLsbD j = false) →
          ∃ t, exec .cfg s = .next t ∧
            t.status = { s.status with busy := false, done := true, ecode := .ok, cfgv := true } ∧
            (∀ i j, i < s.config.nmax → j < 32 → (t.prow.row i).getLsbD j =
              (decide (i < s.rLen) && decide (j < s.kLen) && (s.grow.row j).getLsbD i)) ∧
            (∀ i, s.config.nmax ≤ i → t.prow.row i = s.prow.row i) ∧
            SameCode s t ∧ SameResults s t ∧ SameTable s t ∧ SameHost s t)))

/-- 41_code_parameters.md R91: `SYN`. -/
def Obligations.SynWritesSyndrome : Prop :=
  encode .syn = .command 0x00000006 ∧
  ∀ s : State, s.status.fatal = false →
    (s.status.cfgv = false → FailsWith .syn s .eSeq) ∧
    (s.status.cfgv = true → s.paramsLegal = true →
      (¬ IsVector s.nLen s.vin → FailsWith .syn s .eVlen) ∧
      (IsVector s.nLen s.vin → ∃ t, exec .syn s = .next t ∧ Completed s t .ok ∧
        (∀ i, i < s.rLen → t.synd.getLsbD i =
          (parity (s.prow.row i &&& s.vin &&& mask s.kLen) ^^ s.vin.getLsbD (s.kLen + i))) ∧
        (∀ i, s.rLen ≤ i → t.synd.getLsbD i = false) ∧
        t.vout = s.vout ∧ t.wgt = s.wgt ∧ t.tcnt = s.tcnt ∧ SameCode s t ∧ t.prow = s.prow ∧
        SameTable s t ∧ SameHost s t))

/-- 42_coset_leader_table.md R100, R103, 10_state.md R32: `BUILD` on a CodeParameters object publishes
the complete table of leader weights in one step, and writes no entry outside `0 .. 2^r - 1`. -/
def Obligations.BuildPublishesLeaderWeights : Prop :=
  ∀ s : State, s.status.fatal = false → s.status.cfgv = true → s.status.tblv = false →
    HoldsCode s →
    ∃ t, exec .build s = .next t ∧
      t.status = { s.status with busy := false, done := true, ecode := .ok, tblv := true } ∧
      t.tcnt.toNat = 2 ^ s.rLen ∧ HoldsTable t ∧
      (∀ a, 2 ^ s.rLen ≤ a → t.tmem.read a = s.tmem.read a) ∧
      SameCode s t ∧ t.prow = s.prow ∧ t.vout = s.vout ∧ t.synd = s.synd ∧ t.wgt = s.wgt ∧
      SameHost s t

/-- 42_coset_leader_table.md R100: `BUILD` publishes what the enumeration found, and phase 4 for
whatever table and count it is given: `E_RANK` unless the count is `2^r`. (R105 item 3: the enumeration
never gives another count, so the second case is dead; the spec keeps it, 60_exceptions.md R132.) -/
def Obligations.BuildChecksCompleteness : Prop :=
  ∀ s : State, s.status.fatal = false → s.paramsLegal = true →
    (s.status.cfgv = true → s.status.tblv = false →
      exec .build s = .next (s.releaseBuild.publish s.enumerate.1 s.enumerate.2)) ∧
    (∀ (m : TMem) (cnt : Word),
      (s.publish m cnt).tcnt = cnt ∧ (s.publish m cnt).tmem = m ∧
      (cnt.toNat = 2 ^ s.rLen → (s.publish m cnt).status =
        { s.status with busy := false, done := true, ecode := .ok, tblv := true }) ∧
      (cnt.toNat ≠ 2 ^ s.rLen → (s.publish m cnt).status =
        { s.status with busy := false, done := true, ecode := .eRank, fatal := true }) ∧
      SameCode s (s.publish m cnt) ∧ (s.publish m cnt).prow = s.prow ∧
      (s.publish m cnt).vout = s.vout ∧ (s.publish m cnt).synd = s.synd ∧
      (s.publish m cnt).wgt = s.wgt ∧ SameHost s (s.publish m cnt))

/-- 42_coset_leader_table.md R104: `LDW`; with the complete table the zero syndrome's weight is 0. -/
def Obligations.LdwReadsLeaderWeight : Prop :=
  encode .ldw = .command 0x00000007 ∧
  ∀ s : State, s.status.fatal = false →
    (s.status.tblv = false → FailsWith .ldw s .eSeq) ∧
    (s.status.tblv = true → s.paramsLegal = true →
      (¬ IsVector s.rLen s.vin → FailsWith .ldw s .eVlen) ∧
      (IsVector s.rLen s.vin → (s.tmem.read s.vin.toNat).valid = false →
        ∃ t, exec .ldw s = .next t ∧
          t.status = { s.status with busy := false, done := true, ecode := .eMiss, fatal := true } ∧
          SameCode s t ∧ t.prow = s.prow ∧ SameResults s t ∧ SameTable s t ∧ SameHost s t) ∧
      (IsVector s.rLen s.vin → (s.tmem.read s.vin.toNat).valid = true →
        ∃ t, exec .ldw s = .next t ∧ Completed s t .ok ∧
          t.wgt.toNat = (s.tmem.read s.vin.toNat).weight.toNat ∧
          t.vout = s.vout ∧ t.synd = s.synd ∧ t.tcnt = s.tcnt ∧ SameCode s t ∧ t.prow = s.prow ∧
          SameTable s t ∧ SameHost s t) ∧
      (HoldsCode s → HoldsTable s → s.vin = 0 →
        ∃ t, exec .ldw s = .next t ∧ Completed s t .ok ∧ t.wgt = 0))

/-- 43_codec.md R110: `ENC`, symbol by symbol; what it writes is a codeword. -/
def Obligations.EncWritesCodeword : Prop :=
  encode .enc = .command 0x00000003 ∧
  ∀ s : State, s.status.fatal = false →
    (s.status.cfgv = false → FailsWith .enc s .eSeq) ∧
    (s.status.cfgv = true → s.paramsLegal = true →
      (¬ IsVector s.kLen s.vin → FailsWith .enc s .eVlen) ∧
      (IsVector s.kLen s.vin → ∃ t, exec .enc s = .next t ∧ Completed s t .ok ∧
        (∀ i, i < s.kLen → t.vout.getLsbD i = s.vin.getLsbD i) ∧
        (∀ j, j < s.rLen → t.vout.getLsbD (s.kLen + j) =
          sumMod2 s.kLen fun i => s.vin.getLsbD i && (s.grow.row i).getLsbD j) ∧
        (∀ i, s.nLen ≤ i → t.vout.getLsbD i = false) ∧
        (HoldsCode s → s.syndromeOf t.vout = 0) ∧
        t.synd = s.synd ∧ t.wgt = s.wgt ∧ t.tcnt = s.tcnt ∧ SameCode s t ∧ t.prow = s.prow ∧
        SameTable s t ∧ SameHost s t))

/-- 43_codec.md R111: what `DEC` writes, whatever `TMEM` holds: the corrected vector on `OK`, nothing
but `STATUS` otherwise. -/
def Obligations.DecWritesOnlyItsResult : Prop :=
  ∀ s t : State, s.status.fatal = false → s.status.tblv = true → exec .dec s = .next t →
    (¬ IsVector s.nLen s.vin → FailsWith .dec s .eVlen) ∧
    (IsVector s.nLen s.vin →
      (t.status = { s.status with busy := false, done := true, ecode := .ok } ∨
        (t.status = { s.status with busy := false, done := true, ecode := .eMiss, fatal := true } ∧
          t.vout = s.vout) ∨
        (t.status = { s.status with busy := false, done := true, ecode := .eNoconv, fatal := true } ∧
          t.vout = s.vout))) ∧
    t.synd = s.synd ∧ t.wgt = s.wgt ∧ t.tcnt = s.tcnt ∧ SameCode s t ∧ t.prow = s.prow ∧
    SameTable s t ∧ SameHost s t

/-- 43_codec.md R112 item 2: on `OK` the result has zero syndrome and no stray bit, whatever `TMEM`
holds. -/
def Obligations.DecReturnsCodeword : Prop :=
  ∀ s t : State, s.status.fatal = false → s.status.tblv = true → exec .dec s = .next t →
    t.status.ecode = .ok → s.syndromeOf t.vout = 0 ∧ IsVector s.nLen t.vout

/-- 43_codec.md R111 corner (a), R112 item 5: a codeword is returned unchanged, whatever `TMEM` holds. -/
def Obligations.DecKeepsCodewords : Prop :=
  ∀ s : State, s.status.fatal = false → s.status.tblv = true → s.paramsLegal = true →
    IsVector s.nLen s.vin → s.syndromeOf s.vin = 0 →
    ∃ t, exec .dec s = .next t ∧ Completed s t .ok ∧ t.vout = s.vin

/-- 43_codec.md R112 items 1 to 3: with the complete table `DEC` ends with `OK` and flips exactly as
many symbols as the leader weight of the received vector's syndrome. -/
def Obligations.DecCorrectsMinimumWeight : Prop :=
  ∀ s : State, s.status.fatal = false → s.status.tblv = true → HoldsCode s → HoldsTable s →
    IsVector s.nLen s.vin →
    ∃ t, exec .dec s = .next t ∧ Completed s t .ok ∧ s.syndromeOf t.vout = 0 ∧
      IsVector s.nLen t.vout ∧
      hammingWeight (t.vout ^^^ s.vin) = (s.tmem.read (s.syndromeOf s.vin).toNat).weight.toNat ∧
      t.synd = s.synd ∧ t.wgt = s.wgt ∧ t.tcnt = s.tcnt ∧ SameCode s t ∧ t.prow = s.prow ∧
      SameTable s t ∧ SameHost s t

/-- 43_codec.md R112 item 6: which leader `DEC` removes. Position `m` is flipped exactly when flipping
it lowers the leader weight of the vector the flips below `m` have left. -/
def Obligations.DecScansForward : Prop :=
  ∀ s t : State, s.status.fatal = false → s.status.tblv = true → HoldsCode s → HoldsTable s →
    IsVector s.nLen s.vin → exec .dec s = .next t →
    (∀ m, s.nLen ≤ m → (t.vout ^^^ s.vin).getLsbD m = false) ∧
    ∀ m w, m < s.nLen → w = s.vin ^^^ ((t.vout ^^^ s.vin) &&& mask m) →
      ((t.vout ^^^ s.vin).getLsbD m = true ↔
        (s.tmem.read (s.syndromeOf (flipBit w m)).toNat).weight.toNat <
          (s.tmem.read (s.syndromeOf w).toNat).weight.toNat)

/-- 43_codec.md R112 item 4: an error vector that is the unique leader of its coset is corrected. -/
def Obligations.DecCorrectsUniqueLeaders : Prop :=
  ∀ (s : State) (c e : Word), s.status.fatal = false → s.status.tblv = true → HoldsCode s →
    HoldsTable s → IsVector s.nLen c → IsVector s.nLen e → s.syndromeOf c = 0 →
    s.vin = c ^^^ e →
    (∀ e', IsVector s.nLen e' → s.syndromeOf e' = s.syndromeOf e →
      hammingWeight e' ≤ hammingWeight e → e' = e) →
    ∃ t, exec .dec s = .next t ∧ Completed s t .ok ∧ t.vout = c

/-! ## Whole-machine rules -/

/-- 10_state.md R15 to R20: which command writes each result register, and that no command writes the
registers the host writes. -/
def Obligations.WritersOfRegisters : Prop :=
  ∀ (i : Instr) (s t : State),
    i = .cfg ∨ i = .build ∨ i = .enc ∨ i = .dec ∨ i = .syn ∨ i = .ldw → exec i s = .next t →
    (t.prow ≠ s.prow → i = .cfg ∧ t.status.ecode = .ok) ∧
    (t.vout ≠ s.vout → (i = .enc ∨ i = .dec) ∧ t.status.ecode = .ok) ∧
    (t.synd ≠ s.synd → i = .syn ∧ t.status.ecode = .ok) ∧
    (t.wgt ≠ s.wgt → i = .ldw ∧ t.status.ecode = .ok) ∧
    (t.tcnt ≠ s.tcnt → i = .build ∧ (t.status.ecode = .ok ∨ t.status.ecode = .eRank)) ∧
    (t.tmem ≠ s.tmem → i = .build) ∧
    SameCode s t ∧ SameHost s t

/-- 10_state.md R30: once `CFGV = 1`, CodeParameters is constant until reset. -/
def Obligations.CodeParametersImmutable : Prop :=
  ∀ s t : State, s.status.cfgv = true → step s = .next t →
    (t.status.cfgv = true ∧ SameCode s t ∧ t.prow = s.prow) ∨ ResetFrom s t

/-- 20_memory.md R51, 10_state.md R32: once `TBLV = 1`, the table is constant until reset. -/
def Obligations.TableImmutable : Prop :=
  ∀ s t : State, s.status.tblv = true → step s = .next t →
    (t.status.tblv = true ∧ SameTable s t) ∨ ResetFrom s t

/-- 10_state.md R26: the transitions of the lifecycle state, and no others. Premise: the invariant of
`STATUS`. -/
def Obligations.LifecycleTransitions : Prop :=
  ∀ s t : State, StatusInv s → step s = .next t →
    t.status.lifecycle = s.status.lifecycle ∨
    (s.status.lifecycle = .empty ∧ t.status.lifecycle = .configured ∧
      decodeCommand s.pend = .ok .cfg ∧ t.status.ecode = .ok) ∨
    (s.status.lifecycle = .configured ∧ t.status.lifecycle = .ready ∧
      decodeCommand s.pend = .ok .build ∧ t.status.ecode = .ok) ∨
    (s.status.lifecycle = .configured ∧ t.status.lifecycle = .fatal ∧
      decodeCommand s.pend = .ok .build ∧ t.status.ecode = .eRank) ∨
    (s.status.lifecycle = .ready ∧ t.status.lifecycle = .fatal ∧
      (((decodeCommand s.pend = .ok .dec ∨ decodeCommand s.pend = .ok .ldw) ∧
          t.status.ecode = .eMiss) ∨
        (decodeCommand s.pend = .ok .dec ∧ t.status.ecode = .eNoconv))) ∨
    (t.status.lifecycle = .empty ∧ ResetFrom s t)

/-- 00_scope.md R6, 10_state.md R23: no step changes the implementation parameter. -/
def Obligations.ParameterIsConstant : Prop :=
  ∀ s t : State, step s = .next t → t.config = s.config ∧ capWord t.config = capWord s.config

/-! ## Invariants -/

/-- The invariant holds after reset (70_reset_and_hazards.md R151). -/
def Obligations.ResetMeetsInvariant : Prop := Inv State.reset

/-- 10_state.md R21: the invariants of `STATUS`, kept by every step from every state that meets them. -/
def Obligations.StepKeepsStatusInvariant : Prop :=
  ∀ s t : State, StatusInv s → step s = .next t → StatusInv t

/-- 10_state.md R17 to R21, R25, R30, R32: every step keeps the invariant of the machine. -/
def Obligations.StepKeepsInvariant : Prop := ∀ s t : State, Inv s → step s = .next t → Inv t

/-- 93_implementation_defined.md ("the command decoder, the bus and every command are total"): from a
good state every step is taken. -/
def Obligations.StepIsSafe : Prop := ∀ s : State, Inv s → Safe s

/-- 42_coset_leader_table.md R105 item 3, 43_codec.md R112 item 1, 60_exceptions.md R132: fault-free
hardware never raises a fatal error. -/
def Obligations.FatalNeverRaised : Prop :=
  ∀ s t : State, Inv s → s.status.fatal = false → step s = .next t → t.status.fatal = false

/-! ## The table memory -/

/-- The canonical form makes equal tables equal data: two canonical memories that read alike at every
address are one list (the model's representation of 10_state.md R25, assumption log entry 3). -/
def Obligations.TableFormIsCanonical : Prop :=
  ∀ m m' : TMem, m.wf = true → m'.wf = true → (∀ a, m.read a = m'.read a) → m = m'

/-! ## The linear algebra -/

/-- 40_gf2_primitives.md R82, R83, R88: parity, Hamming weight and flip. -/
def Obligations.ParityWeightFlip : Prop :=
  (∀ x : Word, parity x = decide (hammingWeight x % 2 = 1)) ∧
  (∀ a b : Word, parity (a &&& b) = sumMod2 32 fun i => a.getLsbD i && b.getLsbD i) ∧
  (∀ x : Word, hammingWeight x ≤ 32 ∧ (hammingWeight x = 0 ↔ x = 0)) ∧
  (∀ (x : Word) (m : Nat), m < 32 →
    flipBit (flipBit x m) m = x ∧
    (∀ i, (flipBit x m).getLsbD i = (x.getLsbD i ^^ decide (i = m))) ∧
    (x.getLsbD m = false → hammingWeight (flipBit x m) = hammingWeight x + 1) ∧
    (x.getLsbD m = true → hammingWeight (flipBit x m) + 1 = hammingWeight x))

/-- 40_gf2_primitives.md R84: the entries of the transpose, and that it is its own inverse on matrices
without stray bits. -/
def Obligations.TransposeIsInvolution : Prop :=
  ∀ (f : RowFile) (rows cols : Nat), rows ≤ 32 → cols ≤ 32 →
    (∀ i j, i < 32 → j < 32 → ((transpose f rows cols).row i).getLsbD j =
      (decide (i < cols) && decide (j < rows) && (f.row j).getLsbD i)) ∧
    ((∀ i, i < rows → IsVector cols (f.row i)) → (∀ i, rows ≤ i → f.row i = 0) →
      transpose (transpose f rows cols) cols rows = f)

/-- 40_gf2_primitives.md R85: each symbol is a sum of products modulo 2, and the product is linear. -/
def Obligations.ProductIsLinear : Prop :=
  ∀ (f : RowFile) (rows cols : Nat) (a b : Word), rows ≤ 32 → cols ≤ 32 →
    (∀ i, i < rows → (mulMod2 f rows cols a).getLsbD i = parity (f.row i &&& a &&& mask cols)) ∧
    (∀ i, i < rows → (mulMod2 f rows cols a).getLsbD i =
      sumMod2 cols fun j => (f.row i).getLsbD j && a.getLsbD j) ∧
    (∀ i, rows ≤ i → (mulMod2 f rows cols a).getLsbD i = false) ∧
    mulMod2 f rows cols (a ^^^ b) = mulMod2 f rows cols a ^^^ mulMod2 f rows cols b

/-- 40_gf2_primitives.md R86, R87: `Syndrome` and `ParityBits` as matrix products. -/
def Obligations.SyndromeIsProduct : Prop :=
  ∀ s : State, HoldsCode s →
    (∀ v, s.syndromeOf v = mulMod2 s.prow s.rLen s.kLen v ^^^ ((v >>> s.kLen) &&& mask s.rLen)) ∧
    (∀ msg, parityBits s.kLen s.nLen s.grow msg = mulMod2 s.prow s.rLen s.kLen msg)

/-- 40_gf2_primitives.md R89 items 1 to 3: the syndrome is linear, zero on codewords, and on unit
vectors gives the rows of `[G; I]`. -/
def Obligations.SyndromeIdentities : Prop :=
  ∀ s : State, HoldsCode s →
    s.syndromeOf 0 = 0 ∧
    (∀ a b, s.syndromeOf (a ^^^ b) = s.syndromeOf a ^^^ s.syndromeOf b) ∧
    (∀ msg, IsVector s.kLen msg → s.syndromeOf (s.encodeOf msg) = 0) ∧
    (∀ i, i < s.kLen → s.syndromeOf (1#32 <<< i) = s.grow.row i &&& mask s.rLen) ∧
    (∀ j, j < s.rLen → s.syndromeOf (1#32 <<< (s.kLen + j)) = 1#32 <<< j)

/-- 40_gf2_primitives.md R89 items 4 to 6: every syndrome is reached, encoding is one-to-one, and the
codewords are the vectors of syndrome zero. -/
def Obligations.CodewordsAreZeroSyndromes : Prop :=
  ∀ s : State, HoldsCode s →
    (∀ x : Word, IsVector s.rLen x →
      IsVector s.nLen (x <<< s.kLen) ∧ s.syndromeOf (x <<< s.kLen) = x) ∧
    (∀ m1 m2, IsVector s.kLen m1 → IsVector s.kLen m2 → s.encodeOf m1 = s.encodeOf m2 → m1 = m2) ∧
    (∀ v, IsVector s.nLen v →
      (s.syndromeOf v = 0 ↔ v = s.encodeOf (v &&& mask s.kLen)))

/-! ## The enumeration and the table -/

/-- The recursive form `Extend(v, last, w)` of 42_coset_leader_table.md R102. The first argument is
`n - (last + 1)`, how many positions are still to be tried. -/
def extendForm (syn : Word → Word) (n : Nat) : Nat → Word → Weight → TMem × Word → TMem × Word
  | 0, _, _, acc => acc
  | left + 1, v, w, acc =>
    let v2 := v ||| (1#32 <<< (n - (left + 1)))
    extendForm syn n left v w
      (extendForm syn n left v2 (w + 1) (record syn v2 (w + 1) acc.1 acc.2))

/-- 42_coset_leader_table.md R102: the iterative form with the explicit stack records what the
recursive form records. -/
def Obligations.EnumerationMatchesRecursion : Prop :=
  ∀ (syn : Word → Word) (n : Nat) (m : TMem) (cnt : Word), n ≤ 32 →
    ((buildLoop syn n (2 ^ (n + 1)) (buildStart cnt) m).2,
      (buildLoop syn n (2 ^ (n + 1)) (buildStart cnt) m).1.cnt) =
    extendForm syn n n 0 0 (m, cnt)

/-- 42_coset_leader_table.md R105 items 4 to 6: what a complete table satisfies. -/
def Obligations.LeaderWeightProperties : Prop :=
  ∀ s : State, HoldsCode s → HoldsTable s →
    s.tmem.read 0 = { valid := true, weight := 0 } ∧
    (∀ x : Word, IsVector s.rLen x → x ≠ 0 → 1 ≤ (s.tmem.read x.toNat).weight.toNat) ∧
    (∀ x : Word, IsVector s.rLen x →
      (s.tmem.read x.toNat).weight.toNat ≤ hammingWeight x ∧ hammingWeight x ≤ s.rLen) ∧
    (∀ v : Word, IsVector s.nLen v → s.syndromeOf v ≠ 0 →
      ∃ m, m < s.nLen ∧
        (s.tmem.read (s.syndromeOf (flipBit v m)).toNat).weight.toNat + 1 =
          (s.tmem.read (s.syndromeOf v).toNat).weight.toNat) ∧
    (∀ (v : Word) (m : Nat), IsVector s.nLen v → m < s.nLen →
      (s.tmem.read (s.syndromeOf (flipBit v m)).toNat).weight.toNat ≤
          (s.tmem.read (s.syndromeOf v).toNat).weight.toNat + 1 ∧
        (s.tmem.read (s.syndromeOf v).toNat).weight.toNat ≤
          (s.tmem.read (s.syndromeOf (flipBit v m)).toNat).weight.toNat + 1)
end

