-- ==== Sys2Proof/Laws/Bits.lean ====
section
/-! SUPPORT. The packed vectors bit by bit: masks, sums modulo 2, counts, row arrays, and one spec lemma
per primitive of Machine/Operands.lean. -/

namespace Sys2Proof.Machine

open Sys2Proof

/-! ### Words -/

theorem word_ext {a b : Word} (h : ∀ i, i < 32 → a.getLsbD i = b.getLsbD i) : a = b :=
  BitVec.eq_of_getLsbD_eq h

theorem getLsbD_one_shiftLeft (m i : Nat) :
    (1#32 <<< m).getLsbD i = (decide (i = m) && decide (i < 32)) := by
  rw [BitVec.getLsbD_shiftLeft, BitVec.getLsbD_one]
  by_cases h : i = m <;> by_cases h2 : i < 32 <;> simp [*]
  omega

theorem getLsbD_packBits (n : Nat) (f : Nat → Bool) (i : Nat) :
    (packBits n f).getLsbD i = (decide (i < n) && decide (i < 32) && f i) := by
  induction n with
  | zero => simp [packBits]
  | succ n ih =>
    rw [packBits, BitVec.getLsbD_or, ih]
    by_cases h : i = n
    · subst h
      by_cases hf : f i <;> simp [hf]
    · have hlt : (i < n + 1) ↔ (i < n) := by omega
      by_cases hf : f n
      · rw [if_pos hf, getLsbD_one_shiftLeft]
        simp [h, hlt]
      · simp [hf, hlt]

theorem getLsbD_mask (w i : Nat) : (mask w).getLsbD i = (decide (i < w) && decide (i < 32)) := by
  simp only [mask, BitVec.getLsbD_ofNat, Nat.testBit_two_pow_sub_one]
  rw [Bool.and_comm]

theorem getLsbD_strayBits (len i : Nat) (v : Word) :
    (strayBits len v).getLsbD i = (decide (len ≤ i) && v.getLsbD i) := by
  simp only [strayBits, BitVec.getLsbD_and, BitVec.getLsbD_not, getLsbD_mask]
  by_cases h : i < 32
  · by_cases h2 : i < len <;> simp [h, h2]
    omega
  · simp [BitVec.getLsbD_of_ge v i (by omega)]

theorem strayBits_eq_zero_iff (len : Nat) (v : Word) :
    strayBits len v = 0 ↔ ∀ i, len ≤ i → v.getLsbD i = false := by
  constructor
  · intro h i hi
    have := congrArg (fun x => BitVec.getLsbD x i) h
    simpa [getLsbD_strayBits, hi] using this
  · intro h
    refine word_ext fun i _ => ?_
    rw [getLsbD_strayBits]
    by_cases h2 : len ≤ i <;> simp [h2, h]

/-- A vector of length `len` is a number below `2^len`. -/
theorem strayBits_eq_zero_iff_lt (len : Nat) (v : Word) : strayBits len v = 0 ↔ v.toNat < 2 ^ len := by
  rw [strayBits_eq_zero_iff]
  constructor
  · intro h
    exact Nat.lt_pow_two_of_testBit _ fun i hi => h i hi
  · intro h i hi
    exact Nat.testBit_lt_two_pow (lt_of_lt_of_le h (Nat.pow_le_pow_right (by omega) hi))

theorem getLsbD_flipBit (v : Word) (m i : Nat) :
    (flipBit v m).getLsbD i = (v.getLsbD i ^^ (decide (i = m) && decide (i < 32))) := by
  rw [flipBit, BitVec.getLsbD_xor, getLsbD_one_shiftLeft]

/-! ### Sums modulo 2 and counts -/

theorem sumMod2_congr {n : Nat} {f g : Nat → Bool} (h : ∀ i, i < n → f i = g i) :
    sumMod2 n f = sumMod2 n g := by
  induction n with
  | zero => rfl
  | succ n ih => rw [sumMod2, sumMod2, ih fun i hi => h i (by omega), h n (by omega)]

theorem sumMod2_false (n : Nat) : sumMod2 n (fun _ => false) = false := by
  induction n with
  | zero => rfl
  | succ n ih => simp [sumMod2, ih]

theorem sumMod2_xor (n : Nat) (f g : Nat → Bool) :
    sumMod2 n (fun i => f i ^^ g i) = (sumMod2 n f ^^ sumMod2 n g) := by
  induction n with
  | zero => rfl
  | succ n ih =>
    simp only [sumMod2, ih]
    cases sumMod2 n f <;> cases sumMod2 n g <;> cases f n <;> cases g n <;> rfl

/-- Terms that are 0 from `k` on do not count. -/
theorem sumMod2_of_false_from {k n : Nat} {f : Nat → Bool} (hk : k ≤ n)
    (h : ∀ i, k ≤ i → i < n → f i = false) : sumMod2 n f = sumMod2 k f := by
  induction n with
  | zero =>
    have : k = 0 := by omega
    rw [this]
  | succ n ih =>
    by_cases hkn : k = n + 1
    · rw [hkn]
    · rw [sumMod2, ih (by omega) fun i hi hi2 => h i hi (by omega), h n (by omega) (by omega),
        Bool.xor_false]

/-- A sum with one term. -/
theorem sumMod2_single (n i : Nat) (f : Nat → Bool) :
    sumMod2 n (fun j => decide (j = i) && f j) = (decide (i < n) && f i) := by
  induction n with
  | zero => simp [sumMod2]
  | succ n ih =>
    rw [sumMod2, ih]
    by_cases h : n = i
    · subst h
      simp
    · have hlt : (i < n + 1) ↔ (i < n) := by omega
      simp [h, hlt]

theorem countSet_congr {n : Nat} {f g : Nat → Bool} (h : ∀ i, i < n → f i = g i) :
    countSet n f = countSet n g := by
  induction n with
  | zero => rfl
  | succ n ih => rw [countSet, countSet, ih fun i hi => h i (by omega), h n (by omega)]

theorem countSet_le (n : Nat) (f : Nat → Bool) : countSet n f ≤ n := by
  induction n with
  | zero => exact Nat.le_refl 0
  | succ n ih =>
    have := Bool.toNat_le (f n)
    rw [countSet]
    omega

theorem countSet_eq_zero_iff (n : Nat) (f : Nat → Bool) :
    countSet n f = 0 ↔ ∀ i, i < n → f i = false := by
  induction n with
  | zero => simp [countSet]
  | succ n ih =>
    rw [countSet, Nat.add_eq_zero_iff, ih, Bool.toNat_eq_zero]
    constructor
    · rintro ⟨h, hn⟩ i hi
      by_cases hin : i = n
      · rw [hin, hn]
      · exact h i (by omega)
    · exact fun h => ⟨fun i hi => h i (by omega), h n (by omega)⟩

/-- Setting one clear place raises the count by one. -/
theorem countSet_set {n m : Nat} {f g : Nat → Bool} (hm : m < n) (hf : f m = false) (hg : g m = true)
    (h : ∀ i, i ≠ m → g i = f i) : countSet n g = countSet n f + 1 := by
  induction n with
  | zero => omega
  | succ n ih =>
    rw [countSet, countSet]
    by_cases hmn : m = n
    · subst hmn
      rw [countSet_congr (f := g) (g := f) fun i hi => h i (by omega), hf, hg]
      rfl
    · rw [ih (by omega), h n (by omega)]
      omega

/-- The symmetric difference counts at most both sides together. -/
theorem countSet_xor_le (n : Nat) (f g : Nat → Bool) :
    countSet n (fun i => f i ^^ g i) ≤ countSet n f + countSet n g := by
  induction n with
  | zero => exact Nat.le_refl 0
  | succ n ih =>
    simp only [countSet]
    have : (f n ^^ g n).toNat ≤ (f n).toNat + (g n).toNat := by cases f n <;> cases g n <;> decide
    omega

theorem sumMod2_eq_countSet (n : Nat) (f : Nat → Bool) :
    sumMod2 n f = decide (countSet n f % 2 = 1) := by
  induction n with
  | zero => rfl
  | succ n ih =>
    rw [sumMod2, countSet, ih]
    by_cases hf : f n <;> simp only [hf]
    · by_cases h : countSet n f % 2 = 1
      · simp [h, show (countSet n f + 1) % 2 = 0 by omega]
      · simp [h, show (countSet n f + 1) % 2 = 1 by omega]
    · simp

/-! ### Parity -/

theorem parity_xor (a b : Word) : parity (a ^^^ b) = (parity a ^^ parity b) := by
  rw [parity, parity, parity, ← sumMod2_xor]
  exact sumMod2_congr fun i _ => BitVec.getLsbD_xor

/-- `Parity(a & b & mask(k))` is the modulo-2 inner product over `k` symbols (R82, R85). -/
theorem parity_and_mask (a b : Word) {k : Nat} (hk : k ≤ 32) :
    parity (a &&& b &&& mask k) = sumMod2 k fun j => a.getLsbD j && b.getLsbD j := by
  rw [parity, sumMod2_of_false_from hk]
  · refine sumMod2_congr fun i hi => ?_
    rw [BitVec.getLsbD_and, BitVec.getLsbD_and, getLsbD_mask]
    simp [hi, show i < 32 by omega]
  · intro i hi _
    rw [BitVec.getLsbD_and, getLsbD_mask]
    simp [show ¬ i < k by omega]

/-! ### Row arrays -/

theorem row_setRow (f : RowFile) (i j : Nat) (x : Word) :
    (f.setRow i x).row j = if i = j ∧ i < 32 then x else f.row j := by
  simp only [RowFile.setRow, RowFile.row, Vector.getElem?_setIfInBounds]
  by_cases h : i = j
  · subst h
    by_cases h2 : i < 32 <;> simp [h2]
  · simp [h]

theorem setRow_eq_set (f : RowFile) (i : Fin 32) (x : Word) : f.setRow i.val x = f.set i.val x := by
  refine Vector.ext fun j hj => ?_
  simp [RowFile.setRow, Vector.getElem_setIfInBounds, Vector.getElem_set]

theorem row_ofFn (f : Fin 32 → Word) (i : Nat) :
    RowFile.row (Vector.ofFn f) i = if h : i < 32 then f ⟨i, h⟩ else 0 := by
  by_cases h : i < 32 <;> simp [RowFile.row, h]

theorem row_of_ge (f : RowFile) {i : Nat} (h : 32 ≤ i) : f.row i = 0 := by
  simp [RowFile.row, h]

theorem row_reset (i : Nat) : RowFile.reset.row i = 0 := by
  by_cases h : i < 32 <;> simp [RowFile.row, RowFile.reset, h]

theorem rowFile_ext {f g : RowFile} (h : ∀ i, i < 32 → f.row i = g.row i) : f = g := by
  refine Vector.ext fun i hi => ?_
  simpa [RowFile.row, hi] using h i hi

theorem getLsbD_transpose (f : RowFile) (rows cols i j : Nat) :
    ((transpose f rows cols).row i).getLsbD j =
      (decide (i < 32) && decide (j < 32) && decide (i < cols) && decide (j < rows) &&
        (f.row j).getLsbD i) := by
  rw [transpose, row_ofFn]
  by_cases h : i < 32
  · by_cases h2 : i < cols
    · simp only [h, h2, dite_true, if_true, getLsbD_packBits]
      cases decide (j < 32) <;> simp
    · simp [h, h2]
  · simp [h]

/-! ### Products and syndromes -/

theorem getLsbD_mulMod2 (f : RowFile) (rows cols : Nat) (x : Word) (i : Nat) :
    (mulMod2 f rows cols x).getLsbD i =
      (decide (i < rows) && decide (i < 32) && parity (f.row i &&& x &&& mask cols)) :=
  getLsbD_packBits _ _ _

theorem getLsbD_syndrome (k n : Nat) (p : RowFile) (v : Word) (i : Nat) :
    (syndrome k n p v).getLsbD i =
      (decide (i < n - k) && decide (i < 32) &&
        (parity (p.row i &&& v &&& mask k) ^^ v.getLsbD (k + i))) :=
  getLsbD_packBits _ _ _

/-- A syndrome is a vector of length `r`: a table index below `2^r` (20_memory.md R51). -/
theorem syndrome_lt (k n : Nat) (p : RowFile) (v : Word) : (syndrome k n p v).toNat < 2 ^ (n - k) := by
  rw [← strayBits_eq_zero_iff_lt, strayBits_eq_zero_iff]
  intro i hi
  rw [getLsbD_syndrome]
  simp [show ¬ i < n - k by omega]

theorem getLsbD_selectedRows (grow : RowFile) (r : Nat) (msg : Word) (count j : Nat) :
    (selectedRows grow r msg count).getLsbD j =
      (decide (j < r) && decide (j < 32) &&
        sumMod2 count fun i => msg.getLsbD i && (grow.row i).getLsbD j) := by
  induction count with
  | zero => simp [selectedRows, sumMod2]
  | succ i ih =>
    rw [selectedRows, sumMod2]
    by_cases h : msg.getLsbD i
    · simp only [h, if_true, BitVec.getLsbD_xor, BitVec.getLsbD_and, getLsbD_mask, ih]
      by_cases h1 : j < r <;> by_cases h2 : j < 32 <;> simp [h1, h2]
    · simp [h, ih]

theorem getLsbD_parityBits (k n : Nat) (grow : RowFile) (msg : Word) (j : Nat) :
    (parityBits k n grow msg).getLsbD j =
      (decide (j < n - k) && decide (j < 32) &&
        sumMod2 k fun i => msg.getLsbD i && (grow.row i).getLsbD j) :=
  getLsbD_selectedRows _ _ _ _ _

/-- `Encode(msg)`: the message symbols, then the parity symbols, then zeros (R87). -/
theorem getLsbD_encodeMessage (k n : Nat) (grow : RowFile) (msg : Word) (hn : n ≤ 32) (i : Nat) :
    (encodeMessage k n grow msg).getLsbD i =
      (msg.getLsbD i || (decide (k ≤ i) && (parityBits k n grow msg).getLsbD (i - k))) := by
  rw [encodeMessage]
  by_cases h : n - k = 0
  · simp [h, getLsbD_parityBits]
  · rw [if_neg h, BitVec.getLsbD_or, BitVec.getLsbD_shiftLeft]
    by_cases hk : k ≤ i
    · by_cases h32 : i < 32
      · simp [hk, h32, show ¬ i < k by omega]
      · have h1 : ¬ i - k < n - k := by omega
        simp [h32, h1, getLsbD_parityBits]
    · simp [hk]

/-! ### Lengths -/

/-- Legal code parameters as natural numbers: `1 <= k <= n <= NMAX <= 32` (10_state.md R11). -/
theorem lengths_of_paramsLegal {s : State} (h : s.paramsLegal = true) :
    1 ≤ s.kLen ∧ s.kLen ≤ s.nLen ∧ s.nLen ≤ s.config.nmax ∧ s.nLen ≤ 32 ∧ s.rLen ≤ s.config.nmax - 1 := by
  simp only [State.paramsLegal, decide_eq_true_eq, BitVec.toInt_eq_toNat_cond] at h
  have h32 := s.config.nmax_le
  have hk := s.k.isLt
  have hn := s.n.isLt
  simp only [State.rLen, State.nLen, State.kLen]
  split at h <;> split at h <;> omega

/-- Legal code parameters as signed integers agree with their unsigned values. -/
theorem paramsLegal_iff (s : State) :
    s.paramsLegal = true ↔ 1 ≤ s.k.toInt ∧ s.k.toInt ≤ s.n.toInt ∧ s.n.toInt ≤ s.config.nmax := by
  simp [State.paramsLegal]

/-! What a state computes from its registers depends on those registers only. Cite these where two states
differ in another field: left to unfold, Lean compares the other fields first, and a `PROW` or `TMEM`
field that a command computes is then run. -/

theorem kLen_congr {s t : State} (hk : t.k = s.k) : t.kLen = s.kLen := by
  rw [State.kLen, State.kLen, hk]

theorem nLen_congr {s t : State} (hn : t.n = s.n) : t.nLen = s.nLen := by
  rw [State.nLen, State.nLen, hn]

theorem rLen_congr {s t : State} (hk : t.k = s.k) (hn : t.n = s.n) : t.rLen = s.rLen := by
  rw [State.rLen, State.rLen, kLen_congr hk, nLen_congr hn]

/-- Whether the code parameters are legal depends on `K`, `N` and `NMAX` only. -/
theorem paramsLegal_congr {s t : State} (hk : t.k = s.k) (hn : t.n = s.n) (hc : t.config = s.config) :
    t.paramsLegal = s.paramsLegal := by
  rw [State.paramsLegal, State.paramsLegal, hk, hn, hc]

/-- The syndrome depends on `K`, `N` and `PROW` only. -/
theorem syndromeOf_congr {s t : State} (hk : t.k = s.k) (hn : t.n = s.n) (hp : t.prow = s.prow) :
    t.syndromeOf = s.syndromeOf := by
  funext v
  rw [State.syndromeOf, State.syndromeOf, State.kLen, State.kLen, State.nLen, State.nLen, hk, hn, hp]

/-- The codeword of a message depends on `K`, `N` and `GROW` only. -/
theorem encodeOf_congr {s t : State} (hk : t.k = s.k) (hn : t.n = s.n) (hg : t.grow = s.grow) :
    t.encodeOf = s.encodeOf := by
  funext v
  rw [State.encodeOf, State.encodeOf, State.kLen, State.kLen, State.nLen, State.nLen, hk, hn, hg]

theorem syndromeOf_lt (s : State) (v : Word) : (s.syndromeOf v).toNat < 2 ^ s.rLen :=
  syndrome_lt _ _ _ _

end Sys2Proof.Machine
end

