-- ==== Sys2Proof/Laws/Table.lean ====
section
/-! SUPPORT. The table memory: what a read gives after each operation, and that each operation keeps the
canonical form. -/

namespace Sys2Proof.Machine

open Sys2Proof

/-- The canonical form as propositions. -/
theorem wf_iff (m : TMem) :
    m.wf = true ↔ (m.Pairwise fun a b => a.1 < b.1) ∧ ∀ c ∈ m, c.2 ≠ Entry.absent := by
  simp [TMem.wf]

@[simp] theorem read_nil (i : Nat) : TMem.read [] i = Entry.absent := rfl

theorem read_cons (a : Nat) (e : Entry) (m : TMem) (i : Nat) :
    TMem.read ((a, e) :: m) i = if a = i then e else m.read i := rfl

/-- An address that is not listed reads as absent. -/
theorem read_of_not_listed {m : TMem} {i : Nat} (h : ∀ c ∈ m, c.1 ≠ i) : m.read i = Entry.absent := by
  induction m with
  | nil => rfl
  | cons c m ih =>
    obtain ⟨a, e⟩ := c
    rw [read_cons, if_neg (h (a, e) (by simp)), ih fun c hc => h c (by simp [hc])]

/-- Reading a memory of which only the addresses that meet `p` are kept. -/
theorem read_filter (m : TMem) (p : Nat → Bool) (i : Nat) :
    TMem.read (m.filter fun c => p c.1) i = if p i then m.read i else Entry.absent := by
  induction m with
  | nil => simp
  | cons c m ih =>
    obtain ⟨a, e⟩ := c
    by_cases ha : a = i
    · subst ha
      by_cases hp : p a
      · simp [hp, read_cons]
      · simpa [List.filter_cons, hp] using ih
    · by_cases hp : p a
      · simp [hp, read_cons, ha, ih]
      · simp [hp, read_cons, ha, ih]

theorem wf_filter {m : TMem} (h : m.wf = true) (p : Nat × Entry → Bool) :
    TMem.wf (m.filter p) = true := by
  rw [wf_iff] at h ⊢
  exact ⟨h.1.filter p, fun c hc => h.2 c (List.mem_of_mem_filter hc)⟩

theorem read_erase (m : TMem) (a i : Nat) :
    (m.erase a).read i = if i = a then Entry.absent else m.read i := by
  have := read_filter m (fun x => decide (x ≠ a)) i
  by_cases h : i = a <;> simpa [TMem.erase, h] using this

theorem read_clearBelow (m : TMem) (count i : Nat) :
    (m.clearBelow count).read i = if i < count then Entry.absent else m.read i := by
  have := read_filter m (fun x => decide (count ≤ x)) i
  by_cases h : i < count
  · simpa [TMem.clearBelow, h, show ¬ count ≤ i by omega] using this
  · simpa [TMem.clearBelow, h, show count ≤ i by omega] using this

theorem wf_erase {m : TMem} (h : m.wf = true) (a : Nat) : (m.erase a).wf = true := wf_filter h _

theorem wf_clearBelow {m : TMem} (h : m.wf = true) (count : Nat) : (m.clearBelow count).wf = true :=
  wf_filter h _

theorem not_listed_erase (m : TMem) (a : Nat) : ∀ c ∈ m.erase a, c.1 ≠ a := by
  intro c hc
  simpa using (List.mem_filter.mp hc).2

theorem mem_insert {m : TMem} {i : Nat} {e : Entry} {c : Nat × Entry} :
    c ∈ m.insert i e ↔ c = (i, e) ∨ c ∈ m := by
  induction m with
  | nil => simp [TMem.insert]
  | cons d m ih =>
    obtain ⟨a, x⟩ := d
    rw [TMem.insert]
    split
    · simp
    · simp only [List.mem_cons, ih]
      tauto

theorem read_insert {m : TMem} {i : Nat} (h : ∀ c ∈ m, c.1 ≠ i) (e : Entry) (j : Nat) :
    (m.insert i e).read j = if j = i then e else m.read j := by
  induction m with
  | nil => simp [TMem.insert, read_cons, eq_comm]
  | cons d m ih =>
    obtain ⟨a, x⟩ := d
    have ha : a ≠ i := h (a, x) (by simp)
    rw [TMem.insert]
    split
    · simp only [read_cons, eq_comm]
    · rw [read_cons, read_cons, ih fun c hc => h c (by simp [hc])]
      by_cases hj : j = i
      · subst hj
        simp [ha]
      · simp [hj]

theorem pairwise_insert {m : TMem} {i : Nat} (h : ∀ c ∈ m, c.1 ≠ i) (e : Entry)
    (hm : m.Pairwise fun a b => a.1 < b.1) : (m.insert i e).Pairwise fun a b => a.1 < b.1 := by
  induction m with
  | nil => simp [TMem.insert]
  | cons d m ih =>
    obtain ⟨a, x⟩ := d
    rw [List.pairwise_cons] at hm
    have ha : a ≠ i := h (a, x) (by simp)
    rw [TMem.insert]
    split
    · rename_i hia
      refine List.pairwise_cons.mpr ⟨fun c hc => ?_, List.pairwise_cons.mpr hm⟩
      rcases List.mem_cons.mp hc with rfl | hc
      · exact hia
      · exact lt_trans hia (hm.1 c hc)
    · refine List.pairwise_cons.mpr ⟨fun c hc => ?_, ih (fun c hc => h c (by simp [hc])) hm.2⟩
      rcases mem_insert.mp hc with rfl | hc
      · show a < i
        omega
      · exact hm.1 c hc

theorem read_write (m : TMem) (a : Nat) (e : Entry) (i : Nat) :
    (m.write a e).read i = if i = a then e else m.read i := by
  rw [TMem.write]
  split
  · rename_i he
    rw [read_erase, he]
  · rw [read_insert (not_listed_erase m a), read_erase]
    split <;> rfl

theorem wf_write {m : TMem} (h : m.wf = true) (a : Nat) (e : Entry) : (m.write a e).wf = true := by
  rw [TMem.write]
  split
  · exact wf_erase h a
  · rename_i he
    have hw := (wf_iff _).mp (wf_erase h a)
    rw [wf_iff]
    refine ⟨pairwise_insert (not_listed_erase m a) e hw.1, fun c hc => ?_⟩
    rcases mem_insert.mp hc with rfl | hc
    · exact he
    · exact hw.2 c hc

end Sys2Proof.Machine
end

