-- ==== Sys2Proof/Laws/Build.lean ====
section
/-! SUPPORT. What one `Record` and one turn of the `BUILD` loop do (42_coset_leader_table.md R100, R101). -/

namespace Sys2Proof.Machine

open Sys2Proof

/-! ### `Record` -/

/-- Another syndrome's entry is untouched. -/
theorem record_read_other (syn : Word → Word) (v : Word) (w : Weight) (m : TMem) (cnt : Word) {i : Nat}
    (h : i ≠ (syn v).toNat) : (record syn v w m cnt).1.read i = m.read i := by
  simp only [record]
  split
  · rw [read_write, if_neg h]
  · split
    · rw [read_write, if_neg h]
    · rfl

/-- An unseen syndrome is recorded and counted. -/
theorem record_unseen {syn : Word → Word} {v : Word} {m : TMem} (w : Weight) (cnt : Word)
    (h : (m.read (syn v).toNat).valid = false) :
    record syn v w m cnt = (m.write (syn v).toNat { valid := true, weight := w }, cnt + 1) := by
  simp [record, h]

/-- A strictly larger stored weight is replaced. -/
theorem record_heavier {syn : Word → Word} {v : Word} {w : Weight} {m : TMem} (cnt : Word)
    (h : (m.read (syn v).toNat).valid = true) (hw : w < (m.read (syn v).toNat).weight) :
    record syn v w m cnt = (m.write (syn v).toNat { valid := true, weight := w }, cnt) := by
  simp [record, h, hw]

/-- An equal or smaller stored weight stays. -/
theorem record_kept {syn : Word → Word} {v : Word} {w : Weight} {m : TMem} (cnt : Word)
    (h : (m.read (syn v).toNat).valid = true) (hw : ¬ w < (m.read (syn v).toNat).weight) :
    record syn v w m cnt = (m, cnt) := by
  simp [record, h, hw]

/-- The three things a `Record` can do. -/
theorem record_cases (syn : Word → Word) (v : Word) (w : Weight) (m : TMem) (cnt : Word) :
    ((m.read (syn v).toNat).valid = false ∧
      record syn v w m cnt = (m.write (syn v).toNat { valid := true, weight := w }, cnt + 1)) ∨
    ((m.read (syn v).toNat).valid = true ∧ w < (m.read (syn v).toNat).weight ∧
      record syn v w m cnt = (m.write (syn v).toNat { valid := true, weight := w }, cnt)) ∨
    ((m.read (syn v).toNat).valid = true ∧ ¬ w < (m.read (syn v).toNat).weight ∧
      record syn v w m cnt = (m, cnt)) := by
  cases h : (m.read (syn v).toNat).valid
  · exact .inl ⟨rfl, record_unseen w cnt h⟩
  · by_cases hw : w < (m.read (syn v).toNat).weight
    · exact .inr (.inl ⟨rfl, hw, record_heavier cnt h hw⟩)
    · exact .inr (.inr ⟨rfl, hw, record_kept cnt h hw⟩)

theorem record_wf {m : TMem} (h : m.wf = true) (syn : Word → Word) (v : Word) (w : Weight)
    (cnt : Word) : (record syn v w m cnt).1.wf = true := by
  rcases record_cases syn v w m cnt with ⟨_, hr⟩ | ⟨_, _, hr⟩ | ⟨_, _, hr⟩ <;> rw [hr]
  · exact wf_write h (syn v).toNat { valid := true, weight := w }
  · exact wf_write h (syn v).toNat { valid := true, weight := w }
  · exact h

/-! ### One turn of the loop -/

theorem buildTurn_extend {n : Nat} {b : BuildWork} (syn : Word → Word) (m : TMem) (h : b.p.toNat < n) :
    buildTurn syn n b m =
      some
        ({ v := b.v ||| (1#32 <<< b.p.toNat)
           depth := b.depth + 1
           pos := b.pos.setIfInBounds b.depth.toNat (b.p.setWidth 5)
           p := b.p + 1
           cnt := (record syn (b.v ||| (1#32 <<< b.p.toNat)) (b.depth + 1) m b.cnt).2 },
          (record syn (b.v ||| (1#32 <<< b.p.toNat)) (b.depth + 1) m b.cnt).1) := by
  simp [buildTurn, h]

theorem buildTurn_leave {n : Nat} {b : BuildWork} (syn : Word → Word) (m : TMem)
    (h : ¬ b.p.toNat < n) (hd : b.depth = 0) : buildTurn syn n b m = none := by
  rw [buildTurn, if_neg h, if_pos hd]

theorem buildTurn_backtrack {n : Nat} {b : BuildWork} (syn : Word → Word) (m : TMem)
    (h : ¬ b.p.toNat < n) (hd : b.depth ≠ 0) :
    buildTurn syn n b m =
      some
        ({ v := b.v &&& ~~~(1#32 <<< ((b.pos[(b.depth - 1).toNat]?).getD 0).toNat)
           depth := b.depth - 1
           pos := b.pos
           p := ((b.pos[(b.depth - 1).toNat]?).getD 0).setWidth 6 + 1
           cnt := b.cnt }, m) := by
  rw [buildTurn, if_neg h, if_neg hd]

/-- A turn keeps the canonical form of the table. -/
theorem buildTurn_wf {syn : Word → Word} {n : Nat} {b b' : BuildWork} {m m' : TMem}
    (h : buildTurn syn n b m = some (b', m')) (hm : m.wf = true) : m'.wf = true := by
  by_cases hp : b.p.toNat < n
  · rw [buildTurn_extend syn m hp] at h
    cases h
    exact record_wf hm _ _ _ _
  · by_cases hd : b.depth = 0
    · rw [buildTurn_leave syn m hp hd] at h
      cases h
    · rw [buildTurn_backtrack syn m hp hd] at h
      cases h
      exact hm

/-- Whatever a turn of the loop keeps of the table, the loop keeps. -/
theorem buildLoop_keeps {syn : Word → Word} {n : Nat} {P : TMem → Prop}
    (turn : ∀ b b' m m', buildTurn syn n b m = some (b', m') → P m → P m') (fuel : Nat) (b : BuildWork)
    (m : TMem) (hm : P m) : P (buildLoop syn n fuel b m).2 := by
  induction fuel generalizing b m with
  | zero => exact hm
  | succ fuel ih =>
    rw [buildLoop]
    split
    · exact hm
    · rename_i b' m' h
      exact ih b' m' (turn b b' m m' h hm)

/-- The enumeration keeps the canonical form. -/
theorem enumerate_wf (s : State) (h : s.tmem.wf = true) : s.enumerate.1.wf = true := by
  have hc := record_wf (wf_clearBelow h (2 ^ s.rLen)) s.syndromeOf 0 0 0
  exact buildLoop_keeps (P := fun m => m.wf = true) (fun _ _ _ _ ht hm => buildTurn_wf ht hm) _ _ _ hc

end Sys2Proof.Machine
end

