-- ==== Sys2Proof/Laws/State.lean ====
section
/-! SUPPORT. One lemma per field of State and per update of Machine/Ops.lean, true by rfl, so that no
proof unfolds a record update. -/

namespace Sys2Proof.Machine

open Sys2Proof

/-! ### `issue` -/

@[simp] theorem issue_config (s : State) (w : Word) : (State.issue s w).config = s.config := rfl
@[simp] theorem issue_status (s : State) (w : Word) :
    (State.issue s w).status = { s.status with busy := true, done := false, ecode := .ok } := rfl
@[simp] theorem issue_ien (s : State) (w : Word) : (State.issue s w).ien = s.ien := rfl
@[simp] theorem issue_k (s : State) (w : Word) : (State.issue s w).k = s.k := rfl
@[simp] theorem issue_n (s : State) (w : Word) : (State.issue s w).n = s.n := rfl
@[simp] theorem issue_grows (s : State) (w : Word) : (State.issue s w).grows = s.grows := rfl
@[simp] theorem issue_gcols (s : State) (w : Word) : (State.issue s w).gcols = s.gcols := rfl
@[simp] theorem issue_grow (s : State) (w : Word) : (State.issue s w).grow = s.grow := rfl
@[simp] theorem issue_prow (s : State) (w : Word) : (State.issue s w).prow = s.prow := rfl
@[simp] theorem issue_vin (s : State) (w : Word) : (State.issue s w).vin = s.vin := rfl
@[simp] theorem issue_vout (s : State) (w : Word) : (State.issue s w).vout = s.vout := rfl
@[simp] theorem issue_synd (s : State) (w : Word) : (State.issue s w).synd = s.synd := rfl
@[simp] theorem issue_wgt (s : State) (w : Word) : (State.issue s w).wgt = s.wgt := rfl
@[simp] theorem issue_tcnt (s : State) (w : Word) : (State.issue s w).tcnt = s.tcnt := rfl
@[simp] theorem issue_pend (s : State) (w : Word) : (State.issue s w).pend = w := rfl
@[simp] theorem issue_tmem (s : State) (w : Word) : (State.issue s w).tmem = s.tmem := rfl
@[simp] theorem issue_decWork (s : State) (w : Word) : (State.issue s w).decWork = s.decWork := rfl
@[simp] theorem issue_buildWork (s : State) (w : Word) :
    (State.issue s w).buildWork = s.buildWork := rfl
@[simp] theorem issue_inputs (s : State) (w : Word) : (State.issue s w).inputs = s.inputs := rfl
@[simp] theorem issue_rdata (s : State) (w : Word) : (State.issue s w).rdata = s.rdata := rfl
@[simp] theorem issue_fresh (s : State) (w : Word) : (State.issue s w).fresh = s.fresh := rfl

/-! ### `complete` -/

@[simp] theorem complete_config (s : State) (c : Code) :
    (State.complete s c).config = s.config := rfl
@[simp] theorem complete_status (s : State) (c : Code) :
    (State.complete s c).status = { s.status with busy := false, done := true, ecode := c } := rfl
@[simp] theorem complete_ien (s : State) (c : Code) : (State.complete s c).ien = s.ien := rfl
@[simp] theorem complete_k (s : State) (c : Code) : (State.complete s c).k = s.k := rfl
@[simp] theorem complete_n (s : State) (c : Code) : (State.complete s c).n = s.n := rfl
@[simp] theorem complete_grows (s : State) (c : Code) : (State.complete s c).grows = s.grows := rfl
@[simp] theorem complete_gcols (s : State) (c : Code) : (State.complete s c).gcols = s.gcols := rfl
@[simp] theorem complete_grow (s : State) (c : Code) : (State.complete s c).grow = s.grow := rfl
@[simp] theorem complete_prow (s : State) (c : Code) : (State.complete s c).prow = s.prow := rfl
@[simp] theorem complete_vin (s : State) (c : Code) : (State.complete s c).vin = s.vin := rfl
@[simp] theorem complete_vout (s : State) (c : Code) : (State.complete s c).vout = s.vout := rfl
@[simp] theorem complete_synd (s : State) (c : Code) : (State.complete s c).synd = s.synd := rfl
@[simp] theorem complete_wgt (s : State) (c : Code) : (State.complete s c).wgt = s.wgt := rfl
@[simp] theorem complete_tcnt (s : State) (c : Code) : (State.complete s c).tcnt = s.tcnt := rfl
@[simp] theorem complete_pend (s : State) (c : Code) :
    (State.complete s c).pend = Config.freePend s.fresh := rfl
@[simp] theorem complete_tmem (s : State) (c : Code) : (State.complete s c).tmem = s.tmem := rfl
@[simp] theorem complete_decWork (s : State) (c : Code) :
    (State.complete s c).decWork = s.decWork := rfl
@[simp] theorem complete_buildWork (s : State) (c : Code) :
    (State.complete s c).buildWork = s.buildWork := rfl
@[simp] theorem complete_inputs (s : State) (c : Code) :
    (State.complete s c).inputs = s.inputs := rfl
@[simp] theorem complete_rdata (s : State) (c : Code) : (State.complete s c).rdata = s.rdata := rfl
@[simp] theorem complete_fresh (s : State) (c : Code) :
    (State.complete s c).fresh = s.fresh + 1 := rfl

/-! ### `raise` -/

@[simp] theorem raise_config (s : State) (c : Code) : (State.raise s c).config = s.config := rfl
@[simp] theorem raise_status (s : State) (c : Code) :
    (State.raise s c).status =
      { s.status with
        busy := false
        done := true
        fatal := s.status.fatal || c.isFatal
        ecode := c } := rfl
@[simp] theorem raise_ien (s : State) (c : Code) : (State.raise s c).ien = s.ien := rfl
@[simp] theorem raise_k (s : State) (c : Code) : (State.raise s c).k = s.k := rfl
@[simp] theorem raise_n (s : State) (c : Code) : (State.raise s c).n = s.n := rfl
@[simp] theorem raise_grows (s : State) (c : Code) : (State.raise s c).grows = s.grows := rfl
@[simp] theorem raise_gcols (s : State) (c : Code) : (State.raise s c).gcols = s.gcols := rfl
@[simp] theorem raise_grow (s : State) (c : Code) : (State.raise s c).grow = s.grow := rfl
@[simp] theorem raise_prow (s : State) (c : Code) : (State.raise s c).prow = s.prow := rfl
@[simp] theorem raise_vin (s : State) (c : Code) : (State.raise s c).vin = s.vin := rfl
@[simp] theorem raise_vout (s : State) (c : Code) : (State.raise s c).vout = s.vout := rfl
@[simp] theorem raise_synd (s : State) (c : Code) : (State.raise s c).synd = s.synd := rfl
@[simp] theorem raise_wgt (s : State) (c : Code) : (State.raise s c).wgt = s.wgt := rfl
@[simp] theorem raise_tcnt (s : State) (c : Code) : (State.raise s c).tcnt = s.tcnt := rfl
@[simp] theorem raise_pend (s : State) (c : Code) :
    (State.raise s c).pend = Config.freePend s.fresh := rfl
@[simp] theorem raise_tmem (s : State) (c : Code) : (State.raise s c).tmem = s.tmem := rfl
@[simp] theorem raise_decWork (s : State) (c : Code) : (State.raise s c).decWork = s.decWork := rfl
@[simp] theorem raise_buildWork (s : State) (c : Code) :
    (State.raise s c).buildWork = s.buildWork := rfl
@[simp] theorem raise_inputs (s : State) (c : Code) : (State.raise s c).inputs = s.inputs := rfl
@[simp] theorem raise_rdata (s : State) (c : Code) : (State.raise s c).rdata = s.rdata := rfl
@[simp] theorem raise_fresh (s : State) (c : Code) : (State.raise s c).fresh = s.fresh + 1 := rfl

/-! ### `releaseDec` -/

@[simp] theorem releaseDec_config (s : State) : (State.releaseDec s).config = s.config := rfl
@[simp] theorem releaseDec_status (s : State) : (State.releaseDec s).status = s.status := rfl
@[simp] theorem releaseDec_ien (s : State) : (State.releaseDec s).ien = s.ien := rfl
@[simp] theorem releaseDec_k (s : State) : (State.releaseDec s).k = s.k := rfl
@[simp] theorem releaseDec_n (s : State) : (State.releaseDec s).n = s.n := rfl
@[simp] theorem releaseDec_grows (s : State) : (State.releaseDec s).grows = s.grows := rfl
@[simp] theorem releaseDec_gcols (s : State) : (State.releaseDec s).gcols = s.gcols := rfl
@[simp] theorem releaseDec_grow (s : State) : (State.releaseDec s).grow = s.grow := rfl
@[simp] theorem releaseDec_prow (s : State) : (State.releaseDec s).prow = s.prow := rfl
@[simp] theorem releaseDec_vin (s : State) : (State.releaseDec s).vin = s.vin := rfl
@[simp] theorem releaseDec_vout (s : State) : (State.releaseDec s).vout = s.vout := rfl
@[simp] theorem releaseDec_synd (s : State) : (State.releaseDec s).synd = s.synd := rfl
@[simp] theorem releaseDec_wgt (s : State) : (State.releaseDec s).wgt = s.wgt := rfl
@[simp] theorem releaseDec_tcnt (s : State) : (State.releaseDec s).tcnt = s.tcnt := rfl
@[simp] theorem releaseDec_pend (s : State) : (State.releaseDec s).pend = s.pend := rfl
@[simp] theorem releaseDec_tmem (s : State) : (State.releaseDec s).tmem = s.tmem := rfl
@[simp] theorem releaseDec_buildWork (s : State) :
    (State.releaseDec s).buildWork = s.buildWork := rfl
@[simp] theorem releaseDec_inputs (s : State) : (State.releaseDec s).inputs = s.inputs := rfl
@[simp] theorem releaseDec_rdata (s : State) : (State.releaseDec s).rdata = s.rdata := rfl
@[simp] theorem releaseDec_fresh (s : State) : (State.releaseDec s).fresh = s.fresh := rfl

/-! ### `releaseBuild` -/

@[simp] theorem releaseBuild_config (s : State) : (State.releaseBuild s).config = s.config := rfl
@[simp] theorem releaseBuild_status (s : State) : (State.releaseBuild s).status = s.status := rfl
@[simp] theorem releaseBuild_ien (s : State) : (State.releaseBuild s).ien = s.ien := rfl
@[simp] theorem releaseBuild_k (s : State) : (State.releaseBuild s).k = s.k := rfl
@[simp] theorem releaseBuild_n (s : State) : (State.releaseBuild s).n = s.n := rfl
@[simp] theorem releaseBuild_grows (s : State) : (State.releaseBuild s).grows = s.grows := rfl
@[simp] theorem releaseBuild_gcols (s : State) : (State.releaseBuild s).gcols = s.gcols := rfl
@[simp] theorem releaseBuild_grow (s : State) : (State.releaseBuild s).grow = s.grow := rfl
@[simp] theorem releaseBuild_prow (s : State) : (State.releaseBuild s).prow = s.prow := rfl
@[simp] theorem releaseBuild_vin (s : State) : (State.releaseBuild s).vin = s.vin := rfl
@[simp] theorem releaseBuild_vout (s : State) : (State.releaseBuild s).vout = s.vout := rfl
@[simp] theorem releaseBuild_synd (s : State) : (State.releaseBuild s).synd = s.synd := rfl
@[simp] theorem releaseBuild_wgt (s : State) : (State.releaseBuild s).wgt = s.wgt := rfl
@[simp] theorem releaseBuild_tcnt (s : State) : (State.releaseBuild s).tcnt = s.tcnt := rfl
@[simp] theorem releaseBuild_pend (s : State) : (State.releaseBuild s).pend = s.pend := rfl
@[simp] theorem releaseBuild_tmem (s : State) : (State.releaseBuild s).tmem = s.tmem := rfl
@[simp] theorem releaseBuild_decWork (s : State) : (State.releaseBuild s).decWork = s.decWork := rfl
@[simp] theorem releaseBuild_inputs (s : State) : (State.releaseBuild s).inputs = s.inputs := rfl
@[simp] theorem releaseBuild_rdata (s : State) : (State.releaseBuild s).rdata = s.rdata := rfl
@[simp] theorem releaseBuild_fresh (s : State) : (State.releaseBuild s).fresh = s.fresh := rfl

/-! ### `setBadacc` -/

@[simp] theorem setBadacc_config (s : State) : (State.setBadacc s).config = s.config := rfl
@[simp] theorem setBadacc_status (s : State) :
    (State.setBadacc s).status = { s.status with badacc := true } := rfl
@[simp] theorem setBadacc_ien (s : State) : (State.setBadacc s).ien = s.ien := rfl
@[simp] theorem setBadacc_k (s : State) : (State.setBadacc s).k = s.k := rfl
@[simp] theorem setBadacc_n (s : State) : (State.setBadacc s).n = s.n := rfl
@[simp] theorem setBadacc_grows (s : State) : (State.setBadacc s).grows = s.grows := rfl
@[simp] theorem setBadacc_gcols (s : State) : (State.setBadacc s).gcols = s.gcols := rfl
@[simp] theorem setBadacc_grow (s : State) : (State.setBadacc s).grow = s.grow := rfl
@[simp] theorem setBadacc_prow (s : State) : (State.setBadacc s).prow = s.prow := rfl
@[simp] theorem setBadacc_vin (s : State) : (State.setBadacc s).vin = s.vin := rfl
@[simp] theorem setBadacc_vout (s : State) : (State.setBadacc s).vout = s.vout := rfl
@[simp] theorem setBadacc_synd (s : State) : (State.setBadacc s).synd = s.synd := rfl
@[simp] theorem setBadacc_wgt (s : State) : (State.setBadacc s).wgt = s.wgt := rfl
@[simp] theorem setBadacc_tcnt (s : State) : (State.setBadacc s).tcnt = s.tcnt := rfl
@[simp] theorem setBadacc_pend (s : State) : (State.setBadacc s).pend = s.pend := rfl
@[simp] theorem setBadacc_tmem (s : State) : (State.setBadacc s).tmem = s.tmem := rfl
@[simp] theorem setBadacc_decWork (s : State) : (State.setBadacc s).decWork = s.decWork := rfl
@[simp] theorem setBadacc_buildWork (s : State) : (State.setBadacc s).buildWork = s.buildWork := rfl
@[simp] theorem setBadacc_inputs (s : State) : (State.setBadacc s).inputs = s.inputs := rfl
@[simp] theorem setBadacc_rdata (s : State) : (State.setBadacc s).rdata = s.rdata := rfl
@[simp] theorem setBadacc_fresh (s : State) : (State.setBadacc s).fresh = s.fresh := rfl

/-! ### `setOvr` -/

@[simp] theorem setOvr_config (s : State) : (State.setOvr s).config = s.config := rfl
@[simp] theorem setOvr_status (s : State) :
    (State.setOvr s).status = { s.status with ovr := true } := rfl
@[simp] theorem setOvr_ien (s : State) : (State.setOvr s).ien = s.ien := rfl
@[simp] theorem setOvr_k (s : State) : (State.setOvr s).k = s.k := rfl
@[simp] theorem setOvr_n (s : State) : (State.setOvr s).n = s.n := rfl
@[simp] theorem setOvr_grows (s : State) : (State.setOvr s).grows = s.grows := rfl
@[simp] theorem setOvr_gcols (s : State) : (State.setOvr s).gcols = s.gcols := rfl
@[simp] theorem setOvr_grow (s : State) : (State.setOvr s).grow = s.grow := rfl
@[simp] theorem setOvr_prow (s : State) : (State.setOvr s).prow = s.prow := rfl
@[simp] theorem setOvr_vin (s : State) : (State.setOvr s).vin = s.vin := rfl
@[simp] theorem setOvr_vout (s : State) : (State.setOvr s).vout = s.vout := rfl
@[simp] theorem setOvr_synd (s : State) : (State.setOvr s).synd = s.synd := rfl
@[simp] theorem setOvr_wgt (s : State) : (State.setOvr s).wgt = s.wgt := rfl
@[simp] theorem setOvr_tcnt (s : State) : (State.setOvr s).tcnt = s.tcnt := rfl
@[simp] theorem setOvr_pend (s : State) : (State.setOvr s).pend = s.pend := rfl
@[simp] theorem setOvr_tmem (s : State) : (State.setOvr s).tmem = s.tmem := rfl
@[simp] theorem setOvr_decWork (s : State) : (State.setOvr s).decWork = s.decWork := rfl
@[simp] theorem setOvr_buildWork (s : State) : (State.setOvr s).buildWork = s.buildWork := rfl
@[simp] theorem setOvr_inputs (s : State) : (State.setOvr s).inputs = s.inputs := rfl
@[simp] theorem setOvr_rdata (s : State) : (State.setOvr s).rdata = s.rdata := rfl
@[simp] theorem setOvr_fresh (s : State) : (State.setOvr s).fresh = s.fresh := rfl

/-! ### `setWlock` -/

@[simp] theorem setWlock_config (s : State) : (State.setWlock s).config = s.config := rfl
@[simp] theorem setWlock_status (s : State) :
    (State.setWlock s).status = { s.status with wlock := true } := rfl
@[simp] theorem setWlock_ien (s : State) : (State.setWlock s).ien = s.ien := rfl
@[simp] theorem setWlock_k (s : State) : (State.setWlock s).k = s.k := rfl
@[simp] theorem setWlock_n (s : State) : (State.setWlock s).n = s.n := rfl
@[simp] theorem setWlock_grows (s : State) : (State.setWlock s).grows = s.grows := rfl
@[simp] theorem setWlock_gcols (s : State) : (State.setWlock s).gcols = s.gcols := rfl
@[simp] theorem setWlock_grow (s : State) : (State.setWlock s).grow = s.grow := rfl
@[simp] theorem setWlock_prow (s : State) : (State.setWlock s).prow = s.prow := rfl
@[simp] theorem setWlock_vin (s : State) : (State.setWlock s).vin = s.vin := rfl
@[simp] theorem setWlock_vout (s : State) : (State.setWlock s).vout = s.vout := rfl
@[simp] theorem setWlock_synd (s : State) : (State.setWlock s).synd = s.synd := rfl
@[simp] theorem setWlock_wgt (s : State) : (State.setWlock s).wgt = s.wgt := rfl
@[simp] theorem setWlock_tcnt (s : State) : (State.setWlock s).tcnt = s.tcnt := rfl
@[simp] theorem setWlock_pend (s : State) : (State.setWlock s).pend = s.pend := rfl
@[simp] theorem setWlock_tmem (s : State) : (State.setWlock s).tmem = s.tmem := rfl
@[simp] theorem setWlock_decWork (s : State) : (State.setWlock s).decWork = s.decWork := rfl
@[simp] theorem setWlock_buildWork (s : State) : (State.setWlock s).buildWork = s.buildWork := rfl
@[simp] theorem setWlock_inputs (s : State) : (State.setWlock s).inputs = s.inputs := rfl
@[simp] theorem setWlock_rdata (s : State) : (State.setWlock s).rdata = s.rdata := rfl
@[simp] theorem setWlock_fresh (s : State) : (State.setWlock s).fresh = s.fresh := rfl

/-! ### `toReset` -/

@[simp] theorem toReset_config (s : State) : (State.toReset s).config = s.config := rfl
@[simp] theorem toReset_status (s : State) : (State.toReset s).status = Status.reset := rfl
@[simp] theorem toReset_ien (s : State) : (State.toReset s).ien = IntEnable.reset := rfl
@[simp] theorem toReset_k (s : State) : (State.toReset s).k = 0 := rfl
@[simp] theorem toReset_n (s : State) : (State.toReset s).n = 0 := rfl
@[simp] theorem toReset_grows (s : State) : (State.toReset s).grows = 0 := rfl
@[simp] theorem toReset_gcols (s : State) : (State.toReset s).gcols = 0 := rfl
@[simp] theorem toReset_grow (s : State) : (State.toReset s).grow = RowFile.reset := rfl
@[simp] theorem toReset_prow (s : State) : (State.toReset s).prow = RowFile.reset := rfl
@[simp] theorem toReset_vin (s : State) : (State.toReset s).vin = 0 := rfl
@[simp] theorem toReset_vout (s : State) : (State.toReset s).vout = 0 := rfl
@[simp] theorem toReset_synd (s : State) : (State.toReset s).synd = 0 := rfl
@[simp] theorem toReset_wgt (s : State) : (State.toReset s).wgt = 0 := rfl
@[simp] theorem toReset_tcnt (s : State) : (State.toReset s).tcnt = 0 := rfl
@[simp] theorem toReset_pend (s : State) : (State.toReset s).pend = 0 := rfl
@[simp] theorem toReset_tmem (s : State) : (State.toReset s).tmem = [] := rfl
@[simp] theorem toReset_decWork (s : State) : (State.toReset s).decWork = DecWork.reset := rfl
@[simp] theorem toReset_buildWork (s : State) : (State.toReset s).buildWork = BuildWork.reset := rfl
@[simp] theorem toReset_inputs (s : State) : (State.toReset s).inputs = s.inputs := rfl
@[simp] theorem toReset_rdata (s : State) : (State.toReset s).rdata = s.rdata := rfl
@[simp] theorem toReset_fresh (s : State) : (State.toReset s).fresh = s.fresh := rfl

end Sys2Proof.Machine
end

