-- ==== Sys2Proof/Laws/Exec.lean ====
section
/-! SUPPORT. What each shared operation, each meaning and the step can do: one inversion lemma each, and
the forward lemmas of dispatch. -/

namespace Sys2Proof.Machine

open Sys2Proof

/-! ### Dispatch (44_control.md R122) -/

theorem dispatch_cases {s t : State} {gate : Bool} {body : State → State}
    (h : s.dispatch gate body = .next t) :
    (s.status.fatal = true ∧ t = s.raise .eFatal) ∨
    (s.status.fatal = false ∧ gate = false ∧ t = s.raise .eSeq) ∨
    (s.status.fatal = false ∧ gate = true ∧ t = body s) := by
  rw [State.dispatch] at h
  cases hf : s.status.fatal <;> cases hg : gate <;> simp_all

theorem dispatchCoded_cases {s t : State} {gate : Bool} {body : State → State}
    (h : s.dispatchCoded gate body = .next t) :
    (s.status.fatal = true ∧ t = s.raise .eFatal) ∨
    (s.status.fatal = false ∧ gate = false ∧ t = s.raise .eSeq) ∨
    (s.status.fatal = false ∧ gate = true ∧ s.paramsLegal = true ∧ t = body s) := by
  rw [State.dispatchCoded] at h
  split at h
  · rename_i hp
    rcases dispatch_cases h with h | h | ⟨hf, hg, ht⟩
    · exact .inl h
    · exact .inr (.inl h)
    · refine .inr (.inr ⟨hf, hg, ?_, ht⟩)
      simpa [hf, hg] using hp
  · cases h

theorem dispatch_fatal {s : State} (gate : Bool) (body : State → State) (h : s.status.fatal = true) :
    s.dispatch gate body = .next (s.raise .eFatal) := by
  rw [State.dispatch, if_pos h]

theorem dispatch_gate {s : State} (body : State → State) (h : s.status.fatal = false) :
    s.dispatch false body = .next (s.raise .eSeq) := by
  simp [State.dispatch, h]

theorem dispatch_body {s : State} (body : State → State) (h : s.status.fatal = false) :
    s.dispatch true body = .next (body s) := by
  simp [State.dispatch, h]

theorem dispatchCoded_fatal {s : State} (gate : Bool) (body : State → State)
    (h : s.status.fatal = true) : s.dispatchCoded gate body = .next (s.raise .eFatal) := by
  simp [State.dispatchCoded, State.dispatch, h]

theorem dispatchCoded_gate {s : State} (body : State → State) (h : s.status.fatal = false) :
    s.dispatchCoded false body = .next (s.raise .eSeq) := by
  simp [State.dispatchCoded, State.dispatch, h]

theorem dispatchCoded_body {s : State} (body : State → State) (h : s.status.fatal = false)
    (hp : s.paramsLegal = true) : s.dispatchCoded true body = .next (body s) := by
  simp [State.dispatchCoded, State.dispatch, h, hp]

theorem dispatchCoded_illegal {s : State} (body : State → State) (h : s.status.fatal = false)
    (hp : s.paramsLegal = false) : s.dispatchCoded true body = .fault .codeParametersIllegal := by
  simp [State.dispatchCoded, h, hp]

/-! ### The command bodies: each fails with a code or completes with its writes -/

theorem cfgBody_cases (s : State) :
    (∃ c, c ∈ [Code.eK, .eN, .eNmax, .eShape] ∧ s.cfgError = some c ∧ cfgBody s = s.raise c) ∨
    (s.cfgError = none ∧ cfgBody s =
      State.complete { s with prow := s.parityRows, status := { s.status with cfgv := true } } .ok) := by
  cases h : s.cfgError with
  | none => exact .inr ⟨rfl, by rw [cfgBody, h]⟩
  | some c =>
    refine .inl ⟨c, ?_, rfl, by rw [cfgBody, h]⟩
    rw [State.cfgError] at h
    split at h
    · cases h; simp
    split at h
    · cases h; simp
    split at h
    · cases h; simp
    split at h
    · cases h; simp
    split at h
    · cases h; simp
    · cases h

theorem synBody_cases (s : State) :
    (strayBits s.nLen s.vin ≠ 0 ∧ synBody s = s.raise .eVlen) ∨
    (strayBits s.nLen s.vin = 0 ∧
      synBody s = State.complete { s with synd := s.syndromeOf s.vin } .ok) := by
  by_cases h : strayBits s.nLen s.vin = 0
  · exact .inr ⟨h, by rw [synBody, if_neg (not_not.mpr h)]⟩
  · exact .inl ⟨h, by rw [synBody, if_pos h]⟩

theorem encBody_cases (s : State) :
    (strayBits s.kLen s.vin ≠ 0 ∧ encBody s = s.raise .eVlen) ∨
    (strayBits s.kLen s.vin = 0 ∧
      encBody s = State.complete { s with vout := s.encodeOf s.vin } .ok) := by
  by_cases h : strayBits s.kLen s.vin = 0
  · exact .inr ⟨h, by rw [encBody, if_neg (not_not.mpr h)]⟩
  · exact .inl ⟨h, by rw [encBody, if_pos h]⟩

theorem ldwBody_cases (s : State) :
    (strayBits s.rLen s.vin ≠ 0 ∧ ldwBody s = s.raise .eVlen) ∨
    (strayBits s.rLen s.vin = 0 ∧ (s.tmem.read s.vin.toNat).valid = false ∧
      ldwBody s = s.raise .eMiss) ∨
    (strayBits s.rLen s.vin = 0 ∧ (s.tmem.read s.vin.toNat).valid = true ∧
      ldwBody s =
        State.complete { s with wgt := (s.tmem.read s.vin.toNat).weight.setWidth 32 } .ok) := by
  by_cases h : strayBits s.rLen s.vin = 0
  · cases hv : (s.tmem.read s.vin.toNat).valid
    · exact .inr (.inl ⟨h, rfl, by simp [ldwBody, h, hv]⟩)
    · exact .inr (.inr ⟨h, rfl, by simp [ldwBody, h, hv]⟩)
  · exact .inl ⟨h, by rw [ldwBody, if_pos h]⟩

/-- How the decoding of `VIN` ends in state `s`. -/
theorem decBody_cases (s : State) :
    (strayBits s.nLen s.vin ≠ 0 ∧ decBody s = s.raise .eVlen) ∨
    (strayBits s.nLen s.vin = 0 ∧
      ((∃ v, decodeVector s.syndromeOf (lookup s.tmem) s.nLen s.vin = .zero v ∧
          decBody s = State.complete { s.releaseDec with vout := v } .ok) ∨
        (decodeVector s.syndromeOf (lookup s.tmem) s.nLen s.vin = .miss ∧
          decBody s = s.releaseDec.raise .eMiss) ∨
        (decodeVector s.syndromeOf (lookup s.tmem) s.nLen s.vin = .noconv ∧
          decBody s = s.releaseDec.raise .eNoconv))) := by
  by_cases h : strayBits s.nLen s.vin = 0
  · refine .inr ⟨h, ?_⟩
    cases hd : decodeVector s.syndromeOf (lookup s.tmem) s.nLen s.vin with
    | zero v => exact .inl ⟨v, rfl, by simp [decBody, h, hd]⟩
    | miss => exact .inr (.inl ⟨rfl, by simp [decBody, h, hd]⟩)
    | noconv => exact .inr (.inr ⟨rfl, by simp [decBody, h, hd]⟩)
  · exact .inl ⟨h, by rw [decBody, if_pos h]⟩

theorem buildBody_cases (s : State) :
    (s.enumerate.2 ≠ BitVec.ofNat 32 (2 ^ s.rLen) ∧
      buildBody s =
        State.raise { s.releaseBuild with tmem := s.enumerate.1, tcnt := s.enumerate.2 } .eRank) ∨
    (s.enumerate.2 = BitVec.ofNat 32 (2 ^ s.rLen) ∧
      buildBody s =
        State.complete { s.releaseBuild with
          tmem := s.enumerate.1
          tcnt := s.enumerate.2
          status := { s.status with tblv := true } } .ok) := by
  by_cases h : s.enumerate.2 = BitVec.ofNat 32 (2 ^ s.rLen)
  · refine .inr ⟨h, ?_⟩
    have h' : s.enumerate.2 = BitVec.ofNat 32 (2 ^ s.releaseBuild.rLen) := h
    simp only [buildBody, State.publish, h', ne_eq, not_true_eq_false, if_false]
    rfl
  · refine .inl ⟨h, ?_⟩
    have h' : ¬ s.enumerate.2 = BitVec.ofNat 32 (2 ^ s.releaseBuild.rLen) := h
    simp only [buildBody, State.publish, h', ne_eq, not_false_eq_true, if_true]

/-! ### The host's transactions (20_memory.md R42, R43) -/

/-- What a write to a mapped, writable register does. -/
theorem writeReg_cases (s : State) (q : Reg) (d : Word) :
    (q = .status ∧ s.writeReg q d = { s with status := s.status.writeOneToClear d }) ∨
    (q = .ien ∧ s.writeReg q d = { s with ien := IntEnable.ofWord d }) ∨
    (q ≠ .status ∧ q ≠ .ien ∧ s.status.busy = true ∧ s.writeReg q d = s.setOvr) ∨
    (q.lockable = true ∧ s.status.busy = false ∧ s.status.cfgv = true ∧
      s.writeReg q d = s.setWlock) ∨
    (q = .cmd ∧ s.status.busy = false ∧ s.writeReg q d = s.issue d) ∨
    (q ≠ .status ∧ q ≠ .ien ∧ q ≠ .cmd ∧ s.status.busy = false ∧
      (q.lockable = true → s.status.cfgv = false) ∧ s.writeReg q d = s.storeReg d q) := by
  cases hb : s.status.busy <;> cases hc : s.status.cfgv <;> cases q <;>
    simp [State.writeReg, hb, hc, Reg.lockable]

theorem hostWrite_cases (s : State) (a : Nat) (d : Word) :
    s.hostWrite a d = s.setBadacc ∨
    ∃ q, Reg.ofIndex s.config.nmax a = some q ∧ q.readOnly = false ∧
      s.hostWrite a d = s.writeReg q d := by
  rw [State.hostWrite]
  cases h : Reg.ofIndex s.config.nmax a with
  | none => exact .inl rfl
  | some q =>
    cases hq : q.readOnly
    · exact .inr ⟨q, rfl, hq, by simp [hq]⟩
    · exact .inl (by simp [hq])

theorem hostRead_cases (s : State) (a : Nat) :
    (Reg.ofIndex s.config.nmax a = none ∧ s.hostRead a = { s.setBadacc with rdata := 0 }) ∨
    ∃ q, Reg.ofIndex s.config.nmax a = some q ∧ s.hostRead a = { s with rdata := s.readReg q } := by
  rw [State.hostRead]
  cases h : Reg.ofIndex s.config.nmax a with
  | none => exact .inl ⟨rfl, rfl⟩
  | some q => exact .inr ⟨q, rfl, rfl⟩

theorem execWr_cases {a : Nat} {d : Word} {s t : State} (h : exec (.wr a d) s = .next t) :
    a < wordCount ∧ t = s.hostWrite a d := by
  simp only [exec, execWr] at h
  split at h
  · rename_i ha
    cases h
    exact ⟨ha, rfl⟩
  · cases h

theorem execRd_cases {a : Nat} {s t : State} (h : exec (.rd a) s = .next t) :
    a < wordCount ∧ t = s.hostRead a := by
  simp only [exec, execRd] at h
  split at h
  · rename_i ha
    cases h
    exact ⟨ha, rfl⟩
  · cases h

/-- The register at a word index: one of the fixed ones at its own index, or a row that exists. -/
theorem ofIndex_cases {nmax a : Nat} {q : Reg} (h : Reg.ofIndex nmax a = some q) :
    (a, q) ∈ fixedRegs ∨ (∃ i, q = .grow i ∧ i < nmax ∧ a = 64 + i) ∨
      ∃ i, q = .prow i ∧ i < nmax ∧ a = 96 + i := by
  rw [Reg.ofIndex] at h
  split at h
  · rename_i c hc
    cases h
    have ha := List.find?_some hc
    rw [beq_iff_eq] at ha
    exact .inl (ha ▸ List.mem_of_find?_eq_some hc)
  · rw [Reg.ofRowIndex] at h
    split at h
    · cases h
      exact .inr (.inl ⟨_, rfl, by omega, by omega⟩)
    · split at h
      · cases h
        exact .inr (.inr ⟨_, rfl, by omega, by omega⟩)
      · cases h

/-- A row register that the map names exists (20_memory.md R41). -/
theorem grow_exists_of_ofIndex {nmax a i : Nat} (h : Reg.ofIndex nmax a = some (.grow i)) :
    i < nmax ∧ a = 64 + i := by
  rcases ofIndex_cases h with h | ⟨j, hj, hlt, ha⟩ | ⟨j, hj, _⟩
  · simp [fixedRegs] at h
  · cases hj
    exact ⟨hlt, ha⟩
  · cases hj

theorem ofIndex_grow {nmax i : Nat} (h : i < nmax) :
    Reg.ofIndex nmax (64 + i) = some (.grow i) := by
  have : fixedRegs.find? (fun c => c.1 == 64 + i) = none := by
    simp [fixedRegs]
    omega
  simp [Reg.ofIndex, this, Reg.ofRowIndex, h]

theorem ofIndex_prow {nmax i : Nat} (h32 : nmax ≤ 32) (h : i < nmax) :
    Reg.ofIndex nmax (96 + i) = some (.prow i) := by
  have : fixedRegs.find? (fun c => c.1 == 96 + i) = none := by
    simp [fixedRegs]
    omega
  simp [Reg.ofIndex, this, Reg.ofRowIndex, h]
  omega

/-- The unmapped words of the register map (20_memory.md R41, R47). -/
theorem ofIndex_unmapped {nmax a : Nat} (h32 : nmax ≤ 32)
    (h : (4 < a ∧ a < 8) ∨ (11 < a ∧ a < 16) ∨ (20 < a ∧ a < 64) ∨ (64 + nmax ≤ a ∧ a < 96) ∨
      96 + nmax ≤ a) : Reg.ofIndex nmax a = none := by
  cases hq : Reg.ofIndex nmax a with
  | none => rfl
  | some q =>
    exfalso
    rcases ofIndex_cases hq with h' | ⟨i, _, hi, ha⟩ | ⟨i, _, hi, ha⟩
    · simp only [fixedRegs, List.mem_cons, Prod.mk.injEq, List.not_mem_nil, or_false] at h'
      omega
    · omega
    · omega

/-! ### The step -/

@[simp] theorem afterInput_status (s : State) : s.afterInput.status = s.status := rfl
@[simp] theorem afterInput_pend (s : State) : s.afterInput.pend = s.pend := rfl
@[simp] theorem afterInput_inputs (s : State) :
    s.afterInput.inputs = remaining s.status.busy s.inputs := rfl

/-- With nothing left to do, nothing is taken. -/
theorem afterInput_nil {s : State} (h : s.inputs = []) : s.afterInput = s := by
  rw [State.afterInput, h, remaining, ← h]

/-! What the next step is, input by input. -/

theorem step_nil {s : State} (h : s.inputs = []) : step s = engineTurn s := by
  simp only [step, runNext, h, afterInput_nil h]

theorem step_txn {s : State} {t : Record} {rest : List Input} (h : s.inputs = .txn t :: rest) :
    step s = hostTurn t { s with inputs := rest } := by
  simp only [step, runNext, h, State.afterInput, remaining]

theorem step_engine {s : State} {rest : List Input} (h : s.inputs = .engine :: rest) :
    step s = engineTurn { s with inputs := rest } := by
  simp only [step, runNext, h, State.afterInput, remaining]

theorem step_rstPin {s : State} {rest : List Input} (h : s.inputs = .rstPin :: rest) :
    step s = .next (State.toReset { s with inputs := rest }) := by
  simp only [step, runNext, h, State.afterInput, remaining, pinTurn]

/-- A poll finds `BUSY = 1`, and the host goes on waiting (30_encoding.md R67). -/
theorem step_wait_poll {s : State} {polls : Nat} {rest : List Input} (hb : s.status.busy = true)
    (h : s.inputs = .wait (polls + 1) :: rest) :
    step s = .next { s with inputs := .wait polls :: rest, rdata := s.status.word } := by
  simp only [step, runNext, h, State.afterInput, remaining, hb, waitTurn]
  rfl

/-- The polls are done: the engine completes, and the host still waits. -/
theorem step_wait_complete {s : State} {rest : List Input} (hb : s.status.busy = true)
    (h : s.inputs = .wait 0 :: rest) : step s = engineTurn s := by
  have he : s.afterInput = s := by
    simp only [State.afterInput, h, hb, remaining, if_true, Nat.zero_sub]
    rw [← h]
  simp only [step, runNext, h, he, waitTurn, hb]
  rfl

/-- The read that finds `BUSY = 0` ends the wait. -/
theorem step_wait_idle {s : State} {polls : Nat} {rest : List Input} (hb : s.status.busy = false)
    (h : s.inputs = .wait polls :: rest) :
    step s = .next { s with inputs := rest, rdata := s.status.word } := by
  simp only [step, runNext, h, State.afterInput, remaining, hb, waitTurn]
  rfl

/-! What a step can do, once for all inputs. -/

/-- Everything the engine's turn can do: complete a legal or an illegal word, or wait. -/
theorem engineTurn_cases {s t : State} (h : engineTurn s = .next t) :
    (s.status.busy = true ∧ ∃ i, decodeCommand s.pend = .ok i ∧ exec i s = .next t) ∨
    (s.status.busy = true ∧ (∃ e, decodeCommand s.pend = .error e) ∧ t = s.raise .eIllcmd) ∨
    (s.status.busy = false ∧ t = s) := by
  rw [engineTurn, completePending] at h
  cases hb : s.status.busy
  · rw [hb] at h
    cases h
    exact .inr (.inr ⟨rfl, rfl⟩)
  · rw [hb] at h
    cases hd : decodeCommand s.pend with
    | ok i =>
      rw [hd] at h
      exact .inl ⟨rfl, i, rfl, h⟩
    | error e =>
      rw [hd] at h
      cases h
      exact .inr (.inl ⟨rfl, ⟨e, rfl⟩, rfl⟩)

/-- Everything one turn of `wait` can do: the engine's turn, while a command is in flight and the polls
are done, or a read of `STATUS`. -/
theorem waitTurn_cases {polls : Nat} {s t : State} (h : waitTurn polls s = .next t) :
    (s.status.busy = true ∧ polls = 0 ∧ engineTurn s = .next t) ∨
    ((s.status.busy = true → polls ≠ 0) ∧ t = { s with rdata := s.status.word }) := by
  rw [waitTurn] at h
  split at h
  · rename_i hc
    rw [Bool.and_eq_true, beq_iff_eq] at hc
    exact .inl ⟨hc.1, hc.2, h⟩
  · rename_i hc
    rw [Bool.and_eq_true, beq_iff_eq, not_and] at hc
    cases h
    exact .inr ⟨hc, rfl⟩

/-- Everything a step can do: the engine completes a legal or an illegal word, or is idle; the host
performs a transaction, that of a `wait` included; the `rst` pin resets. -/
theorem step_cases {s t : State} (h : step s = .next t) :
    (s.status.busy = true ∧ ∃ i, decodeCommand s.pend = .ok i ∧ exec i s.afterInput = .next t) ∨
    (s.status.busy = true ∧ (∃ e, decodeCommand s.pend = .error e) ∧
      t = s.afterInput.raise .eIllcmd) ∨
    (s.status.busy = false ∧ t = s.afterInput) ∨
    (∃ r, exec (decodeBus r) s.afterInput = .next t) ∨
    t = s.afterInput.toReset := by
  have engine : engineTurn s.afterInput = .next t →
      (s.status.busy = true ∧ ∃ i, decodeCommand s.pend = .ok i ∧ exec i s.afterInput = .next t) ∨
      (s.status.busy = true ∧ (∃ e, decodeCommand s.pend = .error e) ∧
        t = s.afterInput.raise .eIllcmd) ∨
      (s.status.busy = false ∧ t = s.afterInput) ∨
      (∃ r, exec (decodeBus r) s.afterInput = .next t) ∨
      t = s.afterInput.toReset := by
    intro h
    rcases engineTurn_cases h with h | h | h
    · exact .inl h
    · exact .inr (.inl h)
    · exact .inr (.inr (.inl h))
  rw [step, runNext] at h
  split at h
  · exact engine h
  · exact .inr (.inr (.inr (.inl ⟨_, h⟩)))
  · exact engine h
  · cases h
    exact .inr (.inr (.inr (.inr rfl)))
  · rcases waitTurn_cases h with ⟨_, _, h⟩ | ⟨_, rfl⟩
    · exact engine h
    · exact .inr (.inr (.inr (.inl ⟨statusRead, rfl⟩)))

end Sys2Proof.Machine
end

