-- ==== Sys2Proof/Laws/Commands.lean ====
section
/-! SUPPORT. Everything a command other than `RST` can do, once for all six: what later proofs split on
instead of unfolding exec. -/

namespace Sys2Proof.Machine

open Sys2Proof

/-- The six commands other than `RST`. -/
def IsCommand (i : Instr) : Prop :=
  i = .cfg ∨ i = .build ∨ i = .enc ∨ i = .dec ∨ i = .syn ∨ i = .ldw

/-- Everything a command past its gate can do from `s`, with the conditions under which it does. -/
inductive Ran (s t : State) : Instr → Prop where
  | cfg (gate : s.status.cfgv = false) (he : s.cfgError = none)
      (ht : t = State.complete
        { s with prow := s.parityRows, status := { s.status with cfgv := true } } .ok) : Ran s t .cfg
  | cfgError {c : Code} (gate : s.status.cfgv = false) (hc : c ∈ [Code.eK, .eN, .eNmax, .eShape])
      (he : s.cfgError = some c) (ht : t = s.raise c) : Ran s t .cfg
  | build (gate : s.status.cfgv = true) (once : s.status.tblv = false) (hp : s.paramsLegal = true)
      (ht : t = buildBody s) : Ran s t .build
  | enc (gate : s.status.cfgv = true) (hp : s.paramsLegal = true) (hv : strayBits s.kLen s.vin = 0)
      (ht : t = State.complete { s with vout := s.encodeOf s.vin } .ok) : Ran s t .enc
  | encStray (gate : s.status.cfgv = true) (hp : s.paramsLegal = true)
      (hv : strayBits s.kLen s.vin ≠ 0) (ht : t = s.raise .eVlen) : Ran s t .enc
  | syn (gate : s.status.cfgv = true) (hp : s.paramsLegal = true) (hv : strayBits s.nLen s.vin = 0)
      (ht : t = State.complete { s with synd := s.syndromeOf s.vin } .ok) : Ran s t .syn
  | synStray (gate : s.status.cfgv = true) (hp : s.paramsLegal = true)
      (hv : strayBits s.nLen s.vin ≠ 0) (ht : t = s.raise .eVlen) : Ran s t .syn
  | ldw (gate : s.status.tblv = true) (hp : s.paramsLegal = true) (hv : strayBits s.rLen s.vin = 0)
      (hm : (s.tmem.read s.vin.toNat).valid = true)
      (ht : t = State.complete
        { s with wgt := (s.tmem.read s.vin.toNat).weight.setWidth 32 } .ok) : Ran s t .ldw
  | ldwMiss (gate : s.status.tblv = true) (hp : s.paramsLegal = true)
      (hv : strayBits s.rLen s.vin = 0) (hm : (s.tmem.read s.vin.toNat).valid = false)
      (ht : t = s.raise .eMiss) : Ran s t .ldw
  | ldwStray (gate : s.status.tblv = true) (hp : s.paramsLegal = true)
      (hv : strayBits s.rLen s.vin ≠ 0) (ht : t = s.raise .eVlen) : Ran s t .ldw
  | dec {v : Word} (gate : s.status.tblv = true) (hp : s.paramsLegal = true)
      (hv : strayBits s.nLen s.vin = 0)
      (hd : decodeVector s.syndromeOf (lookup s.tmem) s.nLen s.vin = .zero v)
      (ht : t = State.complete { s.releaseDec with vout := v } .ok) : Ran s t .dec
  | decMiss (gate : s.status.tblv = true) (hp : s.paramsLegal = true)
      (hv : strayBits s.nLen s.vin = 0)
      (hd : decodeVector s.syndromeOf (lookup s.tmem) s.nLen s.vin = .miss)
      (ht : t = s.releaseDec.raise .eMiss) : Ran s t .dec
  | decNoconv (gate : s.status.tblv = true) (hp : s.paramsLegal = true)
      (hv : strayBits s.nLen s.vin = 0)
      (hd : decodeVector s.syndromeOf (lookup s.tmem) s.nLen s.vin = .noconv)
      (ht : t = s.releaseDec.raise .eNoconv) : Ran s t .dec
  | decStray (gate : s.status.tblv = true) (hp : s.paramsLegal = true)
      (hv : strayBits s.nLen s.vin ≠ 0) (ht : t = s.raise .eVlen) : Ran s t .dec

/-- A command ends with `E_FATAL`, with `E_SEQ` where its gate fails, or runs. -/
theorem command_cases {i : Instr} {s t : State} (hi : IsCommand i) (h : exec i s = .next t) :
    (s.status.fatal = true ∧ t = s.raise .eFatal) ∨
    (s.status.fatal = false ∧ t = s.raise .eSeq ∧ (i = .cfg → s.status.cfgv = true) ∧
      (i = .build → s.status.cfgv = false ∨ s.status.tblv = true) ∧
      (i = .enc ∨ i = .syn → s.status.cfgv = false) ∧
      (i = .dec ∨ i = .ldw → s.status.tblv = false)) ∨
    (s.status.fatal = false ∧ Ran s t i) := by
  rcases hi with rfl | rfl | rfl | rfl | rfl | rfl
  · rcases dispatch_cases h with h | ⟨h1, h2, h3⟩ | ⟨h1, h2, h3⟩
    · exact .inl h
    · exact .inr (.inl ⟨h1, h3, by simpa [Status.gateCfg] using h2⟩)
    · have h2 : s.status.cfgv = false := by simpa [Status.gateCfg] using h2
      refine .inr (.inr ⟨h1, ?_⟩)
      rcases cfgBody_cases s with ⟨c, hc, he, hb⟩ | ⟨he, hb⟩
      · exact .cfgError h2 hc he (h3.trans hb)
      · exact .cfg h2 he (h3.trans hb)
  · rcases dispatchCoded_cases h with h | ⟨h1, h2, h3⟩ | ⟨h1, h2, hp, h3⟩
    · exact .inl h
    · refine .inr (.inl ⟨h1, h3, by simp, fun _ => ?_, by simp, by simp⟩)
      cases hc : s.status.cfgv <;> cases ht : s.status.tblv <;> simp_all [Status.gateBuild]
    · have h2 : s.status.cfgv = true ∧ s.status.tblv = false := by simpa [Status.gateBuild] using h2
      exact .inr (.inr ⟨h1, .build h2.1 h2.2 hp h3⟩)
  · rcases dispatchCoded_cases h with h | ⟨h1, h2, h3⟩ | ⟨h1, h2, hp, h3⟩
    · exact .inl h
    · exact .inr (.inl ⟨h1, h3, by simpa [Status.gateCode] using h2⟩)
    · refine .inr (.inr ⟨h1, ?_⟩)
      rcases encBody_cases s with ⟨hv, hb⟩ | ⟨hv, hb⟩
      · exact .encStray h2 hp hv (h3.trans hb)
      · exact .enc h2 hp hv (h3.trans hb)
  · rcases dispatchCoded_cases h with h | ⟨h1, h2, h3⟩ | ⟨h1, h2, hp, h3⟩
    · exact .inl h
    · exact .inr (.inl ⟨h1, h3, by simpa [Status.gateTable] using h2⟩)
    · refine .inr (.inr ⟨h1, ?_⟩)
      rcases decBody_cases s with ⟨hv, hb⟩ | ⟨hv, ⟨v, hd, hb⟩ | ⟨hd, hb⟩ | ⟨hd, hb⟩⟩
      · exact .decStray h2 hp hv (h3.trans hb)
      · exact .dec h2 hp hv hd (h3.trans hb)
      · exact .decMiss h2 hp hv hd (h3.trans hb)
      · exact .decNoconv h2 hp hv hd (h3.trans hb)
  · rcases dispatchCoded_cases h with h | ⟨h1, h2, h3⟩ | ⟨h1, h2, hp, h3⟩
    · exact .inl h
    · exact .inr (.inl ⟨h1, h3, by simpa [Status.gateCode] using h2⟩)
    · refine .inr (.inr ⟨h1, ?_⟩)
      rcases synBody_cases s with ⟨hv, hb⟩ | ⟨hv, hb⟩
      · exact .synStray h2 hp hv (h3.trans hb)
      · exact .syn h2 hp hv (h3.trans hb)
  · rcases dispatchCoded_cases h with h | ⟨h1, h2, h3⟩ | ⟨h1, h2, hp, h3⟩
    · exact .inl h
    · exact .inr (.inl ⟨h1, h3, by simpa [Status.gateTable] using h2⟩)
    · refine .inr (.inr ⟨h1, ?_⟩)
      rcases ldwBody_cases s with ⟨hv, hb⟩ | ⟨hv, hm, hb⟩ | ⟨hv, hm, hb⟩
      · exact .ldwStray h2 hp hv (h3.trans hb)
      · exact .ldwMiss h2 hp hv hm (h3.trans hb)
      · exact .ldw h2 hp hv hm (h3.trans hb)

end Sys2Proof.Machine
end

