-- ==== Sys2Proof/Laws/Encoding.lean ====
section
/-! SUPPORT. The fields of command words and transaction records, and how a record is made of them. -/

namespace Sys2Proof

/-! ### Records (30_encoding.md R65) -/

theorem getLsbD_mkRecord (we : Bool) (a : Nat) (d : Word) (i : Nat) :
    (mkRecord we a d).getLsbD i =
      if i < 32 then d.getLsbD i
      else if i - 32 < 7 then (BitVec.ofNat 7 a).getLsbD (i - 32)
      else decide (i = 39) && we := by
  show (BitVec.ofBool we ++ BitVec.ofNat 7 a ++ d : BitVec (1 + 7 + 32)).getLsbD i = _
  rw [BitVec.getLsbD_append]
  by_cases h : i < 32
  · simp [h]
  · rw [if_neg h, BitVec.getLsbD_append]
    by_cases h2 : i - 32 < 7
    · simp [h, h2]
    · by_cases h3 : i = 39
      · subst h3
        simp
      · simp only [h, h2, h3, decide_false, if_false, Bool.false_and]
        exact BitVec.getLsbD_of_ge _ _ (by omega)

@[simp] theorem weField_mkRecord (we : Bool) (a : Nat) (d : Word) : weField (mkRecord we a d) = we := by
  rw [weField, getLsbD_mkRecord]
  simp

@[simp] theorem addrField_mkRecord (we : Bool) (a : Nat) (d : Word) :
    addrField (mkRecord we a d) = BitVec.ofNat 7 a := by
  refine BitVec.eq_of_getLsbD_eq fun i hi => ?_
  rw [addrField, BitVec.getLsbD_extractLsb', getLsbD_mkRecord]
  simp [hi]

@[simp] theorem dataField_mkRecord (we : Bool) (a : Nat) (d : Word) :
    dataField (mkRecord we a d) = d := by
  refine BitVec.eq_of_getLsbD_eq fun i hi => ?_
  rw [dataField, BitVec.getLsbD_extractLsb', getLsbD_mkRecord]
  simp [hi]

/-- A record is made of its three fields. -/
theorem mkRecord_fields (t : Record) :
    mkRecord (weField t) (addrField t).toNat (dataField t) = t := by
  refine BitVec.eq_of_getLsbD_eq fun i hi => ?_
  rw [getLsbD_mkRecord]
  by_cases h : i < 32
  · rw [if_pos h, dataField, BitVec.getLsbD_extractLsb']
    simp [h]
  · by_cases h2 : i - 32 < 7
    · rw [if_neg h, if_pos h2, BitVec.ofNat_toNat, BitVec.setWidth_eq, addrField,
        BitVec.getLsbD_extractLsb', show 32 + (i - 32) = i by omega]
      simp [h2]
    · have h3 : i = 39 := by omega
      subst h3
      rw [weField]
      simp

theorem addrField_lt (t : Record) : (addrField t).toNat < 128 := (addrField t).isLt

/-! ### Command words (30_encoding.md R60) -/

/-- A command word whose `zero` field is 0 is its opcode. -/
theorem eq_opField_of_zeroField {w : Word} (h : zeroField w = 0) : w = (opField w).setWidth 32 := by
  refine BitVec.eq_of_getLsbD_eq fun i hi => ?_
  rw [BitVec.getLsbD_setWidth, opField, BitVec.getLsbD_extractLsb']
  by_cases h8 : i < 8
  · simp [hi, h8]
  · have hz := congrArg (fun x => BitVec.getLsbD x (i - 8)) h
    simp only [zeroField, BitVec.getLsbD_extractLsb', show 8 + (i - 8) = i by omega] at hz
    simp only [show i - 8 < 24 by omega, decide_true, Bool.true_and] at hz
    simpa [h8] using hz

end Sys2Proof
end

