-- ==== Sys2Proof/Laws/PerInstr.lean ====
section
/-! SUPPORT. Statements made per instruction: the family `OpcodeRow`. -/

namespace Sys2Proof.Laws

open Sys2Proof

/-- A row of spec/opcode_table.json: the width of its bits, the bits it fixes, and their values. -/
structure TableRow where
  width : Nat
  mask : Nat
  fixed : Nat
deriving DecidableEq, Repr

/-- The rows of spec/opcode_table.json. -/
def tableRow : Instr → TableRow
  | .cfg => { width := 32, mask := 0xFFFFFFFF, fixed := 0x00000001 }
  | .build => { width := 32, mask := 0xFFFFFFFF, fixed := 0x00000002 }
  | .enc => { width := 32, mask := 0xFFFFFFFF, fixed := 0x00000003 }
  | .dec => { width := 32, mask := 0xFFFFFFFF, fixed := 0x00000005 }
  | .syn => { width := 32, mask := 0xFFFFFFFF, fixed := 0x00000006 }
  | .ldw => { width := 32, mask := 0xFFFFFFFF, fixed := 0x00000007 }
  | .rst => { width := 32, mask := 0xFFFFFFFF, fixed := 0x0000000F }
  | .wr _ _ => { width := 40, mask := 0x8000000000, fixed := 0x8000000000 }
  | .rd _ => { width := 40, mask := 0x80FFFFFFFF, fixed := 0x0000000000 }

/-- The bits of an encoding agree with a row. -/
def TableRow.fits (r : TableRow) : Encoded → Prop
  | .command w => r.width = 32 ∧ w &&& BitVec.ofNat 32 r.mask = BitVec.ofNat 32 r.fixed
  | .record t => r.width = 40 ∧ t &&& BitVec.ofNat 40 r.mask = BitVec.ofNat 40 r.fixed

/-- The encoder's bits of an instruction are those its row of the opcode table fixes. -/
def OpcodeRow.Statement (i : Instr) : Prop := (tableRow i).fits (encode i)

theorem OpcodeRow.cfg : OpcodeRow.Statement .cfg := ⟨rfl, by decide⟩
theorem OpcodeRow.build : OpcodeRow.Statement .build := ⟨rfl, by decide⟩
theorem OpcodeRow.enc : OpcodeRow.Statement .enc := ⟨rfl, by decide⟩
theorem OpcodeRow.dec : OpcodeRow.Statement .dec := ⟨rfl, by decide⟩
theorem OpcodeRow.syn : OpcodeRow.Statement .syn := ⟨rfl, by decide⟩
theorem OpcodeRow.ldw : OpcodeRow.Statement .ldw := ⟨rfl, by decide⟩
theorem OpcodeRow.rst : OpcodeRow.Statement .rst := ⟨rfl, by decide⟩

theorem OpcodeRow.wr (a : Nat) (d : Word) : OpcodeRow.Statement (.wr a d) := by
  refine ⟨rfl, BitVec.eq_of_getLsbD_eq fun i hi => ?_⟩
  rw [BitVec.getLsbD_and, getLsbD_mkRecord]
  by_cases h : i = 39
  · subst h
    simp [tableRow]
  · have : (0x8000000000#40).getLsbD i = false := by
      interval_cases i <;> first | rfl | exact absurd rfl h
    simp only [tableRow, this, Bool.and_false]

theorem OpcodeRow.rd (a : Nat) : OpcodeRow.Statement (.rd a) := by
  refine ⟨rfl, BitVec.eq_of_getLsbD_eq fun i hi => ?_⟩
  rw [BitVec.getLsbD_and, getLsbD_mkRecord]
  by_cases h : i < 32
  · simp [h, tableRow]
  · by_cases h2 : i - 32 < 7
    · have : (0x80FFFFFFFF#40).getLsbD i = false := by
        have : i < 39 := by omega
        interval_cases i <;> rfl
      simp only [tableRow, this, Bool.and_false]
      simp
    · simp [h, h2, tableRow]

end Sys2Proof.Laws
end

