-- ==== Sys2Proof/Tests/Slice0.lean ====
section
/-! SUPPORT. The session's own tests, with expected results from spec/, and one witness for the hypotheses
of every statement that has some. -/

namespace Sys2Proof.Tests

open Sys2Proof Sys2Proof.Machine

/-! ### Decoding: words written from 30_encoding.md R60, R61, R65 -/

theorem test_decode_cfg : decodeTableWord 32 0b00000000000000000000000000000001 = some .cfg := by decide
theorem test_decode_build : decodeTableWord 32 0b00000000000000000000000000000010 = some .build := by
  decide
theorem test_decode_enc : decodeTableWord 32 0b00000000000000000000000000000011 = some .enc := by decide
theorem test_decode_dec : decodeTableWord 32 0b00000000000000000000000000000101 = some .dec := by decide
theorem test_decode_syn : decodeTableWord 32 0b00000000000000000000000000000110 = some .syn := by decide
theorem test_decode_ldw : decodeTableWord 32 0b00000000000000000000000000000111 = some .ldw := by decide
theorem test_decode_rst : decodeTableWord 32 0b00000000000000000000000000001111 = some .rst := by decide

/-- `we = 1`, `addr = 1000000`, `data = 3`: `wr GROW[0], 0x3` (95_test_vectors.md P1). -/
theorem test_decode_wr :
    decodeTableWord 40 0b1100000000000000000000000000000000000011 = some (.wr 64 3) := by decide

/-- `we = 0`, `addr = 0010001`, `data = 0`: `rd VOUT` (95_test_vectors.md P1). -/
theorem test_decode_rd :
    decodeTableWord 40 0b0001000100000000000000000000000000000000 = some (.rd 17) := by decide

/-- The extreme fields: word 127, data all ones. -/
theorem test_decode_wr_extremes :
    decodeTableWord 40 0xFFFFFFFFFF = some (.wr 127 0xFFFFFFFF) ∧
      decodeTableWord 40 0x7F00000000 = some (.rd 127) := by decide

theorem test_reject_reserved : decodeCommand 0x00000004 = .error .opcodeReserved := by decide
theorem test_reject_undefined :
    decodeCommand 0x00000000 = .error .opcodeUndefined ∧
      decodeCommand 0x00000008 = .error .opcodeUndefined ∧
      decodeCommand 0x0000000E = .error .opcodeUndefined ∧
      decodeCommand 0x00000010 = .error .opcodeUndefined ∧
      decodeCommand 0x000000FF = .error .opcodeUndefined := by decide
theorem test_reject_zero_field :
    decodeCommand 0x00000101 = .error .zeroFieldNotZero ∧
      decodeCommand 0x80000001 = .error .zeroFieldNotZero := by decide
theorem test_reject_read_with_data : decodeRecord 0x0300000006 = .error .readCarriesData := by decide

/-! ### WellFormed: the one check there is, met and refused -/

theorem test_wf_refuses_wr : (Instr.wr 128 0).wf = false := by decide
theorem test_wf_refuses_rd : (Instr.rd 128).wf = false := by decide
theorem test_wf_accepts : (Instr.wr 127 0).wf = true ∧ (Instr.rd 127).wf = true ∧ Instr.cfg.wf = true := by
  decide

/-! ### Small states -/

/-- A register array whose first rows are those of the list. -/
def rowsOf (l : List Word) : RowFile := Vector.ofFn fun i : Fin 32 => l.getD i.val 0

/-- Lifecycle EMPTY with the code parameter registers written. -/
def loaded (k n : Word) (g : List Word) : State :=
  { State.reset with k := k, n := n, grows := k, gcols := n - k, grow := rowsOf g }

/-- Lifecycle CONFIGURED, `STATUS = 0x6`. -/
def coded (k n : Word) (g p : List Word) : State :=
  { loaded k n g with prow := rowsOf p, status := { Status.reset with done := true, cfgv := true } }

/-- The entries of a table whose leader weights are those of the list. -/
def tableOf (l : List Weight) : TMem :=
  l.zipIdx.map fun c => (c.2, { valid := true, weight := c.1 })

/-- Lifecycle READY, `STATUS = 0xE`. -/
def ready (k n : Word) (g p : List Word) (weights : List Weight) : State :=
  { coded k n g p with
    tmem := tableOf weights
    tcnt := BitVec.ofNat 32 weights.length
    status := { Status.reset with done := true, cfgv := true, tblv := true } }

/-- The code of 41_code_parameters.md R90's worked example. -/
def loadedA : State := loaded 3 6 [3, 6, 5]
def codedA : State := coded 3 6 [3, 6, 5] [5, 3, 6]
def readyA : State := ready 3 6 [3, 6, 5] [5, 3, 6] [0, 1, 1, 1, 1, 1, 1, 2]

/-- The length-3 repetition code of 42_coset_leader_table.md R100's worked example. -/
def codedC : State := coded 1 3 [3] [1, 1]
def readyC : State := ready 1 3 [3] [1, 1] [0, 1, 1, 1]

/-- Lifecycle FATAL. -/
def fatalC : State := { readyC with status := { readyC.status with fatal := true } }

/-- A command in flight: what a write of `w` to `CMD` leaves. -/
def busyC (w : Word) : State := codedC.issue w

/-- Something of the state a step or an instruction answers. -/
def answer {α : Type} (o : Host.Outcome State Fault Refusal) (f : State → α) : Option α :=
  match o with
  | .next t => some (f t)
  | .fault _ => none
  | .refused _ => none

/-! ### Instructions: worked examples of spec/ -/

/-- 41_code_parameters.md R90, worked example. -/
theorem test_cfg_parity_rows :
    answer (exec .cfg loadedA) (fun t =>
      (t.prow.row 0, t.prow.row 1, t.prow.row 2, t.prow.row 3, t.status.word)) =
      some (5, 3, 6, 0, 0x00000006) := by decide

/-- 95_test_vectors.md P3: a wrong declared shape. -/
theorem test_cfg_shape :
    answer (exec .cfg { loadedA with gcols := 2 }) (fun t => (t.prow.row 0, t.status.word)) =
      some (0, 0x00001402) := by decide

/-- 41_code_parameters.md R91, worked example: row 2 of `G`. -/
theorem test_syn_row :
    answer (exec .syn { codedA with vin := 0x4 }) (fun t => (t.synd, t.status.word)) =
      some (0x5, 0x00000006) := by decide +kernel

/-- 41_code_parameters.md R91, worked example: a stray bit. -/
theorem test_syn_stray :
    answer (exec .syn { codedA with vin := 0x40 }) (fun t => (t.synd, t.status.word)) =
      some (0, 0x00002106) := by decide

/-- 42_coset_leader_table.md R100, worked example. -/
theorem test_build_table :
    answer (exec .build codedC) (fun t => (t.tmem, t.tcnt, t.status.word)) =
      some ([(0, ⟨true, 0⟩), (1, ⟨true, 1⟩), (2, ⟨true, 1⟩), (3, ⟨true, 1⟩)], 4, 0x0000000E) := by
  decide +kernel

/-- 95_test_vectors.md P3: built exactly once. -/
theorem test_build_twice :
    answer (exec .build readyC) (fun t => (t.tmem, t.status.word)) =
      some (readyC.tmem, 0x0000420E) := by decide

/-- 43_codec.md R110, worked example. -/
theorem test_enc_codeword :
    answer (exec .enc { codedA with vin := 0x5 }) (fun t => (t.vout, t.status.word)) =
      some (0x35, 0x00000006) := by decide

/-- 95_test_vectors.md P5, the (7,4) Hamming code. -/
theorem test_enc_hamming :
    answer (exec .enc { coded 4 7 [3, 5, 6, 7] [0xB, 0xD, 0xE] with vin := 0x5 }) (fun t => t.vout) =
      some 0x55 := by decide

/-- 43_codec.md R111, worked example: position 2 flipped. -/
theorem test_dec_single_error :
    answer (exec .dec { readyA with vin := 0x31 }) (fun t => (t.vout, t.status.word)) =
      some (0x35, 0x0000000E) := by decide +kernel

/-- 95_test_vectors.md P2: two errors. -/
theorem test_dec_two_errors :
    answer (exec .dec { readyA with vin := 0x14 }) (fun t => t.vout) = some 0x35 := by decide +kernel

/-- 42_coset_leader_table.md R104, worked example. -/
theorem test_ldw_weight :
    answer (exec .ldw { readyA with vin := 0x7 }) (fun t => (t.wgt, t.status.word)) =
      some (2, 0x0000000E) := by decide

/-- 42_coset_leader_table.md R104, worked example: a stray bit. -/
theorem test_ldw_stray :
    answer (exec .ldw { readyA with vin := 0x8 }) (fun t => (t.wgt, t.status.word)) =
      some (0, 0x0000210E) := by decide

/-- 44_control.md R124, worked example. -/
theorem test_rst_clears :
    answer (exec .rst { readyA with vout := 0x35 }) (fun t =>
      (t.k, t.vout, t.prow.row 0, t.status.word, t.status.lifecycle)) =
      some (0, 0, 0, 0, .empty) := by decide

/-- 95_test_vectors.md P3: a write to a locked register. -/
theorem test_wr_locked :
    answer (exec (.wr 8 4) codedA) (fun t => (t.k, t.status.word)) = some (3, 0x00020006) := by decide

/-- 95_test_vectors.md P3: a write while busy. -/
theorem test_wr_busy :
    answer (exec (.wr 16 1) (codedA.issue 2)) (fun t => (t.vin, t.status.word)) =
      some (0, 0x00010005) := by decide

/-- 10_state.md R23: `CAP` with the default `NMAX`. -/
theorem test_rd_cap : answer (exec (.rd 1) State.reset) (fun t => t.rdata) = some 0x00000614 := by decide

/-- 20_memory.md R47: an unmapped word. -/
theorem test_rd_unmapped :
    answer (exec (.rd 84) { readyA with rdata := 9 }) (fun t => (t.rdata, t.status.word)) =
      some (0, 0x0004000E) := by decide

/-! ### Steps -/

/-- 44_control.md R125, worked example: the reserved `transmit` slot. -/
theorem test_step_illegal :
    answer (step (codedA.withFetchWord 32 0x4)) (fun t => t.status.word) = some 0x00004106 := by decide

/-- 44_control.md R120: a `CMD` write issues the command, and nothing of it shows. -/
theorem test_step_issue :
    answer (step ({ loadedA with vin := 1 }.withFetchWord 40 0x8200000001)) (fun t =>
      (t.pend, t.status.word, t.prow.row 0)) = some (1, 0x00000001, 0) := by decide

/-- 70_reset_and_hazards.md R152: the `rst` pin while a `BUILD` runs. -/
theorem test_step_pin :
    answer (step { busyC 2 with inputs := [.rstPin, .engine] }) (fun t =>
      (t.status.word, t.n, t.inputs)) = some (0, 0, [.engine]) := by decide

/-- 30_encoding.md R66, R67: the records of statements. -/
theorem test_assemble :
    assemble [.code 3 6, .ldg 2 5, .run .cfg 0, .clr 0x00070002, .rd (.prow 1)] =
      [.txn 0x8800000003, .txn 0x8900000006, .txn 0x8A00000003, .txn 0x8B00000003,
        .txn 0xC200000005, .txn 0x8200000001, .wait 0, .txn 0x8300070002,
        .txn 0x6100000000] := by decide

/-- 30_encoding.md R67, 20_memory.md R42: a poll reads `BUSY = 1`, and the host goes on waiting. -/
theorem test_step_wait_polls :
    answer (step { loadedA.issue 1 with inputs := [.wait 1, .engine] }) (fun t =>
      (t.rdata, t.status.word, t.inputs)) = some (0x00000001, 0x00000001, [.wait 0, .engine]) := by
  decide

/-- 95_test_vectors.md P1: the completion that `wait` after `cfg` waits for, and the read that ends it. -/
theorem test_step_wait_ends :
    answer (step { loadedA.issue 1 with inputs := [.wait 0, .engine] }) (fun t =>
        (t.status.word, t.inputs)) = some (0x00000006, [.wait 0, .engine]) ∧
      answer (step { codedA with inputs := [.wait 0, .engine] }) (fun t =>
        (t.rdata, t.inputs)) = some (0x00000006, [.engine]) := by decide

/-- 00_scope.md R7: the vector `[1,0,1,0,1,1]`; 20_memory.md R44, R45: byte lanes and bridge. -/
theorem test_packing_and_bridge :
    packVector [true, false, true, false, true, true] = 0x35 ∧
      byteLane 0x12345678 0 = 0x78 ∧ byteLane 0x12345678 3 = 0x12 ∧
      bridgeIndex 0x1FC 4 = some 127 ∧ bridgeIndex 0x200 4 = none ∧ bridgeIndex 0x022 4 = none ∧
      bridgeIndex 0x020 2 = none := by decide

/-- The table memory keeps its canonical form: out of order, over-written, and removed. -/
theorem test_table_canonical :
    ((TMem.write [] 5 ⟨true, 1⟩).write 2 ⟨true, 2⟩).write 5 ⟨true, 3⟩ =
        [(2, ⟨true, 2⟩), (5, ⟨true, 3⟩)] ∧
      TMem.write [(2, ⟨true, 2⟩), (5, ⟨true, 3⟩)] 2 Entry.absent = [(5, ⟨true, 3⟩)] := by decide

/-! ### Good states: the repetition code holds a code and a table, and meets the invariant -/

theorem holdsCode_codedC : HoldsCode codedC where
  legal := by decide
  rows_declared := by decide
  cols_declared := by decide
  no_stray := by
    intro i hi
    have h0 : i = 0 := by
      have : codedC.kLen = 1 := by decide
      omega
    subst h0
    unfold IsVector
    decide
  parity := by
    have h : ∀ i < 32, ∀ j < 32, (codedC.prow.row i).getLsbD j =
        (decide (i < codedC.rLen) && decide (j < codedC.kLen) && (codedC.grow.row j).getLsbD i) := by
      decide +kernel
    exact fun i j hi hj => h i hi j hj

/-- A state with the registers of another that holds a code. -/
theorem holdsCode_of_same {s t : State} (h : HoldsCode s) (hc : SameCode s t) (hp : t.prow = s.prow)
    (hn : t.config = s.config) : HoldsCode t := by
  obtain ⟨h1, h2, h3, h4, h5⟩ := hc
  have hk : t.kLen = s.kLen := by rw [State.kLen, State.kLen, h1]
  have hr : t.rLen = s.rLen := by rw [State.rLen, State.rLen, State.nLen, State.nLen, hk, h2]
  constructor
  · simpa [State.paramsLegal, h1, h2, hn] using h.legal
  · rw [h3, h1, h.rows_declared]
  · rw [h4, h1, h2, h.cols_declared]
  · rw [hk, hr, h5]
    exact h.no_stray
  · rw [hk, hr, h5, hp]
    exact h.parity

theorem holdsCode_readyC : HoldsCode readyC :=
  holdsCode_of_same holdsCode_codedC ⟨rfl, rfl, rfl, rfl, rfl⟩ rfl rfl

/-- The eight vectors of length 3. -/
theorem eq_of_isVector_three {v : Word} (h : IsVector 3 v) :
    v = 0 ∨ v = 1 ∨ v = 2 ∨ v = 3 ∨ v = 4 ∨ v = 5 ∨ v = 6 ∨ v = 7 := by
  have hv := (strayBits_eq_zero_iff_lt 3 v).mp h
  have he : v = BitVec.ofNat 32 v.toNat := by simp
  generalize v.toNat = m at hv he
  interval_cases m <;> simp [he]

theorem holdsTable_readyC : HoldsTable readyC where
  seen := by decide +kernel
  reached := by
    intro x hx
    have hx : x < 4 := hx
    interval_cases x
    · exact ⟨0, by unfold IsVector; decide, by decide +kernel, by decide +kernel⟩
    · exact ⟨2, by unfold IsVector; decide, by decide +kernel, by decide +kernel⟩
    · exact ⟨4, by unfold IsVector; decide, by decide +kernel, by decide +kernel⟩
    · exact ⟨1, by unfold IsVector; decide, by decide +kernel, by decide +kernel⟩
  least := by
    intro v hv
    rcases eq_of_isVector_three hv with rfl | rfl | rfl | rfl | rfl | rfl | rfl | rfl <;> decide +kernel

/-- Rows from `NMAX = 20` on are 0 in an array made of few rows. -/
theorem row_rowsOf_of_ge {l : List Word} {i : Nat} (h : l.length ≤ i) : (rowsOf l).row i = 0 := by
  rw [rowsOf, row_ofFn]
  split
  · simp [List.getD, h]
  · rfl

theorem inv_readyC : Inv readyC where
  status := ⟨by decide, by decide, by decide⟩
  table_canonical := by decide
  table_inside := by
    intro a ha
    have ha : 2 ^ 19 ≤ a := ha
    refine read_of_not_listed fun c hc => ?_
    have : ∀ c ∈ readyC.tmem, c.1 < 4 := by decide
    have := this c hc
    omega
  missing_rows := by
    intro i hi
    have hi : 20 ≤ i := hi
    exact ⟨row_rowsOf_of_ge (by simp; omega), row_rowsOf_of_ge (by simp; omega)⟩
  code := fun _ => holdsCode_readyC
  no_code := fun h => absurd h (by decide)
  table := fun _ => ⟨holdsTable_readyC, by decide⟩
  results := fun _ => ⟨by unfold IsVector; decide, by unfold IsVector; decide, by unfold IsVector; decide⟩

/-- The invariant with a command in flight. -/
theorem inv_readyC_issue (w : Word) : Inv (readyC.issue w) where
  status := ⟨fun _ => rfl, fun _ => rfl, fun _ => ⟨rfl, rfl⟩⟩
  table_canonical := inv_readyC.table_canonical
  table_inside := inv_readyC.table_inside
  missing_rows := inv_readyC.missing_rows
  code := fun _ => holdsCode_of_same holdsCode_readyC ⟨rfl, rfl, rfl, rfl, rfl⟩ rfl rfl
  no_code := fun h => by cases h
  table := fun _ =>
    ⟨⟨holdsTable_readyC.seen, holdsTable_readyC.reached, holdsTable_readyC.least⟩,
      (inv_readyC.table rfl).2⟩
  results := inv_readyC.results

/-- The invariant says nothing of what happens next. -/
theorem inv_with_inputs {s : State} (h : Inv s) (l : List Input) : Inv { s with inputs := l } where
  status := ⟨h.status.table_needs_code, h.status.fatal_needs_code, h.status.busy_is_fresh⟩
  table_canonical := h.table_canonical
  table_inside := h.table_inside
  missing_rows := h.missing_rows
  code := fun hc => holdsCode_of_same (h.code hc) ⟨rfl, rfl, rfl, rfl, rfl⟩ rfl rfl
  no_code := h.no_code
  table := fun ht =>
    ⟨⟨(h.table ht).1.seen, (h.table ht).1.reached, (h.table ht).1.least⟩, (h.table ht).2⟩
  results := h.results

/-! ### Witnesses: the hypotheses of each statement are met -/

theorem witness_DecodeInvertsEncode :
    (Instr.wr 0 0).wf = true ∧ (Instr.wr 127 0xFFFFFFFF).wf = true ∧ (Instr.rd 127).wf = true := by decide

theorem witness_EncodeInvertsDecode :
    decode (.command 0x0000000F) = .ok .rst ∧ decode (.record 0xFFFFFFFFFF) = .ok (.wr 127 0xFFFFFFFF) := by
  decide

/-- Each end of the row registers of `NMAX = 20`. -/
theorem witness_StatementsMeanTheirTransactions :
    Reg.ofIndex 20 0 = some .id ∧ Reg.ofIndex 20 64 = some (.grow 0) ∧
      Reg.ofIndex 20 83 = some (.grow 19) ∧ Reg.ofIndex 20 96 = some (.prow 0) ∧
      Reg.ofIndex 20 115 = some (.prow 19) ∧ (List.replicate 32 true).length ≤ 32 ∧
      (31 < 32 ∧ 5 ≤ 5 ∧ 2 ^ 32 - 1 < 2 ^ 32) ∧
      ({ busyC 2 with inputs := [.wait 0] }).inputs = (Statement.wait 0).inputs ++ [] ∧
      ({ busyC 2 with inputs := [.wait 1, .engine] }).inputs = (Statement.wait 1).inputs ++ [.engine] ∧
      (busyC 2).status.busy = true ∧ codedC.status.busy = false ∧
      ({ codedC with inputs := [.wait 0] }).inputs = (Statement.wait 0).inputs ++ [] := by decide

theorem witness_StepPerformsDecodedTransaction :
    ∃ (s : State) (t : Record) (rest : List Input) (i : Instr),
      s.inputs = .txn t :: rest ∧ decodeRecord t = .ok i :=
  ⟨State.reset.withRecord 0x8800000003, _, _, .wr 8 3, rfl, by decide⟩

theorem witness_StepCompletesDecodedCommand :
    (busyC 2).status.busy = true ∧ decodeCommand (busyC 2).pend = .ok .build ∧
      (busyC 2).inputs = [] ∧ ({ busyC 2 with inputs := [.engine] }).inputs = .engine :: [] ∧
      ({ busyC 2 with inputs := [.wait 0] }).inputs = .wait 0 :: [] := by decide

/-- The reserved word and a word with a high bit, in lifecycle FATAL and not. -/
theorem witness_IllegalWordOnlyReports :
    (codedC.withFetchWord 32 0x4).inputs = .engine :: [] ∧
      (codedC.withFetchWord 32 0x4).status.busy = true ∧ (codedC.withFetchWord 32 0x4).pend = 0x4 ∧
      (fatalC.withFetchWord 32 0x80000001).status.busy = true ∧
      (fatalC.withFetchWord 32 0x80000001).pend = 0x80000001 := by decide

theorem witness_IdleEngineWaits :
    codedC.status.busy = false ∧ codedC.inputs = [] ∧
      ({ codedC with inputs := [.engine] }).inputs = .engine :: [] := by decide

theorem witness_IssuedCommandCompletes :
    (Inv (readyC.issue 5) ∧ (readyC.issue 5).status.busy = true) ∧
      Inv { readyC.issue 5 with inputs := [.wait 0] } ∧
      ({ readyC.issue 5 with inputs := [.wait 0] }).inputs = .wait 0 :: [] :=
  ⟨⟨inv_readyC_issue 5, rfl⟩, inv_with_inputs (inv_readyC_issue 5) [.wait 0], rfl⟩

theorem witness_RstCommandResets :
    ({ busyC 2 with inputs := [.rstPin] }).inputs = .rstPin :: [] ∧ (busyC 2).status.busy = true := by
  decide

theorem witness_PinAbandonsCommand :
    ({ busyC 2 with inputs := [.rstPin] }).inputs = .rstPin :: [] := by decide

/-- The unmapped ranges at their ends, for `NMAX = 20`: no end is a mapped register. -/
theorem witness_unmapped_ends :
    ∀ a ∈ [5, 7, 12, 15, 21, 63, 84, 95, 116, 127], Reg.ofIndex 20 a = none := by decide

/-- The mapped registers beside them. -/
theorem witness_mapped_ends :
    ∀ a ∈ [0, 1, 2, 3, 4, 8, 11, 16, 20, 64, 83, 96, 115], (Reg.ofIndex 20 a).isSome = true := by decide

/-- With `NMAX = 32` every row exists, and with `NMAX = 1` one of each. -/
theorem witness_row_ends :
    Reg.ofIndex 32 95 = some (.grow 31) ∧ Reg.ofIndex 32 127 = some (.prow 31) ∧
      Reg.ofIndex 1 64 = some (.grow 0) ∧ Reg.ofIndex 1 65 = none ∧ Reg.ofIndex 1 97 = none := by decide

/-- `HostRead` and `HostWrite`: the last row of each array and the words beside it. -/
theorem witness_HostReadReturnsRegister :
    answer (exec (.rd 83) { readyA with grow := readyA.grow.set 19 7 }) (fun t => t.rdata) = some 7 ∧
      answer (exec (.rd 95) readyA) (fun t => t.status.badacc) = some true ∧
      answer (exec (.rd 127) readyA) (fun t => t.status.badacc) = some true := by decide

/-- The conditions of `HostWrite`'s cases 5 to 8: busy, locked, idle and unlocked. -/
theorem witness_HostWriteCases :
    (busyC 2).status.busy = true ∧ codedC.status.busy = false ∧ codedC.status.cfgv = true ∧
      loadedA.status.busy = false ∧ loadedA.status.cfgv = false ∧
      answer (exec (.wr 83 9) loadedA) (fun t => t.grow.row 19) = some 9 ∧
      answer (exec (.wr 96 9) loadedA) (fun t => t.status.badacc) = some true := by decide

theorem witness_CommandIssue : codedC.status.busy = false ∧ (busyC 2).status.busy = true := by decide

theorem witness_OutsideRegisterSpaceStops : 128 ≤ 128 := by decide

/-- A write, and a read of `STATUS` in a state that meets its invariants. -/
theorem witness_BusyIntervalIsOpaque :
    ∃ t u, (busyC 2).status.busy = true ∧ exec (.wr 16 1) (busyC 2) = .next t ∧
      (readyC.issue 5).status.busy = true ∧ StatusInv (readyC.issue 5) ∧
      exec (.rd 3) (readyC.issue 5) = .next u :=
  ⟨_, _, rfl, rfl, rfl, (inv_readyC_issue 5).status, rfl⟩

/-- A write to `VIN` while a `BUILD` runs. -/
theorem witness_TransactionsDoNotDisturbCommand :
    ∃ u t, (busyC 2).status.busy = true ∧ decodeCommand (busyC 2).pend = .ok .build ∧
      exec (decodeBus 0x9000000001) (busyC 2) = .next u ∧ exec .build (busyC 2) = .next t :=
  ⟨_, _, rfl, by decide, rfl, rfl⟩

theorem witness_CompletionRaisesInterrupt :
    ∃ t u, exec .syn { codedC with ien := { ieDone := true, ieFatal := false } } = .next t ∧
      exec .rst codedC = .next u := ⟨_, _, rfl, rfl⟩

/-- Lifecycle FATAL; EMPTY, CONFIGURED and READY, each with a command its gate refuses and one it passes. -/
theorem witness_LifecycleGate :
    fatalC.status.fatal = true ∧ loadedA.status.fatal = false ∧ loadedA.status.cfgv = false ∧ loadedA.status.tblv = false ∧
      codedC.status.fatal = false ∧ codedC.status.cfgv = true ∧ codedC.status.tblv = false ∧
      readyC.status.fatal = false ∧ readyC.status.tblv = true ∧
      answer (exec .cfg loadedA) (fun t => t.status.ecode) = some .ok ∧
      answer (exec .syn codedC) (fun t => t.status.ecode) = some .ok ∧
      answer (exec .ldw readyC) (fun t => t.status.ecode) = some .ok := by decide

/-- Past its gate with `K = 0`: no run from reset is in such a state. -/
theorem witness_IllegalParametersStop :
    ({ codedC with k := 0 }).status.fatal = false ∧ ({ codedC with k := 0 }).paramsLegal = false ∧
      ({ codedC with k := 0 }).status.cfgv = true ∧ ({ codedC with k := 0 }).status.tblv = false ∧
      ({ readyC with k := 0 }).paramsLegal = false ∧ ({ readyC with k := 0 }).status.tblv = true := by
  decide

theorem witness_PossibleCodes :
    ∃ t1 t2 t3 t4 t5 t6 t7, exec .cfg loadedA = .next t1 ∧ exec .build loadedA = .next t2 ∧
      exec .enc codedC = .next t3 ∧ exec .syn codedC = .next t4 ∧ exec .dec readyC = .next t5 ∧
      exec .ldw readyC = .next t6 ∧ exec .rst readyC = .next t7 :=
  ⟨_, _, _, _, _, _, _, rfl, rfl, rfl, rfl, rfl, rfl, rfl⟩

theorem witness_NonFatalErrorIsPrecise :
    (∃ t, exec .cfg State.reset = .next t ∧
      t.status.ecode ∈ [Code.eK, .eN, .eNmax, .eShape, .eVlen, .eIllcmd, .eSeq, .eFatal]) ∧
      decodeCommand (busyC 4).pend = .error .opcodeReserved :=
  ⟨⟨_, rfl, by decide⟩, by decide⟩

/-- A table with no entry: the state of a fault, not of a run. -/
theorem witness_FatalErrorEntry :
    ∃ t, exec .ldw { readyC with tmem := [] } = .next t ∧
      t.status.ecode ∈ [Code.eRank, .eMiss, .eNoconv] := ⟨_, rfl, by decide⟩

theorem witness_OnlyResetLeavesFatal :
    ∃ t u, fatalC.status.fatal = true ∧ step fatalC = .next t ∧
      step { fatalC with inputs := [.rstPin] } = .next u := ⟨_, _, rfl, rfl, rfl⟩

/-- Each test of `CFG` at its bound: `K = 0`, `N = K - 1`, `N = NMAX + 1`, a stray entry; and the bounds
it accepts, `K = N = 1` and `N = NMAX`. -/
theorem witness_CfgConstructsCode :
    (loaded 0 1 []).k.toInt ≤ 0 ∧
      (0 < (loaded 2 1 []).k.toInt ∧ (loaded 2 1 []).n.toInt < (loaded 2 1 []).k.toInt) ∧
      ((loaded 1 21 []).k.toInt ≤ (loaded 1 21 []).n.toInt ∧
        ((loaded 1 21 []).config.nmax : Int) < (loaded 1 21 []).n.toInt) ∧
      (loaded 1 20 []).n.toInt ≤ (loaded 1 20 []).config.nmax ∧
      answer (exec .cfg (loaded 0 1 [])) (fun t => t.status.ecode) = some .eK ∧
      answer (exec .cfg (loaded 0xFFFFFFFF 1 [])) (fun t => t.status.ecode) = some .eK ∧
      answer (exec .cfg (loaded 2 1 [])) (fun t => t.status.ecode) = some .eN ∧
      answer (exec .cfg (loaded 1 21 [])) (fun t => t.status.ecode) = some .eNmax ∧
      answer (exec .cfg (loaded 1 3 [4])) (fun t => t.status.ecode) = some .eShape ∧
      answer (exec .cfg (loaded 1 1 [0])) (fun t => t.status.ecode) = some .ok ∧
      answer (exec .cfg (loaded 1 20 [1])) (fun t => t.status.ecode) = some .ok := by decide

/-- The longest vector of each length, and the shortest too long, for the repetition code. -/
theorem witness_SynWritesSyndrome :
    codedC.status.fatal = false ∧ codedC.status.cfgv = true ∧ codedC.paramsLegal = true ∧
      strayBits codedC.nLen 7 = 0 ∧ strayBits codedC.nLen 8 ≠ 0 ∧ loadedA.status.cfgv = false := by
  decide

theorem witness_BuildPublishesLeaderWeights :
    codedC.status.fatal = false ∧ codedC.status.cfgv = true ∧ codedC.status.tblv = false ∧
      HoldsCode codedC := ⟨rfl, rfl, rfl, holdsCode_codedC⟩

/-- The count the enumeration finds, and another. -/
theorem witness_BuildChecksCompleteness :
    codedC.status.fatal = false ∧ codedC.paramsLegal = true ∧ codedC.status.cfgv = true ∧
      codedC.status.tblv = false ∧ (4#32).toNat = 2 ^ codedC.rLen ∧ (3#32).toNat ≠ 2 ^ codedC.rLen ∧
      (codedC.publish [] 3).status.ecode = .eRank ∧ (codedC.publish [] 3).status.fatal = true := by decide

theorem witness_LdwReadsLeaderWeight :
    (HoldsCode readyC ∧ HoldsTable readyC ∧ readyC.vin = 0) ∧ readyC.status.fatal = false ∧ readyC.status.tblv = true ∧ readyC.paramsLegal = true ∧
      strayBits readyC.rLen 3 = 0 ∧ strayBits readyC.rLen 4 ≠ 0 ∧
      (readyC.tmem.read 3).valid = true ∧ (TMem.read [] 3).valid = false ∧
      codedC.status.tblv = false :=
  ⟨⟨holdsCode_readyC, holdsTable_readyC, rfl⟩, by decide⟩

theorem witness_EncWritesCodeword :
    HoldsCode codedC ∧ codedC.status.fatal = false ∧ codedC.status.cfgv = true ∧ codedC.paramsLegal = true ∧
      strayBits codedC.kLen 1 = 0 ∧ strayBits codedC.kLen 2 ≠ 0 ∧ loadedA.status.cfgv = false :=
  ⟨holdsCode_codedC, by decide⟩

theorem witness_DecWritesOnlyItsResult :
    ∃ t, readyC.status.fatal = false ∧ readyC.status.tblv = true ∧
      exec .dec { readyC with vin := 7 } = .next t ∧ strayBits readyC.nLen 7 = 0 ∧
      strayBits readyC.nLen 8 ≠ 0 := ⟨_, rfl, rfl, rfl, by decide, by decide⟩

theorem witness_DecReturnsCodeword :
    ∃ t, readyC.status.fatal = false ∧ readyC.status.tblv = true ∧
      exec .dec { readyC with vin := 4 } = .next t ∧ t.status.ecode = .ok :=
  ⟨_, rfl, rfl, rfl, by decide +kernel⟩

theorem witness_DecKeepsCodewords :
    readyC.status.fatal = false ∧ readyC.status.tblv = true ∧ readyC.paramsLegal = true ∧
      strayBits readyC.nLen 7 = 0 ∧ readyC.syndromeOf 7 = 0 := by decide +kernel

theorem witness_DecCorrectsMinimumWeight :
    readyC.status.fatal = false ∧ readyC.status.tblv = true ∧ HoldsCode readyC ∧ HoldsTable readyC ∧
      IsVector readyC.nLen readyC.vin :=
  ⟨rfl, rfl, holdsCode_readyC, holdsTable_readyC, by unfold IsVector; decide⟩

theorem witness_DecScansForward :
    ∃ t, readyC.status.fatal = false ∧ readyC.status.tblv = true ∧ HoldsCode readyC ∧
      HoldsTable readyC ∧ IsVector readyC.nLen readyC.vin ∧ exec .dec readyC = .next t :=
  ⟨_, rfl, rfl, holdsCode_readyC, holdsTable_readyC, by unfold IsVector; decide, rfl⟩

/-- The codeword `111` with its position 1 flipped. -/
theorem witness_DecCorrectsUniqueLeaders :
    readyC.status.fatal = false ∧ readyC.status.tblv = true ∧ HoldsCode readyC ∧ HoldsTable readyC ∧
      IsVector readyC.nLen 7 ∧ IsVector readyC.nLen 2 ∧ readyC.syndromeOf 7 = 0 ∧
      ({ readyC with vin := 5 }).vin = 7 ^^^ 2 ∧
      ∀ e', IsVector readyC.nLen e' → readyC.syndromeOf e' = readyC.syndromeOf 2 →
        hammingWeight e' ≤ hammingWeight 2 → e' = 2 := by
  refine ⟨rfl, rfl, holdsCode_readyC, holdsTable_readyC, by unfold IsVector; decide,
    by unfold IsVector; decide, by decide +kernel, by decide, ?_⟩
  intro e' h
  rcases eq_of_isVector_three h with rfl | rfl | rfl | rfl | rfl | rfl | rfl | rfl <;> decide +kernel

theorem witness_WritersOfRegisters :
    answer (exec .ldw { readyC with vin := 3 }) (fun t => decide (t.wgt ≠ readyC.wgt)) = some true ∧
      answer (exec .enc { codedC with vin := 1 }) (fun t => decide (t.vout ≠ codedC.vout)) = some true ∧
      answer (exec .cfg loadedA) (fun t => decide (t.prow ≠ loadedA.prow)) = some true := by
  decide +kernel

theorem witness_CodeParametersImmutable :
    ∃ t, codedC.status.cfgv = true ∧ step (codedC.withFetchWord 40 0x8800000004) = .next t :=
  ⟨_, rfl, rfl⟩

theorem witness_TableImmutable :
    ∃ t, readyC.status.tblv = true ∧ step (readyC.withFetchWord 32 2) = .next t := ⟨_, rfl, rfl⟩

theorem witness_LifecycleTransitions :
    StatusInv (readyC.issue 5) ∧ ∃ t, step (readyC.issue 5) = .next t :=
  ⟨(inv_readyC_issue 5).status, _, rfl⟩

theorem witness_ParameterIsConstant : ∃ t, step readyC = .next t := ⟨_, rfl⟩

theorem witness_StepKeepsStatusInvariant : StatusInv readyC ∧ ∃ t, step readyC = .next t :=
  ⟨inv_readyC.status, _, rfl⟩

theorem witness_StepKeepsInvariant :
    Inv (readyC.issue 7) ∧ ∃ t, step (readyC.issue 7) = .next t := ⟨inv_readyC_issue 7, _, rfl⟩

theorem witness_StepIsSafe : Inv (readyC.issue 3) := inv_readyC_issue 3

theorem witness_FatalNeverRaised :
    Inv (readyC.issue 5) ∧ (readyC.issue 5).status.fatal = false ∧
      ∃ t, step (readyC.issue 5) = .next t := ⟨inv_readyC_issue 5, rfl, _, rfl⟩

theorem witness_TableFormIsCanonical : readyC.tmem.wf = true ∧ TMem.wf [] = true := by decide

/-- Each end of a word's positions. -/
theorem witness_ParityWeightFlip :
    0 < 32 ∧ 31 < 32 ∧ (2#32).getLsbD 0 = false ∧ (2#32).getLsbD 1 = true := by decide

/-- A matrix of 2 rows and 3 columns without stray bits. -/
theorem witness_TransposeIsInvolution :
    (2 ≤ 32 ∧ 3 ≤ 32) ∧ (∀ i, i < 2 → strayBits 3 ((rowsOf [7, 5]).row i) = 0) ∧ ∀ i, 2 ≤ i → (rowsOf [7, 5]).row i = 0 :=
  ⟨by decide, by decide, fun _ h => row_rowsOf_of_ge (by simpa using h)⟩

/-- A product of a matrix without a column, and of the largest. -/
theorem witness_ProductIsLinear : (1 ≤ 32 ∧ 0 ≤ 32) ∧ 32 ≤ 32 := by decide

theorem witness_SyndromeIsProduct : HoldsCode codedC := holdsCode_codedC

theorem witness_SyndromeIdentities :
    HoldsCode codedC ∧ IsVector codedC.kLen 1 ∧ 0 < codedC.kLen ∧ 1 < codedC.rLen :=
  ⟨holdsCode_codedC, by unfold IsVector; decide, by decide, by decide⟩

theorem witness_CodewordsAreZeroSyndromes :
    HoldsCode codedC ∧ IsVector codedC.rLen 3 ∧ IsVector codedC.kLen 1 ∧ IsVector codedC.nLen 7 :=
  ⟨holdsCode_codedC, by unfold IsVector; decide, by unfold IsVector; decide, by unfold IsVector; decide⟩

/-- The shortest and the longest vectors to enumerate. -/
theorem witness_EnumerationMatchesRecursion : 0 ≤ 32 ∧ 1 ≤ 32 ∧ 32 ≤ 32 := by decide

theorem witness_LeaderWeightProperties :
    HoldsCode readyC ∧ HoldsTable readyC ∧ IsVector readyC.rLen 3 ∧ IsVector readyC.nLen 6 ∧
      readyC.syndromeOf 6 ≠ 0 :=
  ⟨holdsCode_readyC, holdsTable_readyC, by unfold IsVector; decide, by unfold IsVector; decide,
    by decide +kernel⟩

end Sys2Proof.Tests
end

section
/-! The interrupt line on the register words as the host reads them (10_state.md R33). -/

namespace Sys2Proof.Machine

open Sys2Proof

/-- A flag's word holds the flag at its own bit and 0 at every other. -/
theorem getLsbD_flagAt (b : Bool) (i j : Nat) :
    (flagAt b i).getLsbD j = (b && (decide (j = i) && decide (j < 32))) := by
  cases b with
  | false => simp [flagAt]
  | true => exact getLsbD_one_shiftLeft i j

/-- Bits 7:0 of `STATUS`, below `ECODE`, are its five low flags, and 0 where reserved
(10_state.md R21). -/
theorem getLsbD_statusWord_of_lt_eight (st : Status) {j : Nat} (hj : j < 8) :
    st.word.getLsbD j = (st.busy && decide (j = 0) || st.done && decide (j = 1) ||
      st.cfgv && decide (j = 2) || st.tblv && decide (j = 3) || st.fatal && decide (j = 4)) := by
  have h32 : j < 32 := by omega
  have hovr : j ≠ 16 := by omega
  have hwlock : j ≠ 17 := by omega
  have hbadacc : j ≠ 18 := by omega
  simp only [Status.word, BitVec.getLsbD_or, getLsbD_flagAt, BitVec.getLsbD_shiftLeft]
  simp [hj, h32, hovr, hwlock, hbadacc]

theorem getLsbD_statusWord_done (st : Status) : st.word.getLsbD 1 = st.done := by
  rw [getLsbD_statusWord_of_lt_eight st (by decide)]
  simp

theorem getLsbD_statusWord_fatal (st : Status) : st.word.getLsbD 4 = st.fatal := by
  rw [getLsbD_statusWord_of_lt_eight st (by decide)]
  simp

/-- `IEN` holds its two enables, and 0 at bits 31:2 (10_state.md R22). -/
theorem getLsbD_ienWord (e : IntEnable) (j : Nat) :
    e.word.getLsbD j = (e.ieDone && decide (j = 0) || e.ieFatal && decide (j = 1)) := by
  rw [IntEnable.word, BitVec.getLsbD_or, getLsbD_flagAt, getLsbD_flagAt]
  by_cases h0 : j = 0
  · simp [h0]
  · by_cases h1 : j = 1 <;> simp [h0, h1]

theorem getLsbD_ienWord_ieDone (e : IntEnable) : e.word.getLsbD 0 = e.ieDone := by
  rw [getLsbD_ienWord]
  simp

theorem getLsbD_ienWord_ieFatal (e : IntEnable) : e.word.getLsbD 1 = e.ieFatal := by
  rw [getLsbD_ienWord]
  simp

/-- While both sources are disabled, `irq` is 0 whatever `STATUS` holds. -/
theorem irq_of_ien_reset {s : State} (h : s.ien = IntEnable.reset) : s.irq = false := by
  simp [State.irq, h, IntEnable.reset]

/-- Settles O22: each of the four bits read is the field `irq` is made of, and reset disables both
sources. -/
theorem interruptLine : Obligations.InterruptLine := by
  refine ⟨fun s => ?_, irq_of_ien_reset rfl⟩
  rw [getLsbD_ienWord_ieDone, getLsbD_ienWord_ieFatal, getLsbD_statusWord_done,
    getLsbD_statusWord_fatal, State.irq]

end Sys2Proof.Machine
end

section
/-! A host write case by case (20_memory.md R43): what the word index names, and what a write to
that register does. -/

namespace Sys2Proof.Machine

open Sys2Proof

/-! ### The word indices of the cases (20_memory.md R41) -/

/-- The read-only registers of the map, the rows `PROW[i]` among them. -/
theorem ofIndex_readOnly {nmax a : Nat} (h32 : nmax ≤ 32)
    (h : a = 0 ∨ a = 1 ∨ (17 ≤ a ∧ a ≤ 20) ∨ (96 ≤ a ∧ a < 96 + nmax)) :
    ∃ q, Reg.ofIndex nmax a = some q ∧ q.readOnly = true := by
  rcases h with rfl | rfl | ⟨hlo, hhi⟩ | ⟨hlo, hhi⟩
  · exact ⟨.id, rfl, rfl⟩
  · exact ⟨.cap, rfl, rfl⟩
  · interval_cases a
    · exact ⟨.vout, rfl, rfl⟩
    · exact ⟨.synd, rfl, rfl⟩
    · exact ⟨.wgt, rfl, rfl⟩
    · exact ⟨.tcnt, rfl, rfl⟩
  · obtain ⟨i, rfl⟩ := Nat.exists_eq_add_of_le hlo
    exact ⟨.prow i, ofIndex_prow h32 (by omega), rfl⟩

/-- The registers of the lock, the rows `GROW[i]` among them. -/
theorem ofIndex_lockable {nmax a : Nat}
    (h : (8 ≤ a ∧ a ≤ 11) ∨ (64 ≤ a ∧ a < 64 + nmax)) :
    ∃ q, Reg.ofIndex nmax a = some q ∧ q.lockable = true := by
  rcases h with ⟨hlo, hhi⟩ | ⟨hlo, hhi⟩
  · interval_cases a
    · exact ⟨.k, rfl, rfl⟩
    · exact ⟨.n, rfl, rfl⟩
    · exact ⟨.grows, rfl, rfl⟩
    · exact ⟨.gcols, rfl, rfl⟩
  · obtain ⟨i, rfl⟩ := Nat.exists_eq_add_of_le hlo
    exact ⟨.grow i, ofIndex_grow (by omega), rfl⟩

/-- The lock holds none of the registers that cases 2 to 4 of R43 answer. -/
theorem writable_of_lockable {q : Reg} (h : q.lockable = true) :
    q.readOnly = false ∧ q ≠ .status ∧ q ≠ .ien := by
  cases q <;> simp_all [Reg.lockable, Reg.readOnly]

/-- The registers whose writes a busy machine drops: `CMD`, `VIN` and those of the lock. -/
theorem ofIndex_busyDropped {nmax a : Nat}
    (h : a = 2 ∨ a = 16 ∨ (8 ≤ a ∧ a ≤ 11) ∨ (64 ≤ a ∧ a < 64 + nmax)) :
    ∃ q, Reg.ofIndex nmax a = some q ∧ q.readOnly = false ∧ q ≠ .status ∧ q ≠ .ien := by
  rcases h with rfl | rfl | h
  · exact ⟨.cmd, rfl, rfl, nofun, nofun⟩
  · exact ⟨.vin, rfl, rfl, nofun, nofun⟩
  · obtain ⟨q, hq, hl⟩ := ofIndex_lockable h
    exact ⟨q, hq, writable_of_lockable hl⟩

/-! ### A write to a register (20_memory.md R43, cases 3 to 8) -/

theorem writeReg_busy {s : State} {q : Reg} (d : Word) (hb : s.status.busy = true)
    (hst : q ≠ .status) (hien : q ≠ .ien) : s.writeReg q d = s.setOvr := by
  rw [State.writeReg, if_neg hst, if_neg hien, if_pos hb]

theorem writeReg_locked {s : State} {q : Reg} (d : Word) (hb : s.status.busy = false)
    (hc : s.status.cfgv = true) (hl : q.lockable = true) : s.writeReg q d = s.setWlock := by
  obtain ⟨_, hst, hien⟩ := writable_of_lockable hl
  simp [State.writeReg, hst, hien, hb, hc, hl]

theorem writeReg_cmd {s : State} (d : Word) (hb : s.status.busy = false) :
    s.writeReg .cmd d = s.issue d := by
  simp [State.writeReg, hb, Reg.lockable]

theorem writeReg_vin {s : State} (d : Word) (hb : s.status.busy = false) :
    s.writeReg .vin d = { s with vin := d } := by
  simp [State.writeReg, hb, Reg.lockable, State.storeReg]

/-- A register of the lock while it is open. -/
theorem writeReg_unlocked {s : State} {q : Reg} (d : Word) (hb : s.status.busy = false)
    (hc : s.status.cfgv = false) (hl : q.lockable = true) : s.writeReg q d = s.storeReg d q := by
  obtain ⟨_, hst, hien⟩ := writable_of_lockable hl
  have hcmd : q ≠ .cmd := by
    rintro rfl
    cases hl
  simp [State.writeReg, hst, hien, hb, hc, hcmd]

/-! ### A write to a word index -/

theorem exec_wr_unmapped {s : State} {a : Nat} (d : Word) (ha : a < 128)
    (hq : Reg.ofIndex s.config.nmax a = none) : exec (.wr a d) s = .next s.setBadacc := by
  simp [exec, execWr, wordCount, ha, State.hostWrite, hq]

theorem exec_wr_readOnly {s : State} {a : Nat} {q : Reg} (d : Word) (ha : a < 128)
    (hq : Reg.ofIndex s.config.nmax a = some q) (hro : q.readOnly = true) :
    exec (.wr a d) s = .next s.setBadacc := by
  simp [exec, execWr, wordCount, ha, State.hostWrite, hq, hro]

theorem exec_wr_writable {s : State} {a : Nat} {q : Reg} (d : Word) (ha : a < 128)
    (hq : Reg.ofIndex s.config.nmax a = some q) (hro : q.readOnly = false) :
    exec (.wr a d) s = .next (s.writeReg q d) := by
  simp [exec, execWr, wordCount, ha, State.hostWrite, hq, hro]

theorem exec_wr_unlocked {s : State} {a : Nat} {q : Reg} (d : Word) (ha : a < 128)
    (hb : s.status.busy = false) (hc : s.status.cfgv = false)
    (hq : Reg.ofIndex s.config.nmax a = some q) (hl : q.lockable = true) :
    exec (.wr a d) s = .next (s.storeReg d q) := by
  rw [exec_wr_writable d ha hq (writable_of_lockable hl).1, writeReg_unlocked d hb hc hl]

/-- Settles O15: in each case the word index names a register of one kind (or none), and a write to
a register of that kind has the effect of the case. -/
theorem hostWriteCases : Obligations.HostWriteCases := by
  intro s a d ha
  have h32 : s.config.nmax ≤ 32 := s.config.nmax_le
  refine ⟨fun h => ?unmapped, fun h => ?readOnly, ?status, ?ien, fun hb h => ?busy,
    fun hb hc h => ?locked, ?cmd, ?vin, fun hb hc => ⟨?k, ?n, ?grows, ?gcols, ?grow⟩⟩
  case unmapped => exact exec_wr_unmapped d ha (ofIndex_unmapped h32 h)
  case readOnly =>
    obtain ⟨q, hq, hro⟩ := ofIndex_readOnly h32 h
    exact exec_wr_readOnly d ha hq hro
  case status =>
    rintro rfl
    exact exec_wr_writable d ha (q := .status) rfl rfl
  case ien =>
    rintro rfl
    exact exec_wr_writable d ha (q := .ien) rfl rfl
  case busy =>
    obtain ⟨q, hq, hro, hst, hien⟩ := ofIndex_busyDropped h
    rw [exec_wr_writable d ha hq hro, writeReg_busy d hb hst hien]
    rfl
  case locked =>
    obtain ⟨q, hq, hl⟩ := ofIndex_lockable h
    rw [exec_wr_writable d ha hq (writable_of_lockable hl).1, writeReg_locked d hb hc hl]
    rfl
  case cmd =>
    rintro hb rfl
    rw [exec_wr_writable d ha (q := .cmd) rfl rfl, writeReg_cmd d hb]
    rfl
  case vin =>
    rintro hb rfl
    rw [exec_wr_writable d ha (q := .vin) rfl rfl, writeReg_vin d hb]
  case k =>
    rintro rfl
    exact exec_wr_unlocked d ha hb hc (q := .k) rfl rfl
  case n =>
    rintro rfl
    exact exec_wr_unlocked d ha hb hc (q := .n) rfl rfl
  case grows =>
    rintro rfl
    exact exec_wr_unlocked d ha hb hc (q := .grows) rfl rfl
  case gcols =>
    rintro rfl
    exact exec_wr_unlocked d ha hb hc (q := .gcols) rfl rfl
  case grow =>
    rintro i hi rfl
    rw [exec_wr_unlocked d ha hb hc (ofIndex_grow hi) rfl, State.storeReg, setRow_eq_set]

end Sys2Proof.Machine
end

section
/-! The primitives over packed vectors: weight and flip (40_gf2_primitives.md R82, R83, R88) and the
linearity of the product (R85). -/

namespace Sys2Proof.Machine

open Sys2Proof

/-! ### Weight and flip -/

theorem hammingWeight_eq_zero_iff (x : Word) : hammingWeight x = 0 ↔ x = 0 := by
  rw [hammingWeight, countSet_eq_zero_iff]
  constructor
  · exact fun h => word_ext fun i hi => (h i hi).trans BitVec.getLsbD_zero.symm
  · rintro rfl i _
    exact BitVec.getLsbD_zero

theorem flipBit_flipBit (x : Word) (m : Nat) : flipBit (flipBit x m) m = x := by
  rw [flipBit, flipBit, BitVec.xor_assoc, BitVec.xor_self, BitVec.xor_zero]

theorem getLsbD_flipBit_of_lt (x : Word) {m : Nat} (hm : m < 32) (i : Nat) :
    (flipBit x m).getLsbD i = (x.getLsbD i ^^ decide (i = m)) := by
  rw [getLsbD_flipBit]
  by_cases h : i = m
  · subst h
    simp [hm]
  · simp [h]

theorem hammingWeight_flipBit_of_clear {x : Word} {m : Nat} (hm : m < 32) (h : x.getLsbD m = false) :
    hammingWeight (flipBit x m) = hammingWeight x + 1 := by
  refine countSet_set hm h ?_ fun i hi => ?_
  · simp [getLsbD_flipBit_of_lt x hm, h]
  · simp [getLsbD_flipBit_of_lt x hm, hi]

/-- The flipped vector is clear at `m`, and flipping it again gives `x` back. -/
theorem hammingWeight_flipBit_of_set {x : Word} {m : Nat} (hm : m < 32) (h : x.getLsbD m = true) :
    hammingWeight (flipBit x m) + 1 = hammingWeight x := by
  have hclear : (flipBit x m).getLsbD m = false := by simp [getLsbD_flipBit_of_lt x hm, h]
  rw [← hammingWeight_flipBit_of_clear hm hclear, flipBit_flipBit]

/-- Settles O53: the sum modulo 2 of the bits is the parity of their count, and a flip at `m` changes
the count by the one symbol it changes. -/
theorem parityWeightFlip : Obligations.ParityWeightFlip := by
  refine ⟨fun x => sumMod2_eq_countSet 32 x.getLsbD,
    fun a b => sumMod2_congr fun i _ => BitVec.getLsbD_and,
    fun x => ⟨countSet_le 32 x.getLsbD, hammingWeight_eq_zero_iff x⟩, fun x m hm => ?_⟩
  exact ⟨flipBit_flipBit x m, getLsbD_flipBit_of_lt x hm, hammingWeight_flipBit_of_clear hm,
    hammingWeight_flipBit_of_set hm⟩

/-! ### The product -/

theorem getLsbD_mulMod2_of_lt (f : RowFile) {rows : Nat} (cols : Nat) (x : Word) (hrows : rows ≤ 32)
    {i : Nat} (hi : i < rows) :
    (mulMod2 f rows cols x).getLsbD i = parity (f.row i &&& x &&& mask cols) := by
  have h32 : i < 32 := by omega
  rw [getLsbD_mulMod2, decide_eq_true hi, decide_eq_true h32, Bool.and_self, Bool.true_and]

theorem getLsbD_mulMod2_of_ge (f : RowFile) {rows : Nat} (cols : Nat) (x : Word) {i : Nat}
    (hi : rows ≤ i) : (mulMod2 f rows cols x).getLsbD i = false := by
  simp [getLsbD_mulMod2, Nat.not_lt.mpr hi]

/-- The product is linear in the vector: masking a row distributes over the exclusive-or, and so does
the parity. -/
theorem mulMod2_xor (f : RowFile) (rows cols : Nat) (a b : Word) :
    mulMod2 f rows cols (a ^^^ b) = mulMod2 f rows cols a ^^^ mulMod2 f rows cols b := by
  refine word_ext fun i _ => ?_
  have hrow : f.row i &&& (a ^^^ b) &&& mask cols =
      (f.row i &&& a &&& mask cols) ^^^ (f.row i &&& b &&& mask cols) := by
    refine word_ext fun j _ => ?_
    simp only [BitVec.getLsbD_and, BitVec.getLsbD_xor, Bool.and_xor_distrib_left,
      Bool.and_xor_distrib_right]
  rw [BitVec.getLsbD_xor, getLsbD_mulMod2, getLsbD_mulMod2, getLsbD_mulMod2, hrow, parity_xor,
    Bool.and_xor_distrib_left]

/-- Settles O55: the product is packed from the parities of its rows, each an inner product over the
`cols` symbols the mask leaves. -/
theorem productIsLinear : Obligations.ProductIsLinear := by
  intro f rows cols a b hrows hcols
  refine ⟨fun i hi => getLsbD_mulMod2_of_lt f cols a hrows hi, fun i hi => ?_,
    fun i hi => getLsbD_mulMod2_of_ge f cols a hi, mulMod2_xor f rows cols a b⟩
  rw [getLsbD_mulMod2_of_lt f cols a hrows hi, parity_and_mask _ _ hcols]

end Sys2Proof.Machine
end

section
/-! The commands `CFG` and `SYN` (41_code_parameters.md): which code each test of `CFG` gives, the rows
it makes, and the symbols of the syndrome. -/

namespace Sys2Proof.Machine

open Sys2Proof

/-- A command that only raises a non-fatal code changes nothing else (60_exceptions.md R134). -/
theorem failsWith_of_exec_eq_raise {i : Instr} {s : State} {c : Code} (hc : c.isFatal = false)
    (h : exec i s = .next (s.raise c)) : FailsWith i s c := by
  refine ⟨_, h, ?_, ⟨rfl, rfl, rfl, rfl, rfl⟩, rfl, ⟨rfl, rfl, rfl, rfl⟩, fun _ => rfl,
    rfl, rfl, rfl, rfl, rfl⟩
  simp [Completed, hc]

/-! ### The tests of `CFG` in order (R90) -/

/-- The loop of `CFG` over its rows finds an entry outside the `r` columns, if there is one. -/
theorem hasStrayRow_iff (grow : RowFile) (k r : Nat) :
    hasStrayRow grow k r = true ↔ ∃ i j, i < k ∧ r ≤ j ∧ (grow.row i).getLsbD j = true := by
  simp only [hasStrayRow, List.any_eq_true, List.mem_range, decide_eq_true_eq, ne_eq,
    strayBits_eq_zero_iff, not_forall, Bool.not_eq_false, exists_prop, exists_and_left]

theorem hasStrayRow_eq_false_iff (grow : RowFile) (k r : Nat) :
    hasStrayRow grow k r = false ↔ ∀ i j, i < k → r ≤ j → (grow.row i).getLsbD j = false := by
  rw [← Bool.not_eq_true, hasStrayRow_iff]
  simp only [not_exists, not_and, Bool.not_eq_true]

theorem cfgError_of_k_le {s : State} (hk : s.k.toInt ≤ 0) : s.cfgError = some .eK := by
  rw [State.cfgError, if_pos hk]

theorem cfgError_of_n_lt {s : State} (hk : 0 < s.k.toInt) (hn : s.n.toInt < s.k.toInt) :
    s.cfgError = some .eN := by
  rw [State.cfgError, if_neg hk.not_ge, if_pos hn]

theorem cfgError_of_nmax_lt {s : State} (hk : 0 < s.k.toInt) (hn : s.k.toInt ≤ s.n.toInt)
    (hmax : s.config.nmax < s.n.toInt) : s.cfgError = some .eNmax := by
  rw [State.cfgError, if_neg hk.not_ge, if_neg hn.not_gt, if_pos hmax]

/-- With legal dimensions only the shape is left to test. -/
theorem cfgError_of_legal {s : State} (hk : 0 < s.k.toInt) (hn : s.k.toInt ≤ s.n.toInt)
    (hmax : s.n.toInt ≤ s.config.nmax) :
    s.cfgError = if s.grows ≠ s.k ∨ s.gcols ≠ s.n - s.k then some .eShape
      else if hasStrayRow s.grow s.kLen s.rLen then some .eShape else none := by
  rw [State.cfgError, if_neg hk.not_ge, if_neg hn.not_gt, if_neg hmax.not_gt]

theorem cfgError_of_shape {s : State} (hk : 0 < s.k.toInt) (hn : s.k.toInt ≤ s.n.toInt)
    (hmax : s.n.toInt ≤ s.config.nmax)
    (h : s.grows ≠ s.k ∨ s.gcols ≠ s.n - s.k ∨
      ∃ i j, i < s.kLen ∧ s.rLen ≤ j ∧ (s.grow.row i).getLsbD j = true) :
    s.cfgError = some .eShape := by
  rw [cfgError_of_legal hk hn hmax]
  by_cases hd : s.grows ≠ s.k ∨ s.gcols ≠ s.n - s.k
  · rw [if_pos hd]
  · have hstray := (or_assoc.mpr h).resolve_left hd
    rw [if_neg hd, if_pos ((hasStrayRow_iff _ _ _).mpr hstray)]

theorem cfgError_eq_none {s : State} (hk : 0 < s.k.toInt) (hn : s.k.toInt ≤ s.n.toInt)
    (hmax : s.n.toInt ≤ s.config.nmax) (hrows : s.grows = s.k) (hcols : s.gcols = s.n - s.k)
    (hstray : ∀ i j, i < s.kLen → s.rLen ≤ j → (s.grow.row i).getLsbD j = false) :
    s.cfgError = none := by
  rw [cfgError_of_legal hk hn hmax, (hasStrayRow_eq_false_iff _ _ _).mpr hstray]
  simp [hrows, hcols]

/-! ### The parity rows (R90) -/

theorem getLsbD_parityRows_of_lt (s : State) {i j : Nat} (hi : i < s.config.nmax) (hj : j < 32) :
    (s.parityRows.row i).getLsbD j =
      (decide (i < s.rLen) && decide (j < s.kLen) && (s.grow.row j).getLsbD i) := by
  have h32 : i < 32 := hi.trans_le s.config.nmax_le
  rw [State.parityRows, row_ofFn, dif_pos h32, if_pos hi]
  by_cases hr : i < s.rLen
  · rw [if_pos hr, getLsbD_transpose]
    simp [h32, hj]
  · simp [hr]

/-- `CFG` writes no row that does not exist. -/
theorem row_parityRows_of_ge (s : State) {i : Nat} (hi : s.config.nmax ≤ i) :
    s.parityRows.row i = s.prow.row i := by
  rw [State.parityRows, row_ofFn]
  by_cases h32 : i < 32
  · rw [dif_pos h32, if_neg hi.not_gt]
  · rw [dif_neg h32, row_of_ge _ (not_lt.mp h32)]

/-! ### `CFG` -/

theorem exec_cfg_gate {s : State} (hf : s.status.fatal = false) (hc : s.status.cfgv = true) :
    exec .cfg s = .next (s.raise .eSeq) := by
  rw [exec, execCfg, Status.gateCfg, hc]
  exact dispatch_gate _ hf

theorem exec_cfg_body {s : State} (hf : s.status.fatal = false) (hc : s.status.cfgv = false) :
    exec .cfg s = .next (cfgBody s) := by
  rw [exec, execCfg, Status.gateCfg, hc]
  exact dispatch_body _ hf

/-- No test of `CFG` gives a fatal code, so the first that fails only reports. -/
theorem failsWith_of_cfgError {s : State} {c : Code} (hf : s.status.fatal = false)
    (hc : s.status.cfgv = false) (he : s.cfgError = some c) : FailsWith .cfg s c := by
  rcases cfgBody_cases s with ⟨c', hmem, he', hbody⟩ | ⟨hnone, _⟩
  · obtain rfl : c' = c := Option.some.inj (he'.symm.trans he)
    have hfatal : ∀ c ∈ [Code.eK, .eN, .eNmax, .eShape], c.isFatal = false := by decide
    exact failsWith_of_exec_eq_raise (hfatal c' hmem) (by rw [exec_cfg_body hf hc, hbody])
  · rw [hnone] at he
    cases he

theorem exec_cfg_ok {s : State} (hf : s.status.fatal = false) (hc : s.status.cfgv = false)
    (he : s.cfgError = none) : exec .cfg s = .next (State.complete
      { s with prow := s.parityRows, status := { s.status with cfgv := true } } .ok) := by
  rw [exec_cfg_body hf hc, cfgBody, he]

/-- Settles O30: each premise names the first failing test, and past the last one the rows are those of
the transpose. -/
theorem cfgConstructsCode : Obligations.CfgConstructsCode := by
  refine ⟨rfl, fun s hf => ⟨fun hc => ?gate, fun hc => ⟨fun hk => ?eK, fun hk hn => ?eN,
    fun hk hn hmax => ?eNmax, fun hk hn hmax => ⟨fun h => ?eShape, fun hrows hcols hstray => ?ok⟩⟩⟩⟩
  case gate => exact failsWith_of_exec_eq_raise rfl (exec_cfg_gate hf hc)
  case eK => exact failsWith_of_cfgError hf hc (cfgError_of_k_le hk)
  case eN => exact failsWith_of_cfgError hf hc (cfgError_of_n_lt hk hn)
  case eNmax => exact failsWith_of_cfgError hf hc (cfgError_of_nmax_lt hk hn hmax)
  case eShape => exact failsWith_of_cfgError hf hc (cfgError_of_shape hk hn hmax h)
  case ok =>
    exact ⟨_, exec_cfg_ok hf hc (cfgError_eq_none hk hn hmax hrows hcols hstray), rfl,
      fun i j hi hj => getLsbD_parityRows_of_lt s hi hj, fun i hi => row_parityRows_of_ge s hi,
      ⟨rfl, rfl, rfl, rfl, rfl⟩, ⟨rfl, rfl, rfl, rfl⟩, fun _ => rfl, rfl, rfl, rfl, rfl, rfl⟩

/-! ### `SYN` (R91) -/

theorem getLsbD_syndromeOf_of_lt {s : State} (hp : s.paramsLegal = true) (v : Word) {i : Nat}
    (hi : i < s.rLen) : (s.syndromeOf v).getLsbD i =
      (parity (s.prow.row i &&& v &&& mask s.kLen) ^^ v.getLsbD (s.kLen + i)) := by
  obtain ⟨_, _, _, hn, _⟩ := lengths_of_paramsLegal hp
  have hr : i < s.nLen - s.kLen := hi
  have h32 : i < 32 := by omega
  rw [State.syndromeOf, getLsbD_syndrome, decide_eq_true hr, decide_eq_true h32, Bool.and_self,
    Bool.true_and]

theorem getLsbD_syndromeOf_of_ge (s : State) (v : Word) {i : Nat} (hi : s.rLen ≤ i) :
    (s.syndromeOf v).getLsbD i = false := by
  have hr : ¬ i < s.nLen - s.kLen := hi.not_gt
  rw [State.syndromeOf, getLsbD_syndrome, decide_eq_false hr, Bool.false_and, Bool.false_and]

theorem exec_syn_gate {s : State} (hf : s.status.fatal = false) (hc : s.status.cfgv = false) :
    exec .syn s = .next (s.raise .eSeq) := by
  rw [exec, execSyn, Status.gateCode, hc]
  exact dispatchCoded_gate _ hf

theorem exec_syn_body {s : State} (hf : s.status.fatal = false) (hc : s.status.cfgv = true)
    (hp : s.paramsLegal = true) : exec .syn s = .next (synBody s) := by
  rw [exec, execSyn, Status.gateCode, hc]
  exact dispatchCoded_body _ hf hp

theorem exec_syn_stray {s : State} (hf : s.status.fatal = false) (hc : s.status.cfgv = true)
    (hp : s.paramsLegal = true) (hv : strayBits s.nLen s.vin ≠ 0) :
    exec .syn s = .next (s.raise .eVlen) := by
  rw [exec_syn_body hf hc hp, synBody, if_pos hv]

theorem exec_syn_ok {s : State} (hf : s.status.fatal = false) (hc : s.status.cfgv = true)
    (hp : s.paramsLegal = true) (hv : strayBits s.nLen s.vin = 0) :
    exec .syn s = .next (State.complete { s with synd := s.syndromeOf s.vin } .ok) := by
  rw [exec_syn_body hf hc hp, synBody, if_neg (not_not.mpr hv)]

/-- Settles O31: past its gate `SYN` tests `VIN` for stray bits and writes the syndrome, whose symbols
are read one by one. -/
theorem synWritesSyndrome : Obligations.SynWritesSyndrome := by
  refine ⟨rfl, fun s hf => ⟨fun hc => ?gate, fun hc hp => ⟨fun hv => ?stray, fun hv => ?ok⟩⟩⟩
  case gate => exact failsWith_of_exec_eq_raise rfl (exec_syn_gate hf hc)
  case stray => exact failsWith_of_exec_eq_raise rfl (exec_syn_stray hf hc hp hv)
  case ok =>
    exact ⟨_, exec_syn_ok hf hc hp hv, rfl, fun i hi => getLsbD_syndromeOf_of_lt hp s.vin hi,
      fun i hi => getLsbD_syndromeOf_of_ge s s.vin hi, rfl, rfl, rfl, ⟨rfl, rfl, rfl, rfl, rfl⟩, rfl,
      fun _ => rfl, rfl, rfl, rfl, rfl, rfl⟩

end Sys2Proof.Machine
end

section
/-! The command `LDW` (42_coset_leader_table.md R104): how each test of it ends, and the leader weight
of the zero syndrome. -/

namespace Sys2Proof.Machine

open Sys2Proof

/-! ### The zero syndrome -/

theorem parity_zero : parity 0 = false :=
  (sumMod2_congr fun _ _ => BitVec.getLsbD_zero).trans (sumMod2_false 32)

theorem syndromeOf_zero (s : State) : s.syndromeOf 0 = 0 := by
  refine word_ext fun i _ => ?_
  have hrow : s.prow.row i &&& 0 &&& mask s.kLen = 0 := by simp
  rw [State.syndromeOf, getLsbD_syndrome, hrow, parity_zero]
  simp

theorem isVector_zero (len : Nat) : IsVector len 0 :=
  BitVec.zero_and

theorem valid_zero_of_holdsTable {s : State} (ht : HoldsTable s) : (s.tmem.read 0).valid = true :=
  ht.seen 0 (Nat.two_pow_pos _)

/-- The zero vector has the zero syndrome and weight 0, and no leader weighs more than a vector of its
syndrome. -/
theorem weight_zero_of_holdsTable {s : State} (ht : HoldsTable s) : (s.tmem.read 0).weight = 0 := by
  have hle : (s.tmem.read (s.syndromeOf 0).toNat).weight.toNat ≤ hammingWeight 0 :=
    ht.least 0 (isVector_zero _)
  rw [syndromeOf_zero, (hammingWeight_eq_zero_iff 0).mpr rfl, Nat.le_zero] at hle
  exact BitVec.eq_of_toNat_eq hle

/-! ### `LDW` -/

theorem exec_ldw_gate {s : State} (hf : s.status.fatal = false) (ht : s.status.tblv = false) :
    exec .ldw s = .next (s.raise .eSeq) := by
  rw [exec, execLdw, Status.gateTable, ht]
  exact dispatchCoded_gate _ hf

section
variable {s : State} (hf : s.status.fatal = false) (ht : s.status.tblv = true)
  (hp : s.paramsLegal = true)
include hf ht hp

theorem exec_ldw_body : exec .ldw s = .next (ldwBody s) := by
  rw [exec, execLdw, Status.gateTable, ht]
  exact dispatchCoded_body _ hf hp

theorem exec_ldw_stray (hv : strayBits s.rLen s.vin ≠ 0) : exec .ldw s = .next (s.raise .eVlen) := by
  rw [exec_ldw_body hf ht hp, ldwBody, if_pos hv]

theorem exec_ldw_miss (hv : strayBits s.rLen s.vin = 0)
    (hm : (s.tmem.read s.vin.toNat).valid = false) : exec .ldw s = .next (s.raise .eMiss) := by
  rw [exec_ldw_body hf ht hp, ldwBody, if_neg (not_not.mpr hv)]
  exact congrArg _ (if_pos hm)

theorem exec_ldw_ok (hv : strayBits s.rLen s.vin = 0)
    (hm : (s.tmem.read s.vin.toNat).valid = true) :
    exec .ldw s = .next (State.complete
      { s with wgt := (s.tmem.read s.vin.toNat).weight.setWidth 32 } .ok) := by
  rw [exec_ldw_body hf ht hp, ldwBody, if_neg (not_not.mpr hv)]
  exact congrArg _ (if_neg (ne_false_of_eq_true hm))

end

/-- Settles O34: `LDW` tests its gate, then `VIN` for stray bits, then the entry, and copies the weight;
the entry of the zero syndrome exists in the complete table and has weight 0. -/
theorem ldwReadsLeaderWeight : Obligations.LdwReadsLeaderWeight := by
  refine ⟨rfl, fun s hf => ⟨fun ht => ?gate, fun ht hp => ⟨fun hv => ?stray, fun hv hm => ?miss,
    fun hv hm => ?ok, fun _ htab hzero => ?zero⟩⟩⟩
  case gate => exact failsWith_of_exec_eq_raise rfl (exec_ldw_gate hf ht)
  case stray => exact failsWith_of_exec_eq_raise rfl (exec_ldw_stray hf ht hp hv)
  case miss =>
    refine ⟨_, exec_ldw_miss hf ht hp hv hm, ?_, ⟨rfl, rfl, rfl, rfl, rfl⟩, rfl,
      ⟨rfl, rfl, rfl, rfl⟩, fun _ => rfl, rfl, rfl, rfl, rfl, rfl⟩
    rw [raise_status, Code.isFatal, Bool.or_true]
  case ok =>
    exact ⟨_, exec_ldw_ok hf ht hp hv hm, rfl, BitVec.toNat_setWidth_of_le (by decide), rfl, rfl, rfl,
      ⟨rfl, rfl, rfl, rfl, rfl⟩, rfl, fun _ => rfl, rfl, rfl, rfl, rfl, rfl⟩
  case zero =>
    have hv : strayBits s.rLen s.vin = 0 := by
      rw [hzero]
      exact isVector_zero _
    have hread : s.tmem.read s.vin.toNat = s.tmem.read 0 := by
      rw [hzero]
      rfl
    have hm : (s.tmem.read s.vin.toNat).valid = true := by rw [hread, valid_zero_of_holdsTable htab]
    refine ⟨_, exec_ldw_ok hf ht hp hv hm, rfl, ?_⟩
    rw [hread, weight_zero_of_holdsTable htab]
    rfl

end Sys2Proof.Machine
end

section
/-! The command `ENC` (43_codec.md R110): the symbols of the codeword one by one, its zero syndrome, and
how each test of the command ends. -/

namespace Sys2Proof.Machine

open Sys2Proof

/-! ### The symbols of a codeword (40_gf2_primitives.md R87) -/

section
variable {s : State} (hp : s.paramsLegal = true)
include hp

theorem getLsbD_encodeOf (msg : Word) (i : Nat) : (s.encodeOf msg).getLsbD i =
    (msg.getLsbD i || (decide (s.kLen ≤ i) &&
      (parityBits s.kLen s.nLen s.grow msg).getLsbD (i - s.kLen))) := by
  obtain ⟨_, _, _, hn, _⟩ := lengths_of_paramsLegal hp
  exact getLsbD_encodeMessage s.kLen s.nLen s.grow msg hn i

theorem getLsbD_parityBits_of_lt (msg : Word) {j : Nat} (hj : j < s.rLen) :
    (parityBits s.kLen s.nLen s.grow msg).getLsbD j =
      sumMod2 s.kLen fun i => msg.getLsbD i && (s.grow.row i).getLsbD j := by
  obtain ⟨_, _, _, hn, _⟩ := lengths_of_paramsLegal hp
  have hr : j < s.nLen - s.kLen := hj
  have h32 : j < 32 := by omega
  rw [getLsbD_parityBits, decide_eq_true hr, decide_eq_true h32, Bool.and_self, Bool.true_and]

theorem getLsbD_encodeOf_message (msg : Word) {i : Nat} (hi : i < s.kLen) :
    (s.encodeOf msg).getLsbD i = msg.getLsbD i := by
  rw [getLsbD_encodeOf hp, decide_eq_false hi.not_ge, Bool.false_and, Bool.or_false]

/-- A message has no symbol at or above `k`, so there the codeword is the parity symbols alone. -/
theorem getLsbD_encodeOf_of_ge {msg : Word} (hv : IsVector s.kLen msg) {i : Nat} (hi : s.kLen ≤ i) :
    (s.encodeOf msg).getLsbD i =
      (parityBits s.kLen s.nLen s.grow msg).getLsbD (i - s.kLen) := by
  rw [getLsbD_encodeOf hp, (strayBits_eq_zero_iff _ _).mp hv i hi, decide_eq_true hi, Bool.true_and,
    Bool.false_or]

theorem getLsbD_encodeOf_parity {msg : Word} (hv : IsVector s.kLen msg) {j : Nat} (hj : j < s.rLen) :
    (s.encodeOf msg).getLsbD (s.kLen + j) =
      sumMod2 s.kLen fun i => msg.getLsbD i && (s.grow.row i).getLsbD j := by
  rw [getLsbD_encodeOf_of_ge hp hv (Nat.le_add_right _ _), Nat.add_sub_cancel_left,
    getLsbD_parityBits_of_lt hp msg hj]

theorem isVector_encodeOf {msg : Word} (hv : IsVector s.kLen msg) :
    IsVector s.nLen (s.encodeOf msg) := by
  obtain ⟨_, hkn, _⟩ := lengths_of_paramsLegal hp
  refine (strayBits_eq_zero_iff _ _).mpr fun i hi => ?_
  have hr : ¬ i - s.kLen < s.nLen - s.kLen := by omega
  rw [getLsbD_encodeOf_of_ge hp hv (hkn.trans hi), getLsbD_parityBits, decide_eq_false hr,
    Bool.false_and, Bool.false_and]

end

/-! ### The syndrome of a codeword (40_gf2_primitives.md R89 item 3) -/

/-- `PROW` is the transpose of `GROW`: its row `i` and a vector have as inner product over the message
symbols the parity symbol `i` of that message. -/
theorem parity_prow_of_holdsCode {s : State} (hc : HoldsCode s) (v : Word) {i : Nat} (hi : i < s.rLen) :
    parity (s.prow.row i &&& v &&& mask s.kLen) =
      sumMod2 s.kLen fun j => v.getLsbD j && (s.grow.row j).getLsbD i := by
  obtain ⟨_, hkn, _, hn, _⟩ := lengths_of_paramsLegal hc.legal
  have hr : i < s.nLen - s.kLen := hi
  rw [parity_and_mask _ _ (hkn.trans hn)]
  refine sumMod2_congr fun j hj => ?_
  rw [hc.parity i j (by omega) (by omega), decide_eq_true hi, decide_eq_true hj, Bool.and_self,
    Bool.true_and, Bool.and_comm]

/-- Each syndrome symbol of a codeword adds the parity symbol to itself. -/
theorem syndromeOf_encodeOf {s : State} (hc : HoldsCode s) {msg : Word} (hv : IsVector s.kLen msg) :
    s.syndromeOf (s.encodeOf msg) = 0 := by
  refine word_ext fun i _ => Eq.trans ?_ BitVec.getLsbD_zero.symm
  by_cases hi : i < s.rLen
  · have hmsg : (sumMod2 s.kLen fun j => (s.encodeOf msg).getLsbD j && (s.grow.row j).getLsbD i) =
        sumMod2 s.kLen fun j => msg.getLsbD j && (s.grow.row j).getLsbD i :=
      sumMod2_congr fun j hj => by rw [getLsbD_encodeOf_message hc.legal msg hj]
    rw [getLsbD_syndromeOf_of_lt hc.legal _ hi, parity_prow_of_holdsCode hc _ hi, hmsg,
      getLsbD_encodeOf_parity hc.legal hv hi, Bool.xor_self]
  · exact getLsbD_syndromeOf_of_ge s _ (not_lt.mp hi)

/-! ### `ENC` -/

theorem exec_enc_gate {s : State} (hf : s.status.fatal = false) (hc : s.status.cfgv = false) :
    exec .enc s = .next (s.raise .eSeq) := by
  rw [exec, execEnc, Status.gateCode, hc]
  exact dispatchCoded_gate _ hf

section
variable {s : State} (hf : s.status.fatal = false) (hc : s.status.cfgv = true)
  (hp : s.paramsLegal = true)
include hf hc hp

theorem exec_enc_body : exec .enc s = .next (encBody s) := by
  rw [exec, execEnc, Status.gateCode, hc]
  exact dispatchCoded_body _ hf hp

theorem exec_enc_stray (hv : strayBits s.kLen s.vin ≠ 0) : exec .enc s = .next (s.raise .eVlen) := by
  rw [exec_enc_body hf hc hp, encBody, if_pos hv]

theorem exec_enc_ok (hv : strayBits s.kLen s.vin = 0) :
    exec .enc s = .next (State.complete { s with vout := s.encodeOf s.vin } .ok) := by
  rw [exec_enc_body hf hc hp, encBody, if_neg (not_not.mpr hv)]

end

/-- Settles O35: past its gate `ENC` tests `VIN` for stray bits and writes the codeword, whose symbols
are read one by one; on a CodeParameters object its syndrome cancels. -/
theorem encWritesCodeword : Obligations.EncWritesCodeword := by
  refine ⟨rfl, fun s hf => ⟨fun hc => ?gate, fun hc hp => ⟨fun hv => ?stray, fun hv => ?ok⟩⟩⟩
  case gate => exact failsWith_of_exec_eq_raise rfl (exec_enc_gate hf hc)
  case stray => exact failsWith_of_exec_eq_raise rfl (exec_enc_stray hf hc hp hv)
  case ok =>
    exact ⟨_, exec_enc_ok hf hc hp hv, rfl, fun i hi => getLsbD_encodeOf_message hp s.vin hi,
      fun j hj => getLsbD_encodeOf_parity hp hv hj,
      (strayBits_eq_zero_iff _ _).mp (isVector_encodeOf hp hv),
      fun hcode => syndromeOf_encodeOf hcode hv, rfl, rfl, rfl, ⟨rfl, rfl, rfl, rfl, rfl⟩, rfl,
      fun _ => rfl, rfl, rfl, rfl, rfl, rfl⟩

end Sys2Proof.Machine
end

section
/-! The command protocol (44_control.md): issue, the illegal words, `RST`, and the lifecycle gate. -/

namespace Sys2Proof.Machine

open Sys2Proof

/-! ### Issue (R120) -/

theorem exec_wr_cmd_idle {s : State} (w : Word) (hb : s.status.busy = false) :
    exec (.wr 2 w) s = .next (s.issue w) := by
  rw [exec_wr_writable w (by decide) (q := .cmd) rfl rfl, writeReg_cmd w hb]

theorem exec_wr_cmd_busy {s : State} (w : Word) (hb : s.status.busy = true) :
    exec (.wr 2 w) s = .next s.setOvr := by
  rw [exec_wr_writable w (by decide) (q := .cmd) rfl rfl, writeReg_busy (q := .cmd) w hb nofun nofun]

/-- Settles O16: a write to `CMD` issues the word when idle and only sets `OVR` when busy. -/
theorem commandIssue : Obligations.CommandIssue := by
  intro s w
  cases hb : s.status.busy with
  | false =>
    exact ⟨_, exec_wr_cmd_idle w hb, fun _ => ⟨rfl, rfl, rfl, ⟨rfl, rfl, rfl, rfl, rfl⟩, rfl,
      ⟨rfl, rfl, rfl, rfl⟩, fun _ => rfl, rfl, rfl, rfl, rfl, rfl⟩, nofun⟩
  | true =>
    exact ⟨_, exec_wr_cmd_busy w hb, nofun, fun _ => ⟨rfl, rfl, ⟨rfl, rfl, rfl, rfl, rfl⟩, rfl,
      ⟨rfl, rfl, rfl, rfl⟩, fun _ => rfl, rfl, rfl, rfl, rfl, rfl⟩⟩

/-! ### Illegal words (R125) -/

theorem encode_of_decodeOpcode {op : BitVec 8} {i : Instr} (h : decodeOpcode op = .ok i) :
    encode i = .command (op.setWidth 32) := by
  rw [decodeOpcode] at h
  split_ifs at h <;> cases h <;> subst op <;> rfl

/-- A legal command word is the one encoding of its instruction (30_encoding.md R62). -/
theorem encode_of_decodeCommand {w : Word} {i : Instr} (h : decodeCommand w = .ok i) :
    encode i = .command w := by
  rw [decodeCommand] at h
  split at h
  case isTrue hz => rw [eq_opField_of_zeroField hz, encode_of_decodeOpcode h]
  case isFalse => cases h

/-- A word is illegal once it is none of the seven encodings (R122 case 1). -/
theorem decodeCommand_illegal {w : Word} (hcfg : w ≠ 0x01) (hbuild : w ≠ 0x02) (henc : w ≠ 0x03)
    (hdec : w ≠ 0x05) (hsyn : w ≠ 0x06) (hldw : w ≠ 0x07) (hrst : w ≠ 0x0F) :
    ∃ e, decodeCommand w = .error e := by
  cases h : decodeCommand w with
  | error e => exact ⟨e, rfl⟩
  | ok i =>
    have hw : encode i = .command w := encode_of_decodeCommand h
    cases i with
    | cfg => exact absurd (Encoded.command.inj hw).symm hcfg
    | build => exact absurd (Encoded.command.inj hw).symm hbuild
    | enc => exact absurd (Encoded.command.inj hw).symm henc
    | dec => exact absurd (Encoded.command.inj hw).symm hdec
    | syn => exact absurd (Encoded.command.inj hw).symm hsyn
    | ldw => exact absurd (Encoded.command.inj hw).symm hldw
    | rst => exact absurd (Encoded.command.inj hw).symm hrst
    | wr a d => cases hw
    | rd a => cases hw

theorem engineTurn_illegal {s : State} {e : DecodeError} (hb : s.status.busy = true)
    (he : decodeCommand s.pend = .error e) : engineTurn s = .next (s.raise .eIllcmd) := by
  rw [engineTurn, if_pos hb, completePending, he, completeIllegal]

/-- Settles O8: a word that is none of the seven does not decode, and the engine then only raises
`E_ILLCMD`, without a look at the lifecycle. -/
theorem illegalWordOnlyReports : Obligations.IllegalWordOnlyReports := by
  intro s rest hin hb hcfg hbuild henc hdec hsyn hldw hrst
  obtain ⟨e, he⟩ := decodeCommand_illegal hcfg hbuild henc hdec hsyn hldw hrst
  refine ⟨State.raise { s with inputs := rest } .eIllcmd, ?step, rfl, ?status,
    ⟨rfl, rfl, rfl, rfl, rfl⟩, rfl, ⟨rfl, rfl, rfl, rfl⟩, fun _ => rfl, rfl, rfl, rfl, rfl, rfl⟩
  case step => exact (step_engine hin).trans (engineTurn_illegal hb he)
  case status => simp [Completed, Code.isFatal]

/-! ### `RST` (R124) -/

theorem statusWord_reset : Status.reset.word = 0 := by decide

theorem ienWord_reset : IntEnable.reset.word = 0 := by decide

/-- The reset values, register by register (70_reset_and_hazards.md R151). -/
theorem resetFrom_toReset (s : State) : ResetFrom s s.toReset :=
  ⟨statusWord_reset, ienWord_reset, rfl, rfl, rfl, rfl, row_reset, row_reset, rfl, rfl, rfl, rfl, rfl,
    irq_of_ien_reset rfl, rfl, rfl⟩

/-- Settles O12: `RST` and the `rst` pin are one reset, and a busy machine drops the `CMD` write. -/
theorem rstCommandResets : Obligations.RstCommandResets := by
  refine ⟨rfl, fun s => ⟨_, rfl, resetFrom_toReset s, rfl, rfl⟩, fun s rest hin => ?pin,
    fun s hb => ?busy⟩
  case pin => exact step_rstPin hin
  case busy => exact exec_wr_cmd_busy _ hb

/-! ### The lifecycle gate (R123) -/

/-- In lifecycle FATAL the gate is not looked at (R122 case 3). -/
theorem exec_command_fatal {i : Instr} {s : State} (hi : IsCommand i) (hf : s.status.fatal = true) :
    exec i s = .next (s.raise .eFatal) := by
  rcases hi with rfl | rfl | rfl | rfl | rfl | rfl
  case inl => exact dispatch_fatal _ _ hf
  all_goals exact dispatchCoded_fatal _ _ hf

theorem exec_build_gate {s : State} (hf : s.status.fatal = false)
    (hg : s.status.cfgv = false ∨ s.status.tblv = true) : exec .build s = .next (s.raise .eSeq) := by
  have hgate : s.status.gateBuild = false := by
    rcases hg with hc | ht
    · rw [Status.gateBuild, hc, Bool.false_and]
    · rw [Status.gateBuild, ht, Bool.not_true, Bool.and_false]
  rw [exec, execBuild, hgate]
  exact dispatchCoded_gate _ hf

theorem exec_dec_gate {s : State} (hf : s.status.fatal = false) (ht : s.status.tblv = false) :
    exec .dec s = .next (s.raise .eSeq) := by
  rw [exec, execDec, Status.gateTable, ht]
  exact dispatchCoded_gate _ hf

/-- No command's own pseudocode ends with `E_SEQ`. -/
theorem ecode_ne_eSeq_of_ran {i : Instr} {s t : State} (h : Ran s t i) : t.status.ecode ≠ .eSeq := by
  cases h
  case cfgError hmem _ ht =>
    have hcodes : ∀ c ∈ [Code.eK, .eN, .eNmax, .eShape], c ≠ .eSeq := by decide
    rw [ht]
    exact hcodes _ hmem
  case build ht =>
    rcases buildBody_cases s with ⟨_, hb⟩ | ⟨_, hb⟩ <;> rw [ht, hb] <;> nofun
  all_goals
    subst t
    nofun

/-- The command's condition in the table of R123 is met. -/
def PassesGate (i : Instr) (st : Status) : Prop :=
  (i = .cfg ∧ st.cfgv = false) ∨ (i = .build ∧ st.cfgv = true ∧ st.tblv = false) ∨
    ((i = .enc ∨ i = .syn) ∧ st.cfgv = true) ∨ ((i = .dec ∨ i = .ldw) ∧ st.tblv = true)

theorem isCommand_of_passesGate {i : Instr} {st : Status} (h : PassesGate i st) : IsCommand i := by
  rcases h with ⟨rfl, _⟩ | ⟨rfl, _⟩ | ⟨rfl | rfl, _⟩ | ⟨rfl | rfl, _⟩ <;> simp [IsCommand]

/-- A command that meets its condition is not refused: a refusal names a condition that fails. -/
theorem ran_of_passesGate {i : Instr} {s t : State} (hf : s.status.fatal = false)
    (hg : PassesGate i s.status) (h : exec i s = .next t) : Ran s t i := by
  rcases command_cases (isCommand_of_passesGate hg) h with
    ⟨hfatal, _⟩ | ⟨_, _, hcfg, hbuild, hcode, htable⟩ | ⟨_, hran⟩
  · cases hf.symm.trans hfatal
  · rcases hg with ⟨hi, hc⟩ | ⟨hi, hc, ht⟩ | ⟨hi, hc⟩ | ⟨hi, ht⟩
    · cases hc.symm.trans (hcfg hi)
    · rcases hbuild hi with hc' | ht'
      · cases hc.symm.trans hc'
      · cases ht.symm.trans ht'
    · cases hc.symm.trans (hcode hi)
    · cases ht.symm.trans (htable hi)
  · exact hran

/-- Settles O24: `E_FATAL` first, then row by row the gate of each command; past it a command runs, and
none of its own codes is `E_SEQ`. -/
theorem lifecycleGate : Obligations.LifecycleGate := by
  refine fun i s => ⟨fun hf hi => ?fatal,
    fun hf => ⟨?cfg, ?build, ?code, ?table, fun t h hg => ?passes⟩, ?rst⟩
  case fatal => exact failsWith_of_exec_eq_raise rfl (exec_command_fatal hi hf)
  case cfg =>
    rintro rfl hc
    exact failsWith_of_exec_eq_raise rfl (exec_cfg_gate hf hc)
  case build =>
    rintro rfl hg
    exact failsWith_of_exec_eq_raise rfl (exec_build_gate hf hg)
  case code =>
    rintro (rfl | rfl) hc
    · exact failsWith_of_exec_eq_raise rfl (exec_enc_gate hf hc)
    · exact failsWith_of_exec_eq_raise rfl (exec_syn_gate hf hc)
  case table =>
    rintro (rfl | rfl) ht
    · exact failsWith_of_exec_eq_raise rfl (exec_dec_gate hf ht)
    · exact failsWith_of_exec_eq_raise rfl (exec_ldw_gate hf ht)
  case passes => exact ecode_ne_eSeq_of_ran (ran_of_passesGate hf hg h)
  case rst =>
    rintro rfl
    exact ⟨_, rfl, resetFrom_toReset s⟩

end Sys2Proof.Machine
end

section
/-! The precise errors (60_exceptions.md R134): a command that ends neither `OK` nor with a fatal code
did nothing but raise its code, and raising a non-fatal code touches only `BUSY`, `DONE` and `ECODE`. -/

namespace Sys2Proof.Machine

open Sys2Proof

/-- Of the state a host can see, raising a non-fatal code changes `BUSY`, `DONE` and `ECODE` only. -/
theorem raise_nonFatal_frame (s : State) {c : Code} (hc : c.isFatal = false) :
    Completed s (s.raise c) c ∧ SameCode s (s.raise c) ∧ (s.raise c).prow = s.prow ∧
      SameResults s (s.raise c) ∧ SameTable s (s.raise c) ∧ SameHost s (s.raise c) := by
  refine ⟨?completed, ⟨rfl, rfl, rfl, rfl, rfl⟩, rfl, ⟨rfl, rfl, rfl, rfl⟩, fun _ => rfl,
    rfl, rfl, rfl, rfl, rfl⟩
  case completed => rw [Completed, raise_status, hc, Bool.or_false]

/-- `BUILD` past its gate ends `OK` or with the fatal `E_RANK`. -/
theorem ecode_buildBody (s : State) :
    (buildBody s).status.ecode = .ok ∨ (buildBody s).status.ecode = .eRank := by
  rcases buildBody_cases s with ⟨_, hb⟩ | ⟨_, hb⟩
  · exact .inr (by rw [hb]; rfl)
  · exact .inl (by rw [hb]; rfl)

/-- A command's own pseudocode writes a register only on a path that ends `OK` or with a fatal code. -/
theorem eq_raise_of_ran {i : Instr} {s t : State} (h : Ran s t i) (hok : t.status.ecode ≠ .ok)
    (hfatal : t.status.ecode.isFatal = false) : t = s.raise t.status.ecode := by
  cases h
  case cfgError ht | encStray ht | synStray ht | ldwStray ht | decStray ht =>
    subst t
    rfl
  case cfg ht | enc ht | syn ht | ldw ht | dec ht =>
    subst t
    exact absurd rfl hok
  case ldwMiss ht | decMiss ht | decNoconv ht =>
    subst t
    cases hfatal
  case build ht =>
    subst t
    rcases ecode_buildBody s with hc | hc
    · exact absurd hc hok
    · rw [hc] at hfatal
      cases hfatal

/-- Neither `E_FATAL` nor `E_SEQ` lets the command begin, so the claim is the one about its own
pseudocode. -/
theorem eq_raise_of_exec {i : Instr} {s t : State} (hi : IsCommand i) (h : exec i s = .next t)
    (hok : t.status.ecode ≠ .ok) (hfatal : t.status.ecode.isFatal = false) :
    t = s.raise t.status.ecode := by
  rcases command_cases hi h with ⟨_, rfl⟩ | ⟨_, rfl, _⟩ | ⟨_, hran⟩
  · rfl
  · rfl
  · exact eq_raise_of_ran hran hok hfatal

theorem completePending_illegal {s : State} {e : DecodeError} (he : decodeCommand s.pend = .error e) :
    completePending s = .next (s.raise .eIllcmd) := by
  rw [completePending, he, completeIllegal]

/-- Settles O27: a command that ends with one of these codes, and an illegal word, only raises its
code, which is not fatal. -/
theorem nonFatalErrorIsPrecise : Obligations.NonFatalErrorIsPrecise := by
  have hcodes : ∀ c ∈ [Code.eK, .eN, .eNmax, .eShape, .eVlen, .eIllcmd, .eSeq, .eFatal],
      c ≠ .ok ∧ c.isFatal = false := by decide
  refine ⟨fun i s t hi h hmem => ?command, fun s e he => ?illegal⟩
  case command =>
    obtain ⟨hok, hfatal⟩ := hcodes _ hmem
    have hframe := raise_nonFatal_frame s hfatal
    rwa [← eq_raise_of_exec hi h hok hfatal] at hframe
  case illegal => exact ⟨_, completePending_illegal he, raise_nonFatal_frame s rfl⟩

end Sys2Proof.Machine
end

section
/-! The values after reset (70_reset_and_hazards.md R151): a reset of the reset state is the reset state,
so the values every reset leaves are its own. -/

namespace Sys2Proof.Machine

open Sys2Proof

theorem toReset_reset : State.reset.toReset = State.reset := rfl

theorem resetFrom_reset : ResetFrom State.reset State.reset := by
  have h := resetFrom_toReset State.reset
  rwa [toReset_reset] at h

theorem readReg_id (s : State) : s.readReg .id = 0x47463201 := rfl

/-- 10_state.md R23 at the default parameter, `NMAX = 20`. -/
theorem readReg_cap_of_default {s : State} (h : s.config = Config.default) :
    s.readReg .cap = 0x00000614 := by
  rw [State.readReg, h]
  decide

/-- Settles O11: the reset state has the values a reset leaves, and the default `NMAX` that `CAP` shows. -/
theorem resetStateValues : Obligations.ResetStateValues :=
  ⟨resetFrom_reset, readReg_id _, readReg_cap_of_default rfl, rfl⟩

end Sys2Proof.Machine
end

section
/-! The encoding in both directions (30_encoding.md R60 to R65): commands by the opcode map, records by
their three fields. -/

namespace Sys2Proof

open Sys2Proof.Machine

/-! ### Records (R65) -/

theorem decodeRecord_wr {a : Nat} (d : Word) (ha : a < 128) :
    decodeRecord (mkRecord true a d) = .ok (.wr a d) := by
  simp [decodeRecord, decodeBus, Nat.mod_eq_of_lt ha]

theorem decodeRecord_rd {a : Nat} (ha : a < 128) : decodeRecord (mkRecord false a 0) = .ok (.rd a) := by
  simp [decodeRecord, decodeBus, Nat.mod_eq_of_lt ha]

/-- The decoder answers what the ports carry, or nothing. -/
theorem decodeBus_of_decodeRecord {t : Record} {i : Instr} (h : decodeRecord t = .ok i) :
    decodeBus t = i := by
  rw [decodeRecord] at h
  split at h
  case isTrue => cases h
  case isFalse => exact Except.ok.inj h

/-- What a record decodes to has an index of 7 bits, and the record is made of its fields. -/
theorem wf_and_encode_of_decodeRecord {t : Record} {i : Instr} (h : decodeRecord t = .ok i) :
    i.wf = true ∧ encode i = .record t := by
  rw [← decodeBus_of_decodeRecord h, decodeBus]
  cases hw : weField t with
  | true =>
    have ht : mkRecord true (addrField t).toNat (dataField t) = t := hw ▸ mkRecord_fields t
    exact ⟨decide_eq_true (addrField_lt t), congrArg Encoded.record ht⟩
  | false =>
    have hd : dataField t = 0 := by
      rw [decodeRecord, hw] at h
      by_contra hne
      rw [if_pos ⟨rfl, hne⟩] at h
      cases h
    have ht : mkRecord false (addrField t).toNat 0 = t := hw ▸ hd ▸ mkRecord_fields t
    exact ⟨decide_eq_true (addrField_lt t), congrArg Encoded.record ht⟩

/-! ### Command words (R60 to R62) -/

/-- The opcode map, as numbers. -/
theorem decodeOpcode_ok_iff (op : BitVec 8) : (∃ i, decodeOpcode op = .ok i) ↔
    (op.toNat = 0x01 ∨ op.toNat = 0x02 ∨ op.toNat = 0x03 ∨ op.toNat = 0x05 ∨ op.toNat = 0x06 ∨
      op.toNat = 0x07 ∨ op.toNat = 0x0F) := by
  rw [decodeOpcode]
  split_ifs
  case pos | pos | pos | pos | pos | pos | pos | pos => subst op; simp
  case neg => simp only [exists_false, false_iff]; bv_omega

theorem decodeCommand_ok_iff (w : Word) : (∃ i, decodeCommand w = .ok i) ↔
    zeroField w = 0 ∧ ∃ i, decodeOpcode (opField w) = .ok i := by
  rw [decodeCommand]
  split
  case isTrue hz => exact ⟨fun h => ⟨hz, h⟩, And.right⟩
  case isFalse hz => exact ⟨fun ⟨_, h⟩ => (nomatch h), fun h => absurd h.1 hz⟩

/-- Every instruction that a command word is the encoding of is well-formed. -/
theorem wf_of_encode_eq_command {i : Instr} {w : Word} (h : encode i = .command w) : i.wf = true := by
  cases i with
  | wr a d => cases h
  | rd a => cases h
  | _ => rfl

/-! ### The obligations -/

/-- Settles O1: the seven words are computed; a record gives back the index, which has 7 bits, and the
data. -/
theorem decodeInvertsEncode : Obligations.DecodeInvertsEncode := by
  intro i hwf
  cases i with
  | wr a d => exact decodeRecord_wr d (of_decide_eq_true hwf)
  | rd a => exact decodeRecord_rd (of_decide_eq_true hwf)
  | cfg => rfl
  | build => rfl
  | enc => rfl
  | dec => rfl
  | syn => rfl
  | ldw => rfl
  | rst => rfl

/-- Settles O2: a legal word is the one encoding of its instruction, and a record is made of the fields
the decoder read. -/
theorem encodeInvertsDecode : Obligations.EncodeInvertsDecode := by
  intro e i h
  cases e with
  | command w =>
    have hw : encode i = .command w := encode_of_decodeCommand h
    exact ⟨wf_of_encode_eq_command hw, hw⟩
  | record t => exact wf_and_encode_of_decodeRecord h

/-- Settles O3: the zero field is tested first, then the opcode is looked up in the map. -/
theorem commandWordLegality : Obligations.CommandWordLegality := fun w =>
  (decodeCommand_ok_iff w).trans (and_congr_right fun _ => decodeOpcode_ok_iff (opField w))

/-- Settles O4: each published word is decoded by computation. -/
theorem publishedWordsDecode : Obligations.PublishedWordsDecode := by
  refine ⟨?_, ?_, ?_, ?_, ?_, ?_, ?_, ?_, ?_, ?_, ?_, ?_, ?_⟩ <;> decide

end Sys2Proof
end

section
/-! Host programs (30_encoding.md R66, R67): the record of each statement, vector literals, and the turns
of `wait`. -/

namespace Sys2Proof.Machine

open Sys2Proof

/-! ### Registers and records -/

/-- `Reg.index` is the word index of the register map, for a register that exists (20_memory.md R41). -/
theorem index_of_ofIndex {nmax a : Nat} {q : Reg} (h : Reg.ofIndex nmax a = some q) : q.index = a := by
  rcases ofIndex_cases h with hfixed | ⟨i, rfl, _, rfl⟩ | ⟨i, rfl, _, rfl⟩
  · have hall : ∀ c ∈ fixedRegs, c.2.index = c.1 := by decide
    exact hall (a, q) hfixed
  · rfl
  · rfl

theorem lt_of_ofIndex {nmax a : Nat} {q : Reg} (h32 : nmax ≤ 32) (h : Reg.ofIndex nmax a = some q) :
    a < 128 := by
  rcases ofIndex_cases h with hfixed | ⟨i, _, hi, rfl⟩ | ⟨i, _, hi, rfl⟩
  · have hall : ∀ c ∈ fixedRegs, c.1 < 128 := by decide
    exact hall (a, q) hfixed
  · omega
  · omega

theorem decodeRecord_wrRecord {q : Reg} (d : Word) (hq : q.index < 128) :
    decodeRecord (wrRecord q d) = .ok (.wr q.index d) :=
  decodeRecord_wr d hq

theorem decodeRecord_rdRecord {q : Reg} (hq : q.index < 128) :
    decodeRecord (rdRecord q) = .ok (.rd q.index) :=
  decodeRecord_rd hq

/-! ### Vector literals (00_scope.md R7) -/

/-- The first 32 symbols of a literal stand at their own positions. -/
theorem getLsbD_packVector (v : List Bool) {i : Nat} (hi : i < 32) :
    (packVector v).getLsbD i = v.getD i false := by
  induction v generalizing i with
  | nil => simp [packVector]
  | cons b rest ih =>
    have hlow : (if b then 1#32 else 0#32).getLsbD i = (b && decide (i = 0)) := by cases b <;> simp [hi]
    show (packVector rest <<< 1 ||| (if b then 1#32 else 0#32)).getLsbD i = _
    rw [BitVec.getLsbD_or, BitVec.getLsbD_shiftLeft, hlow]
    cases i with
    | zero => simp
    | succ i =>
      rw [Nat.add_sub_cancel, ih (by omega)]
      simp [hi]

theorem getD_eq_false_of_length_le {v : List Bool} {i : Nat} (h : v.length ≤ i) :
    v.getD i false = false := by
  simp [List.getD, h]

theorem getLsbD_packVector_of_length_le (v : List Bool) (i : Nat) (hv : v.length ≤ 32) :
    (packVector v).getLsbD i = v.getD i false := by
  by_cases hi : i < 32
  · exact getLsbD_packVector v hi
  · rw [BitVec.getLsbD_of_ge _ _ (not_lt.mp hi), getD_eq_false_of_length_le (by omega)]

/-! ### `wait` (R67) -/

theorem getLsbD_statusWord_busy (st : Status) : st.word.getLsbD 0 = st.busy := by
  rw [getLsbD_statusWord_of_lt_eight st (by decide)]
  simp

theorem exec_rd_status (s : State) : exec (.rd 3) s = .next { s with rdata := s.status.word } := rfl

/-- A turn of `wait` that reads `STATUS`: the host goes on with what follows exactly when the value read
has `BUSY = 0`. -/
theorem step_wait_read {s : State} {m : Nat} {rest : List Input} (hin : s.inputs = .wait m :: rest)
    (h : s.status.busy = false ∨ m ≠ 0) :
    step s = .next { s with
      inputs := if s.status.busy then .wait (m - 1) :: rest else rest
      rdata := s.status.word } := by
  cases hb : s.status.busy with
  | false => exact step_wait_idle hb hin
  | true =>
    obtain ⟨polls, rfl⟩ := Nat.exists_eq_succ_of_ne_zero (h.resolve_left (by simp [hb]))
    exact step_wait_poll hb hin

/-! ### The obligation -/

/-- Settles O5: the records carry the register's index and the value; a literal is packed position by
position; a turn of `wait` is a read of `STATUS`, whose bit 0 is `BUSY`. -/
theorem statementsMeanTheirTransactions : Obligations.StatementsMeanTheirTransactions := by
  refine ⟨fun c a q hq => ?wrRd, fun v i hv => getLsbD_packVector_of_length_le v i hv, ⟨rfl, rfl⟩,
    ⟨rfl, rfl⟩, ⟨rfl, rfl⟩, ⟨rfl, rfl⟩, ⟨rfl, rfl⟩, ⟨rfl, rfl⟩, ⟨rfl, rfl⟩, fun c => ?cmd, fun d => ?clr,
    fun i d hi => ?ldg, fun k n hkn hn => ?code, fun _ _ => rfl, fun s m rest hin => ⟨?complete, ?read⟩⟩
  case wrRd =>
    have ha : q.index < 128 := (index_of_ofIndex hq).symm ▸ lt_of_ofIndex c.nmax_le hq
    rw [← index_of_ofIndex hq]
    exact ⟨fun d => ⟨rfl, decodeRecord_wrRecord d ha⟩, rfl, decodeRecord_rdRecord ha⟩
  case cmd => exact ⟨_, rfl, decodeRecord_wrRecord (q := .cmd) c.word (by decide)⟩
  case clr => exact ⟨_, rfl, decodeRecord_wrRecord (q := .status) d (by decide)⟩
  case ldg =>
    have hidx : (Reg.grow i).index < 128 := show 64 + i < 128 by omega
    exact ⟨_, rfl, decodeRecord_wrRecord d hidx⟩
  case code =>
    have hcols : BitVec.ofNat 32 (n - k) = BitVec.ofNat 32 n - BitVec.ofNat 32 k := by
      rw [BitVec.ofNat_sub_ofNat_of_le n k (by omega) hkn]
    rw [hcols]
    exact ⟨_, _, _, _, rfl, decodeRecord_wrRecord (q := .k) _ (by decide),
      decodeRecord_wrRecord (q := .n) _ (by decide), decodeRecord_wrRecord (q := .grows) _ (by decide),
      decodeRecord_wrRecord (q := .gcols) _ (by decide)⟩
  case complete =>
    rintro hb rfl
    exact step_wait_complete hb hin
  case read =>
    intro h
    refine ⟨_, step_wait_read hin h, exec_rd_status _, ?_, ?_⟩
    · intro hbit
      rw [getLsbD_statusWord_busy] at hbit
      rw [hbit]
      rfl
    · intro hbit
      rw [getLsbD_statusWord_busy] at hbit
      rw [hbit]
      rfl

end Sys2Proof.Machine
end

section
/-! The step on what comes next (20_memory.md R42, R43, 44_control.md R121): the decoded transaction, the
decoded command, an idle engine; and the end of the register space. -/

namespace Sys2Proof.Machine

open Sys2Proof

theorem engineTurn_legal {s : State} {i : Instr} (hb : s.status.busy = true)
    (hi : decodeCommand s.pend = .ok i) : engineTurn s = exec i s := by
  rw [engineTurn, if_pos hb, completePending, hi]

theorem engineTurn_idle {s : State} (hb : s.status.busy = false) : engineTurn s = .next s := by
  rw [engineTurn, hb]
  rfl

/-- Settles O6: the host's turn performs what the ports carry, which is what the record decodes to. -/
theorem stepPerformsDecodedTransaction : Obligations.StepPerformsDecodedTransaction := by
  intro s t rest i hin ht
  rw [step_txn hin, hostTurn, decodeBus_of_decodeRecord ht]

/-- Settles O7: in each of the three forms the step is the engine's turn. -/
theorem stepCompletesDecodedCommand : Obligations.StepCompletesDecodedCommand := by
  refine fun s i hb hi => ⟨fun hin => ?nil, fun rest hin => ?wait, fun rest hin => ?engine⟩
  case nil => rw [step_nil hin, engineTurn_legal hb hi]
  case wait => rw [step_wait_complete hb hin, engineTurn_legal hb hi]
  case engine => rw [step_engine hin, engineTurn_legal (s := { s with inputs := rest }) hb hi]

/-- Settles O9: the engine's turn leaves an idle machine as it is. -/
theorem idleEngineWaits : Obligations.IdleEngineWaits := by
  refine fun s hb => ⟨fun hin => ?nil, fun rest hin => ?engine⟩
  case nil => rw [step_nil hin, engineTurn_idle hb]
  case engine => rw [step_engine hin, engineTurn_idle (s := { s with inputs := rest }) hb]

/-- Settles O17: both transactions test the word index first. -/
theorem outsideRegisterSpaceStops : Obligations.OutsideRegisterSpaceStops := by
  intro s a d ha
  have hout : ¬ a < wordCount := not_lt.mpr ha
  exact ⟨if_neg hout, if_neg hout⟩

end Sys2Proof.Machine
end

section
/-! The registers as the host reads them: `HostRead` by word index (20_memory.md R42), and the bits of
`STATUS`, `IEN` and `CAP` (10_state.md R21 to R23). -/

namespace Sys2Proof.Machine

open Sys2Proof

/-! ### `HostRead` -/

theorem exec_rd_mapped {s : State} {a : Nat} {q : Reg} (hq : Reg.ofIndex s.config.nmax a = some q) :
    exec (.rd a) s = .next { s with rdata := s.readReg q } := by
  have ha : a < wordCount := lt_of_ofIndex s.config.nmax_le hq
  simp [exec, execRd, ha, State.hostRead, hq]

theorem exec_rd_at {s : State} {a b : Nat} {q : Reg} (hq : Reg.ofIndex s.config.nmax b = some q)
    (h : a = b) : exec (.rd a) s = .next { s with rdata := s.readReg q } :=
  exec_rd_mapped (h ▸ hq)

theorem exec_rd_unmapped {s : State} {a : Nat} (ha : a < 128)
    (hq : Reg.ofIndex s.config.nmax a = none) :
    exec (.rd a) s = .next { s.setBadacc with rdata := 0 } := by
  simp [exec, execRd, wordCount, ha, State.hostRead, hq]

theorem capWord_eq_ofNat (c : Config) : capWord c = BitVec.ofNat 32 (c.nmax + 6 * 256) := by
  have hall : ∀ n, n < 33 → BitVec.ofNat 32 n ||| (6#32 <<< 8) = BitVec.ofNat 32 (n + 6 * 256) := by
    decide
  exact hall c.nmax (Nat.lt_succ_of_le c.nmax_le)

theorem row_eq_getElem (f : RowFile) (i : Fin 32) : f.row i.val = f[i.val] := by
  simp [RowFile.row]

/-- Settles O14: each word index names its register of the map, or none. -/
theorem hostReadReturnsRegister : Obligations.HostReadReturnsRegister := by
  intro s a ha
  refine ⟨exec_rd_at (q := .id) rfl, ?cap, exec_rd_at (q := .cmd) rfl, exec_rd_at (q := .status) rfl,
    exec_rd_at (q := .ien) rfl, exec_rd_at (q := .k) rfl, exec_rd_at (q := .n) rfl,
    exec_rd_at (q := .grows) rfl, exec_rd_at (q := .gcols) rfl, exec_rd_at (q := .vin) rfl,
    exec_rd_at (q := .vout) rfl, exec_rd_at (q := .synd) rfl, exec_rd_at (q := .wgt) rfl,
    exec_rd_at (q := .tcnt) rfl, fun i hi ha => ?grow, fun i hi ha => ?prow,
    fun h => exec_rd_unmapped ha (ofIndex_unmapped s.config.nmax_le h)⟩
  case cap =>
    rw [← capWord_eq_ofNat]
    exact exec_rd_at (q := .cap) rfl
  case grow =>
    rw [← row_eq_getElem]
    exact exec_rd_at (ofIndex_grow hi) ha
  case prow =>
    rw [← row_eq_getElem]
    exact exec_rd_at (ofIndex_prow s.config.nmax_le hi) ha

/-! ### Bit layouts -/

/-- Bits 31:8 of `STATUS` are `ECODE`, the three sticky flags, and 0 where reserved. -/
theorem getLsbD_statusWord_of_ge_eight (st : Status) {j : Nat} (h8 : 8 ≤ j) (h32 : j < 32) :
    st.word.getLsbD j = (st.ecode.byte.getLsbD (j - 8) || st.ovr && decide (j = 16) ||
      st.wlock && decide (j = 17) || st.badacc && decide (j = 18)) := by
  have hlow : j ≠ 0 ∧ j ≠ 1 ∧ j ≠ 2 ∧ j ≠ 3 ∧ j ≠ 4 := by omega
  have hbyte : (st.ecode.byte.setWidth 32 <<< 8).getLsbD j = st.ecode.byte.getLsbD (j - 8) := by
    rw [BitVec.getLsbD_shiftLeft, BitVec.getLsbD_setWidth]
    simp [h32, Nat.not_lt.mpr h8, show j - 8 < 32 by omega]
  simp only [Status.word, BitVec.getLsbD_or, getLsbD_flagAt, hbyte]
  simp [hlow, h32]

/-- `ECODE` has 8 bits: above bit 15 only the sticky flags are left. -/
theorem getLsbD_statusWord_of_ge_sixteen (st : Status) {j : Nat} (h16 : 16 ≤ j) (h32 : j < 32) :
    st.word.getLsbD j = (st.ovr && decide (j = 16) || st.wlock && decide (j = 17) ||
      st.badacc && decide (j = 18)) := by
  rw [getLsbD_statusWord_of_ge_eight st (by omega) h32,
    BitVec.getLsbD_of_ge _ (j - 8) (by omega), Bool.false_or]

theorem extractLsb'_eq_zero {n : Nat} {x : BitVec n} {start len : Nat}
    (h : ∀ i, i < len → x.getLsbD (start + i) = false) : x.extractLsb' start len = 0#len := by
  refine BitVec.eq_of_getLsbD_eq fun i hi => ?_
  rw [BitVec.getLsbD_extractLsb', h i hi, Bool.and_false, BitVec.getLsbD_zero]

theorem getLsbD_statusWord_cfgv (st : Status) : st.word.getLsbD 2 = st.cfgv := by
  rw [getLsbD_statusWord_of_lt_eight st (by decide)]
  simp

theorem getLsbD_statusWord_tblv (st : Status) : st.word.getLsbD 3 = st.tblv := by
  rw [getLsbD_statusWord_of_lt_eight st (by decide)]
  simp

theorem getLsbD_statusWord_ovr (st : Status) : st.word.getLsbD 16 = st.ovr := by
  rw [getLsbD_statusWord_of_ge_sixteen st (by decide) (by decide)]
  simp

theorem getLsbD_statusWord_wlock (st : Status) : st.word.getLsbD 17 = st.wlock := by
  rw [getLsbD_statusWord_of_ge_sixteen st (by decide) (by decide)]
  simp

theorem getLsbD_statusWord_badacc (st : Status) : st.word.getLsbD 18 = st.badacc := by
  rw [getLsbD_statusWord_of_ge_sixteen st (by decide) (by decide)]
  simp

theorem statusWord_ecode (st : Status) : st.word.extractLsb' 8 8 = st.ecode.byte := by
  refine BitVec.eq_of_getLsbD_eq fun i hi => ?_
  have hsticky : 8 + i ≠ 16 ∧ 8 + i ≠ 17 ∧ 8 + i ≠ 18 := by omega
  rw [BitVec.getLsbD_extractLsb', getLsbD_statusWord_of_ge_eight st (by omega) (by omega)]
  simp [hi, hsticky]

/-- Settles O20: `STATUS` and `IEN` bit by bit; `CAP` for each of the 32 values of `NMAX`. -/
theorem statusRegisterLayouts : Obligations.StatusRegisterLayouts := by
  refine ⟨fun st => ⟨getLsbD_statusWord_busy st, getLsbD_statusWord_done st, getLsbD_statusWord_cfgv st,
    getLsbD_statusWord_tblv st, getLsbD_statusWord_fatal st, ?low, statusWord_ecode st,
    getLsbD_statusWord_ovr st, getLsbD_statusWord_wlock st, getLsbD_statusWord_badacc st, ?high⟩,
    fun e => ⟨getLsbD_ienWord_ieDone e, getLsbD_ienWord_ieFatal e, ?ien⟩, fun c => ?cap⟩
  case low =>
    refine extractLsb'_eq_zero fun i hi => ?_
    have hflags : 5 + i ≠ 0 ∧ 5 + i ≠ 1 ∧ 5 + i ≠ 2 ∧ 5 + i ≠ 3 ∧ 5 + i ≠ 4 := by omega
    rw [getLsbD_statusWord_of_lt_eight st (by omega)]
    simp [hflags]
  case high =>
    refine extractLsb'_eq_zero fun i hi => ?_
    have hsticky : 19 + i ≠ 16 ∧ 19 + i ≠ 17 ∧ 19 + i ≠ 18 := by omega
    rw [getLsbD_statusWord_of_ge_sixteen st (by omega) (by omega)]
    simp [hsticky]
  case ien =>
    refine extractLsb'_eq_zero fun i _ => ?_
    have henables : 2 + i ≠ 0 ∧ 2 + i ≠ 1 := by omega
    rw [getLsbD_ienWord]
    simp [henables]
  case cap =>
    have hall : ∀ n, n < 33 →
        ((BitVec.ofNat 32 (n + 6 * 256)).extractLsb' 0 6).toNat = n ∧
          (BitVec.ofNat 32 (n + 6 * 256)).extractLsb' 6 2 = 0#2 ∧
          (BitVec.ofNat 32 (n + 6 * 256)).extractLsb' 8 6 = 6#6 ∧
          (BitVec.ofNat 32 (n + 6 * 256)).extractLsb' 14 18 = 0#18 := by decide
    rw [capWord_eq_ofNat]
    exact hall c.nmax (Nat.lt_succ_of_le c.nmax_le)

end Sys2Proof.Machine
end

section
/-! The busy interval (20_memory.md R48): while a command runs the host can change only flags it may
clear, the sticky flags, `IEN`, and the word it read last, and no command looks at any of these. -/

namespace Sys2Proof.Machine

open Sys2Proof

/-! ### What the host can change while a command runs -/

/-- The fields a transaction can change while a command runs. -/
structure HostView where
  done : Bool
  ovr : Bool
  wlock : Bool
  badacc : Bool
  ien : IntEnable
  rdata : Word

/-- `s` with these fields at the values of `v`. -/
def State.withView (s : State) (v : HostView) : State :=
  { s with
    status := { s.status with done := v.done, ovr := v.ovr, wlock := v.wlock, badacc := v.badacc }
    ien := v.ien
    rdata := v.rdata }

/-- The values `s` has. -/
def State.view (s : State) : HostView where
  done := s.status.done
  ovr := s.status.ovr
  wlock := s.status.wlock
  badacc := s.status.badacc
  ien := s.ien
  rdata := s.rdata

/-- The write-1-to-clear bits of `STATUS` are in the view, and a write to them sets none. -/
theorem writeOneToClear_eq_withView (s : State) (d : Word) :
    ∃ v : HostView, (v.done = true → s.status.done = true) ∧
      { s with status := s.status.writeOneToClear d } = s.withView v :=
  ⟨{ s.view with
      done := s.status.done && !d.getLsbD 1
      ovr := s.status.ovr && !d.getLsbD 16
      wlock := s.status.wlock && !d.getLsbD 17
      badacc := s.status.badacc && !d.getLsbD 18 }, fun h => (Bool.and_eq_true_iff.mp h).1, rfl⟩

/-- A transaction on a busy machine changes no more than these fields, and never sets `DONE`. -/
theorem hostWrite_eq_withView {s : State} (a : Nat) (d : Word) (hb : s.status.busy = true) :
    ∃ v : HostView, (v.done = true → s.status.done = true) ∧ s.hostWrite a d = s.withView v := by
  rcases hostWrite_cases s a d with h | ⟨q, _, _, h⟩
  · exact ⟨{ s.view with badacc := true }, id, h⟩
  · rw [h]
    by_cases hst : q = .status
    · subst hst
      exact writeOneToClear_eq_withView s d
    by_cases hien : q = .ien
    · subst hien
      exact ⟨{ s.view with ien := IntEnable.ofWord d }, id, rfl⟩
    · exact ⟨{ s.view with ovr := true }, id, writeReg_busy d hb hst hien⟩

theorem hostRead_eq_withView (s : State) (a : Nat) :
    ∃ v : HostView, (v.done = true → s.status.done = true) ∧ s.hostRead a = s.withView v := by
  rcases hostRead_cases s a with ⟨_, h⟩ | ⟨q, _, h⟩
  · exact ⟨{ s.view with badacc := true, rdata := 0 }, id, h⟩
  · exact ⟨{ s.view with rdata := s.readReg q }, id, h⟩

/-- Of the registers a host can read, these fields are in `STATUS` and `IEN` only. -/
theorem readReg_withView (s : State) (v : HostView) {q : Reg} (hst : q ≠ .status) (hien : q ≠ .ien) :
    (s.withView v).readReg q = s.readReg q := by
  cases q with
  | status => exact absurd rfl hst
  | ien => exact absurd rfl hien
  | _ => rfl

/-! ### What a transaction shows -/

/-- `s` with another command in flight, another table and other working registers. -/
def State.withHidden (s : State) (p : Word) (m : TMem) (w : DecWork) (b : BuildWork) : State :=
  { s with pend := p, tmem := m, decWork := w, buildWork := b }

section
variable (s : State) (p : Word) (m : TMem) (w : DecWork) (b : BuildWork)

theorem hostWrite_withHidden (a : Nat) (d : Word) (hb : s.status.busy = true) :
    (s.withHidden p m w b).hostWrite a d = (s.hostWrite a d).withHidden p m w b := by
  have hreg : ∀ q, (s.withHidden p m w b).writeReg q d = (s.writeReg q d).withHidden p m w b := by
    intro q
    by_cases hst : q = .status
    · subst hst
      rfl
    by_cases hien : q = .ien
    · subst hien
      rfl
    · rw [writeReg_busy d hb hst hien, writeReg_busy (s := s.withHidden p m w b) d hb hst hien]
      rfl
  have hconf : (s.withHidden p m w b).config = s.config := rfl
  rw [State.hostWrite, State.hostWrite, hconf]
  cases Reg.ofIndex s.config.nmax a with
  | none => rfl
  | some q =>
    simp only
    split
    · rfl
    · exact hreg q

/-- A read shows none of them: no register is made of `PEND`, `TMEM` or a working register. -/
theorem hostRead_withHidden (a : Nat) :
    (s.withHidden p m w b).hostRead a = (s.hostRead a).withHidden p m w b := by
  have hreg : ∀ q, (s.withHidden p m w b).readReg q = s.readReg q := fun q => by cases q <;> rfl
  have hconf : (s.withHidden p m w b).config = s.config := rfl
  rw [State.hostRead, State.hostRead, hconf]
  cases Reg.ofIndex s.config.nmax a with
  | none => rfl
  | some q =>
    simp only [hreg]
    rfl

end

/-- A transaction on a busy machine, in a state and in all that differ from it in what is hidden. -/
theorem transaction_of_busy {i : Instr} {a : Nat} {d : Word} {s t : State}
    (hb : s.status.busy = true) (hi : i = .wr a d ∨ i = .rd a) (h : exec i s = .next t) :
    (∃ v : HostView, (v.done = true → s.status.done = true) ∧ t = s.withView v) ∧
      ∀ p m w b, exec i (s.withHidden p m w b) = .next (t.withHidden p m w b) := by
  rcases hi with rfl | rfl
  · obtain ⟨ha, rfl⟩ := execWr_cases h
    refine ⟨hostWrite_eq_withView a d hb, fun p m w b => ?_⟩
    rw [exec, execWr, if_pos ha, hostWrite_withHidden s p m w b a d hb]
  · obtain ⟨ha, rfl⟩ := execRd_cases h
    refine ⟨hostRead_eq_withView s a, fun p m w b => ?_⟩
    rw [exec, execRd, if_pos ha, hostRead_withHidden s p m w b a]

/-- Settles O18: a transaction changes only the host's view, and what it shows is made of neither
`PEND`, `TMEM` nor a working register. -/
theorem busyIntervalIsOpaque : Obligations.BusyIntervalIsOpaque := by
  intro s t i a d hb hi h
  obtain ⟨⟨v, _, rfl⟩, hhidden⟩ := transaction_of_busy hb hi h
  refine ⟨⟨⟨rfl, rfl, rfl, rfl, rfl⟩, rfl, rfl, ⟨rfl, rfl, rfl, rfl⟩, fun _ => rfl, rfl, rfl, rfl, rfl,
    rfl, hb, rfl, rfl, rfl, rfl⟩, fun q hst hien => readReg_withView s v hst hien, hhidden,
    fun hinv hrd => ?shows⟩
  case shows =>
    obtain ⟨hdone, hcode⟩ := hinv.busy_is_fresh hb
    have hrdata : (s.withView v).rdata = s.status.word := by
      rw [hrd, exec_rd_status] at h
      exact congrArg State.rdata (Host.Outcome.next.inj h).symm
    rw [hrdata]
    exact ⟨(getLsbD_statusWord_busy _).trans hb, (getLsbD_statusWord_done _).trans hdone,
      (statusWord_ecode _).trans (congrArg Code.byte hcode)⟩

/-! ### No command looks at what the host changes -/

/-- The view once the command has set `DONE`. -/
def HostView.completed (v : HostView) : HostView := { v with done := true }

theorem raise_withView (s : State) (v : HostView) (c : Code) :
    (s.withView v).raise c = (s.raise c).withView v.completed := rfl

section
variable {s : State} {v : HostView} {gate : Bool} {body : State → State}
  (hbody : body (s.withView v) = (body s).withView v.completed)
include hbody

theorem dispatch_withView {t : State} (h : s.dispatch gate body = .next t) :
    (s.withView v).dispatch gate body = .next (t.withView v.completed) := by
  rcases dispatch_cases h with ⟨hf, rfl⟩ | ⟨hf, rfl, rfl⟩ | ⟨hf, rfl, rfl⟩
  · exact dispatch_fatal gate body (s := s.withView v) hf
  · exact dispatch_gate body (s := s.withView v) hf
  · rw [← hbody]
    exact dispatch_body body (s := s.withView v) hf

theorem dispatchCoded_withView {t : State} (h : s.dispatchCoded gate body = .next t) :
    (s.withView v).dispatchCoded gate body = .next (t.withView v.completed) := by
  rcases dispatchCoded_cases h with ⟨hf, rfl⟩ | ⟨hf, rfl, rfl⟩ | ⟨hf, rfl, hp, rfl⟩
  · exact dispatchCoded_fatal gate body (s := s.withView v) hf
  · exact dispatchCoded_gate body (s := s.withView v) hf
  · rw [← hbody]
    exact dispatchCoded_body body (s := s.withView v) hf hp

end

section
variable (s : State) (v : HostView)

theorem cfgBody_withView : cfgBody (s.withView v) = (cfgBody s).withView v.completed := by
  have herr : (s.withView v).cfgError = s.cfgError := rfl
  rw [cfgBody, cfgBody, herr]
  cases s.cfgError <;> rfl

theorem buildBody_withView : buildBody (s.withView v) = (buildBody s).withView v.completed := by
  have henum : (s.withView v).enumerate = s.enumerate := rfl
  have hlen : (s.withView v).rLen = s.rLen := rfl
  rcases buildBody_cases s with ⟨hne, hb⟩ | ⟨heq, hb⟩
  · rcases buildBody_cases (s.withView v) with ⟨_, hb'⟩ | ⟨heq', _⟩
    · rw [hb, hb', henum]
      rfl
    · exact absurd (henum ▸ hlen ▸ heq') hne
  · rcases buildBody_cases (s.withView v) with ⟨hne', _⟩ | ⟨_, hb'⟩
    · exact absurd heq (henum ▸ hlen ▸ hne')
    · rw [hb, hb', henum]
      rfl

theorem encBody_withView : encBody (s.withView v) = (encBody s).withView v.completed := by
  rcases encBody_cases s with ⟨hv, hb⟩ | ⟨hv, hb⟩
  · rw [hb]
    exact if_pos hv
  · rw [hb]
    exact if_neg (not_not.mpr hv)

theorem synBody_withView : synBody (s.withView v) = (synBody s).withView v.completed := by
  rcases synBody_cases s with ⟨hv, hb⟩ | ⟨hv, hb⟩
  · rw [hb]
    exact if_pos hv
  · rw [hb]
    exact if_neg (not_not.mpr hv)

theorem ldwBody_withView : ldwBody (s.withView v) = (ldwBody s).withView v.completed := by
  rcases ldwBody_cases s with ⟨hv, hb⟩ | ⟨hv, hm, hb⟩ | ⟨hv, hm, hb⟩
  · rw [hb]
    exact if_pos hv
  · rw [hb]
    exact (if_neg (not_not.mpr hv)).trans (if_pos hm)
  · rw [hb]
    exact (if_neg (not_not.mpr hv)).trans (if_neg (ne_false_of_eq_true hm))

theorem decBody_withView : decBody (s.withView v) = (decBody s).withView v.completed := by
  have hend : decodeVector (s.withView v).syndromeOf (lookup (s.withView v).tmem) (s.withView v).nLen
      (s.withView v).vin = decodeVector s.syndromeOf (lookup s.tmem) s.nLen s.vin := rfl
  rcases decBody_cases s with ⟨hv, hb⟩ | ⟨hv, hb⟩
  · rw [hb]
    exact if_pos hv
  · refine (if_neg (not_not.mpr hv)).trans ?_
    rw [hend]
    rcases hb with ⟨w, hd, hb⟩ | ⟨hd, hb⟩ | ⟨hd, hb⟩ <;> rw [hb, hd] <;> rfl

/-- A command ends alike whatever the host's view is, and the view ends with `DONE` set. -/
theorem exec_withView {i : Instr} {t : State} (hi : IsCommand i) (h : exec i s = .next t) :
    exec i (s.withView v) = .next (t.withView v.completed) := by
  rcases hi with rfl | rfl | rfl | rfl | rfl | rfl
  · exact dispatch_withView (cfgBody_withView s v) h
  · exact dispatchCoded_withView (buildBody_withView s v) h
  · exact dispatchCoded_withView (encBody_withView s v) h
  · exact dispatchCoded_withView (decBody_withView s v) h
  · exact dispatchCoded_withView (synBody_withView s v) h
  · exact dispatchCoded_withView (ldwBody_withView s v) h

end

/-- A legal command word is one of the six commands, or `RST`. -/
theorem isCommand_or_rst_of_decodeCommand {w : Word} {i : Instr} (h : decodeCommand w = .ok i) :
    IsCommand i ∨ i = .rst := by
  have hw : encode i = .command w := encode_of_decodeCommand h
  cases i with
  | wr a d => cases hw
  | rd a => cases hw
  | _ => simp [IsCommand]

theorem exec_decodeBus_eq_withView {s u : State} {r : Record} (hb : s.status.busy = true)
    (h : exec (decodeBus r) s = .next u) : ∃ v : HostView, u = s.withView v := by
  rw [decodeBus] at h
  split at h
  · obtain ⟨⟨v, _, hu⟩, _⟩ := transaction_of_busy hb (.inl rfl) h
    exact ⟨v, hu⟩
  · obtain ⟨⟨v, _, hu⟩, _⟩ := transaction_of_busy (d := 0) hb (.inr rfl) h
    exact ⟨v, hu⟩

/-- A command other than `RST` ends with `DONE = 1` (44_control.md R121). -/
theorem done_of_command {i : Instr} {s t : State} (hi : IsCommand i) (h : exec i s = .next t) :
    t.status.done = true := by
  rcases command_cases hi h with ⟨_, rfl⟩ | ⟨_, rfl, _⟩ | ⟨_, hran⟩
  · rfl
  · rfl
  · cases hran
    case build ht => rcases buildBody_cases s with ⟨_, hb⟩ | ⟨_, hb⟩ <;> rw [ht, hb] <;> rfl
    all_goals
      subst t
      rfl

/-- Settles O19: a transaction changes only the host's view, at which no command looks, and `RST` gives
every register its reset value. -/
theorem transactionsDoNotDisturbCommand : Obligations.TransactionsDoNotDisturbCommand := by
  intro s u t i r hb hi hu ht
  obtain ⟨v, rfl⟩ := exec_decodeBus_eq_withView hb hu
  rcases isCommand_or_rst_of_decodeCommand hi with hcmd | rfl
  · exact ⟨_, exec_withView s v hcmd ht, ⟨rfl, rfl, rfl, rfl, rfl⟩, rfl, rfl, ⟨rfl, rfl, rfl, rfl⟩,
      fun _ => rfl, rfl, rfl, (done_of_command hcmd ht).symm, rfl⟩
  · cases ht
    exact ⟨_, rfl, ⟨rfl, rfl, rfl, rfl, rfl⟩, rfl, rfl, ⟨rfl, rfl, rfl, rfl⟩, fun _ => rfl, rfl, rfl,
      rfl, rfl⟩

end Sys2Proof.Machine
end

section
/-! The completion of a command (44_control.md R121, 60_exceptions.md R131 to R138): its code, what it
does to `STATUS`, and which registers it writes. -/

namespace Sys2Proof.Machine

open Sys2Proof

/-! ### Codes (60_exceptions.md R131, R132) -/

/-- Settles O21: the table, code by code. -/
theorem completionCodeBytes : Obligations.CompletionCodeBytes := by
  refine ⟨rfl, rfl, rfl, rfl, rfl, rfl, rfl, rfl, rfl, rfl, rfl, rfl, fun c => ?_⟩
  cases c <;> decide

/-- The codes of a command's own pseudocode: its row of R132 without `E_SEQ` and `E_FATAL`. -/
def ownCodes : Instr → List Code
  | .cfg => [.ok, .eK, .eN, .eNmax, .eShape]
  | .build => [.ok, .eRank]
  | .enc => [.ok, .eVlen]
  | .syn => [.ok, .eVlen]
  | .dec => [.ok, .eVlen, .eMiss, .eNoconv]
  | .ldw => [.ok, .eVlen, .eMiss]
  | .rst => []
  | .wr _ _ => []
  | .rd _ => []

theorem ecode_mem_ownCodes_of_ran {i : Instr} {s t : State} (h : Ran s t i) :
    t.status.ecode ∈ ownCodes i := by
  cases h
  case cfgError hc _ ht =>
    rw [ht]
    exact List.mem_cons_of_mem _ hc
  case build ht =>
    rw [ht]
    rcases ecode_buildBody s with hc | hc <;> simp [ownCodes, hc]
  all_goals
    subst t
    simp [ownCodes]

theorem ecode_mem_of_command {i : Instr} {s t : State} (hi : IsCommand i) (h : exec i s = .next t) :
    t.status.ecode ∈ ownCodes i ++ [.eSeq, .eFatal] := by
  rcases command_cases hi h with ⟨_, rfl⟩ | ⟨_, rfl, _⟩ | ⟨_, hran⟩
  · simp
  · simp
  · exact List.mem_append_left _ (ecode_mem_ownCodes_of_ran hran)

/-- Settles O26: a command ends with one of its own codes, or its dispatch refuses it. -/
theorem possibleCodes : Obligations.PossibleCodes := by
  refine fun s t => ⟨ecode_mem_of_command (i := .cfg) (by simp [IsCommand]),
    ecode_mem_of_command (i := .build) (by simp [IsCommand]),
    ecode_mem_of_command (i := .enc) (by simp [IsCommand]),
    ecode_mem_of_command (i := .syn) (by simp [IsCommand]),
    ecode_mem_of_command (i := .dec) (by simp [IsCommand]),
    ecode_mem_of_command (i := .ldw) (by simp [IsCommand]), fun h => ?rst⟩
  case rst =>
    cases h
    exact ⟨rfl, rfl⟩

/-! ### Registers (10_state.md R15 to R20) -/

/-- No command writes what the host writes. -/
theorem sameHost_of_command {i : Instr} {s t : State} (hi : IsCommand i) (h : exec i s = .next t) :
    SameCode s t ∧ SameHost s t := by
  rcases command_cases hi h with ⟨_, rfl⟩ | ⟨_, rfl, _⟩ | ⟨_, hran⟩
  · exact ⟨⟨rfl, rfl, rfl, rfl, rfl⟩, rfl, rfl, rfl, rfl, rfl⟩
  · exact ⟨⟨rfl, rfl, rfl, rfl, rfl⟩, rfl, rfl, rfl, rfl, rfl⟩
  · cases hran
    case build ht =>
      rcases buildBody_cases s with ⟨_, hb⟩ | ⟨_, hb⟩ <;> rw [ht, hb] <;>
        exact ⟨⟨rfl, rfl, rfl, rfl, rfl⟩, rfl, rfl, rfl, rfl, rfl⟩
    all_goals
      subst t
      exact ⟨⟨rfl, rfl, rfl, rfl, rfl⟩, rfl, rfl, rfl, rfl, rfl⟩

/-- Each result register, and `TMEM`, changes only at its own command and with its own codes. -/
def WritesOwnResult (i : Instr) (s t : State) : Prop :=
  (t.prow ≠ s.prow → i = .cfg ∧ t.status.ecode = .ok) ∧
  (t.vout ≠ s.vout → (i = .enc ∨ i = .dec) ∧ t.status.ecode = .ok) ∧
  (t.synd ≠ s.synd → i = .syn ∧ t.status.ecode = .ok) ∧
  (t.wgt ≠ s.wgt → i = .ldw ∧ t.status.ecode = .ok) ∧
  (t.tcnt ≠ s.tcnt → i = .build ∧ (t.status.ecode = .ok ∨ t.status.ecode = .eRank)) ∧
  (t.tmem ≠ s.tmem → i = .build)

/-- A command that only raises a code writes no register. -/
theorem writesOwnResult_raise (i : Instr) (s : State) (c : Code) : WritesOwnResult i s (s.raise c) :=
  ⟨(absurd rfl ·), (absurd rfl ·), (absurd rfl ·), (absurd rfl ·), (absurd rfl ·), (absurd rfl ·)⟩

theorem writesOwnResult_raise_releaseDec (i : Instr) (s : State) (c : Code) :
    WritesOwnResult i s (s.releaseDec.raise c) :=
  ⟨(absurd rfl ·), (absurd rfl ·), (absurd rfl ·), (absurd rfl ·), (absurd rfl ·), (absurd rfl ·)⟩

theorem writesOwnResult_of_ran {i : Instr} {s t : State} (h : Ran s t i) : WritesOwnResult i s t := by
  cases h
  case cfg ht =>
    subst t
    exact ⟨fun _ => ⟨rfl, rfl⟩, (absurd rfl ·), (absurd rfl ·), (absurd rfl ·), (absurd rfl ·),
      (absurd rfl ·)⟩
  case enc ht =>
    subst t
    exact ⟨(absurd rfl ·), fun _ => ⟨.inl rfl, rfl⟩, (absurd rfl ·), (absurd rfl ·), (absurd rfl ·),
      (absurd rfl ·)⟩
  case dec ht =>
    subst t
    exact ⟨(absurd rfl ·), fun _ => ⟨.inr rfl, rfl⟩, (absurd rfl ·), (absurd rfl ·), (absurd rfl ·),
      (absurd rfl ·)⟩
  case syn ht =>
    subst t
    exact ⟨(absurd rfl ·), (absurd rfl ·), fun _ => ⟨rfl, rfl⟩, (absurd rfl ·), (absurd rfl ·),
      (absurd rfl ·)⟩
  case ldw ht =>
    subst t
    exact ⟨(absurd rfl ·), (absurd rfl ·), (absurd rfl ·), fun _ => ⟨rfl, rfl⟩, (absurd rfl ·),
      (absurd rfl ·)⟩
  case build ht =>
    have hend := ht ▸ ecode_buildBody s
    rcases buildBody_cases s with ⟨_, hb⟩ | ⟨_, hb⟩ <;> rw [hb] at ht <;> subst t <;>
      exact ⟨(absurd rfl ·), (absurd rfl ·), (absurd rfl ·), (absurd rfl ·), fun _ => ⟨rfl, hend⟩,
        fun _ => rfl⟩
  case cfgError ht | encStray ht | synStray ht | ldwMiss ht | ldwStray ht | decStray ht =>
    exact ht ▸ writesOwnResult_raise _ s _
  case decMiss ht | decNoconv ht => exact ht ▸ writesOwnResult_raise_releaseDec _ s _

theorem writesOwnResult_of_command {i : Instr} {s t : State} (hi : IsCommand i)
    (h : exec i s = .next t) : WritesOwnResult i s t := by
  rcases command_cases hi h with ⟨_, ht⟩ | ⟨_, ht, _⟩ | ⟨_, hran⟩
  · exact ht ▸ writesOwnResult_raise i s _
  · exact ht ▸ writesOwnResult_raise i s _
  · exact writesOwnResult_of_ran hran

/-- Settles O42: each path of a command writes its own result, with its own code, or none. -/
theorem writersOfRegisters : Obligations.WritersOfRegisters := by
  intro i s t hi h
  obtain ⟨hprow, hvout, hsynd, hwgt, htcnt, htmem⟩ := writesOwnResult_of_command hi h
  exact ⟨hprow, hvout, hsynd, hwgt, htcnt, htmem, sameHost_of_command hi h⟩

/-! ### `STATUS` -/

/-- `STATUS` at the completion with code `c`, but for the lifecycle flags. -/
def Status.completed (st : Status) (c : Code) : Status :=
  { st with busy := false, done := true, ecode := c }

/-- The conditions under which a command ends with a fatal code (60_exceptions.md R132). -/
def FatalEnd (i : Instr) (st : Status) (c : Code) : Prop :=
  (i = .build ∧ st.cfgv = true ∧ st.tblv = false ∧ c = .eRank) ∨
    (st.tblv = true ∧ (((i = .dec ∨ i = .ldw) ∧ c = .eMiss) ∨ (i = .dec ∧ c = .eNoconv)))

/-- Everything a command `i` can do to `STATUS`. -/
inductive StatusMove (i : Instr) (s t : State) : Prop where
  | ended {c : Code} (ht : t.status = s.status.completed c) : StatusMove i s t
  | configured (hi : i = .cfg) (hf : s.status.fatal = false) (hc : s.status.cfgv = false)
      (ht : t.status = { s.status.completed .ok with cfgv := true }) : StatusMove i s t
  | built (hi : i = .build) (hf : s.status.fatal = false) (hc : s.status.cfgv = true)
      (hb : s.status.tblv = false)
      (ht : t.status = { s.status.completed .ok with tblv := true }) : StatusMove i s t
  | failed {c : Code} (hf : s.status.fatal = false) (hend : FatalEnd i s.status c)
      (ht : t.status = { s.status.completed c with fatal := true }) : StatusMove i s t

theorem raise_status_of_nonFatal (s : State) {c : Code} (hc : c.isFatal = false) :
    (s.raise c).status = s.status.completed c := by
  rw [raise_status, hc, Bool.or_false, Status.completed]

theorem raise_status_of_fatal (s : State) {c : Code} (hc : c.isFatal = true) :
    (s.raise c).status = { s.status.completed c with fatal := true } := by
  rw [raise_status, hc, Bool.or_true, Status.completed]

theorem statusMove_of_ran {i : Instr} {s t : State} (hf : s.status.fatal = false) (h : Ran s t i) :
    StatusMove i s t := by
  cases h
  case cfg gate _ ht =>
    subst t
    exact .configured rfl hf gate rfl
  case cfgError hmem _ ht =>
    subst t
    have hfatal : ∀ c ∈ [Code.eK, .eN, .eNmax, .eShape], c.isFatal = false := by decide
    exact .ended (raise_status_of_nonFatal s (hfatal _ hmem))
  case build gate once _ ht =>
    rcases buildBody_cases s with ⟨_, hb⟩ | ⟨_, hb⟩ <;> rw [hb] at ht <;> subst t
    · exact .failed hf (.inl ⟨rfl, gate, once, rfl⟩) (raise_status_of_fatal _ rfl)
    · exact .built rfl hf gate once rfl
  case enc ht | syn ht | ldw ht | dec ht =>
    subst t
    exact .ended rfl
  case encStray ht | synStray ht | ldwStray ht | decStray ht =>
    subst t
    exact .ended (raise_status_of_nonFatal s rfl)
  case ldwMiss gate _ _ _ ht =>
    subst t
    exact .failed hf (.inr ⟨gate, .inl ⟨.inr rfl, rfl⟩⟩) (raise_status_of_fatal _ rfl)
  case decMiss gate _ _ _ ht =>
    subst t
    exact .failed hf (.inr ⟨gate, .inl ⟨.inl rfl, rfl⟩⟩) (raise_status_of_fatal _ rfl)
  case decNoconv gate _ _ _ ht =>
    subst t
    exact .failed hf (.inr ⟨gate, .inr ⟨rfl, rfl⟩⟩) (raise_status_of_fatal _ rfl)

theorem statusMove_of_command {i : Instr} {s t : State} (hi : IsCommand i) (h : exec i s = .next t) :
    StatusMove i s t := by
  rcases command_cases hi h with ⟨_, rfl⟩ | ⟨_, rfl, _⟩ | ⟨hf, hran⟩
  · exact .ended (raise_status_of_nonFatal s rfl)
  · exact .ended (raise_status_of_nonFatal s rfl)
  · exact statusMove_of_ran hf hran

theorem busy_of_command {i : Instr} {s t : State} (hi : IsCommand i) (h : exec i s = .next t) :
    t.status.busy = false := by
  cases statusMove_of_command hi h with
  | ended ht => rw [ht, Status.completed]
  | configured _ _ _ ht => rw [ht, Status.completed]
  | built _ _ _ _ ht => rw [ht, Status.completed]
  | failed _ _ ht => rw [ht, Status.completed]

/-- Settles O23: every completion sets `DONE` and leaves `IEN` alone; `RST` disables both sources. -/
theorem completionRaisesInterrupt : Obligations.CompletionRaisesInterrupt := by
  refine fun i s t h => ⟨fun hi => ?command, ?rst⟩
  case command =>
    have hdone : t.status.done = true := done_of_command hi h
    obtain ⟨_, _, hien, _⟩ := sameHost_of_command hi h
    refine ⟨hdone, hien, fun hie => ?_⟩
    rw [State.irq, hien, hie, hdone]
    rfl
  case rst =>
    rintro rfl
    cases h
    exact irq_of_ien_reset rfl

/-! ### Where the spec gives no code (assumption log entry 8) -/

/-- Settles O25: past its gate a command that needs a code stops without legal parameters. -/
theorem illegalParametersStop : Obligations.IllegalParametersStop := by
  refine fun s hf hp => ⟨fun hc => ⟨?enc, ?syn⟩, fun hc ht => ?build, fun ht => ⟨?dec, ?ldw⟩⟩
  case enc =>
    rw [exec, execEnc, Status.gateCode, hc]
    exact dispatchCoded_illegal _ hf hp
  case syn =>
    rw [exec, execSyn, Status.gateCode, hc]
    exact dispatchCoded_illegal _ hf hp
  case build =>
    rw [exec, execBuild, Status.gateBuild, hc, ht]
    exact dispatchCoded_illegal _ hf hp
  case dec =>
    rw [exec, execDec, Status.gateTable, ht]
    exact dispatchCoded_illegal _ hf hp
  case ldw =>
    rw [exec, execLdw, Status.gateTable, ht]
    exact dispatchCoded_illegal _ hf hp

/-! ### The entry of a fatal error (60_exceptions.md R135) -/

/-- What every `Record` keeps of the table, one turn of the loop keeps. -/
theorem buildTurn_keeps {syn : Word → Word} {P : TMem → Prop}
    (hrec : ∀ v w m cnt, P m → P (record syn v w m cnt).1) {n : Nat} {b b' : BuildWork} {m m' : TMem}
    (h : buildTurn syn n b m = some (b', m')) (hm : P m) : P m' := by
  by_cases hp : b.p.toNat < n
  · rw [buildTurn_extend syn m hp] at h
    cases h
    exact hrec _ _ _ _ hm
  · by_cases hd : b.depth = 0
    · rw [buildTurn_leave syn m hp hd] at h
      cases h
    · rw [buildTurn_backtrack syn m hp hd] at h
      cases h
      exact hm

/-- The enumeration writes no entry at or above `2^r`. -/
theorem read_enumerate_of_ge (s : State) {a : Nat} (ha : 2 ^ s.rLen ≤ a) :
    s.enumerate.1.read a = s.tmem.read a := by
  have hrec : ∀ v w m cnt, m.read a = s.tmem.read a →
      (record s.syndromeOf v w m cnt).1.read a = s.tmem.read a := by
    intro v w m cnt hm
    rw [record_read_other _ _ _ _ _ (((syndromeOf_lt s v).trans_le ha).ne'), hm]
  have hclear : (s.tmem.clearBelow (2 ^ s.rLen)).read a = s.tmem.read a := by
    rw [read_clearBelow, if_neg ha.not_gt]
  exact buildLoop_keeps (P := fun m => m.read a = s.tmem.read a)
    (fun _ _ _ _ => buildTurn_keeps hrec) _ _ _ (hrec _ _ _ _ hclear)

/-- Settles O28: `BUILD` that ends `E_RANK` has written the entries below `2^r` and `TCNT`; the other
fatal ends write nothing. -/
theorem fatalErrorEntry : Obligations.FatalErrorEntry := by
  intro i s t hi h hmem
  obtain ⟨hcode, hhost⟩ := sameHost_of_command hi h
  have hfatal : ∀ c ∈ [Code.eRank, .eMiss, .eNoconv],
      c ∉ [Code.ok, .eK, .eN, .eNmax, .eShape, .eVlen, .eSeq, .eFatal] := by decide
  have hnot := hfatal _ hmem
  rcases command_cases hi h with ⟨_, rfl⟩ | ⟨_, rfl, _⟩ | ⟨_, hran⟩
  · exact absurd (by simp) hnot
  · exact absurd (by simp) hnot
  cases hran
  case build ht =>
    rcases buildBody_cases s with ⟨_, hb⟩ | ⟨_, hb⟩ <;> rw [hb] at ht <;> subst t
    · exact ⟨raise_status_of_fatal _ rfl, hcode, rfl, rfl, rfl, rfl, hhost, (absurd rfl ·),
        fun _ a ha => read_enumerate_of_ge s ha⟩
    · exact absurd (by simp) hnot
  case ldwMiss ht | decMiss ht | decNoconv ht =>
    subst t
    exact ⟨raise_status_of_fatal _ rfl, hcode, rfl, rfl, rfl, rfl, hhost, fun _ => ⟨rfl, fun _ => rfl⟩,
      fun _ _ _ => rfl⟩
  case cfgError hc _ ht =>
    subst t
    have hall : ∀ c ∈ [Code.eK, .eN, .eNmax, .eShape],
        c ∈ [Code.ok, .eK, .eN, .eNmax, .eShape, .eVlen, .eSeq, .eFatal] := by decide
    exact absurd (hall _ hc) hnot
  all_goals
    subst t
    exact absurd (by simp) hnot

end Sys2Proof.Machine
end

section
/-! What a step can do to the registers (10_state.md R26, R30, R32): the effects of the transactions and
of the engine, and the safety rules that follow from them. -/

namespace Sys2Proof.Machine

open Sys2Proof

/-! ### `storeReg` -/

section
variable (s : State) (d : Word) (q : Reg)

@[simp] theorem storeReg_config : (s.storeReg d q).config = s.config := by cases q <;> rfl
@[simp] theorem storeReg_status : (s.storeReg d q).status = s.status := by cases q <;> rfl
@[simp] theorem storeReg_prow : (s.storeReg d q).prow = s.prow := by cases q <;> rfl
@[simp] theorem storeReg_vout : (s.storeReg d q).vout = s.vout := by cases q <;> rfl
@[simp] theorem storeReg_synd : (s.storeReg d q).synd = s.synd := by cases q <;> rfl
@[simp] theorem storeReg_wgt : (s.storeReg d q).wgt = s.wgt := by cases q <;> rfl
@[simp] theorem storeReg_tcnt : (s.storeReg d q).tcnt = s.tcnt := by cases q <;> rfl
@[simp] theorem storeReg_tmem : (s.storeReg d q).tmem = s.tmem := by cases q <;> rfl
@[simp] theorem storeReg_inputs : (s.storeReg d q).inputs = s.inputs := by cases q <;> rfl

theorem sameCode_storeReg {q : Reg} (hq : q.lockable = false) : SameCode s (s.storeReg d q) := by
  cases q with
  | k => cases hq
  | n => cases hq
  | grows => cases hq
  | gcols => cases hq
  | grow i => cases hq
  | _ => exact ⟨rfl, rfl, rfl, rfl, rfl⟩

end

/-! ### Transactions -/

/-- Everything a transaction can do: change the host's view, issue a command word, or write a register
that is not locked. -/
inductive BusEffect (s t : State) : Prop where
  | view (v : HostView) (hdone : v.done = true → s.status.done = true) (ht : t = s.withView v) :
      BusEffect s t
  | issue (w : Word) (ht : t = s.issue w) : BusEffect s t
  | store (q : Reg) (d : Word) (hb : s.status.busy = false)
      (lock : q.lockable = true → s.status.cfgv = false)
      (exists_row : ∀ i, q = .grow i → i < s.config.nmax) (ht : t = s.storeReg d q) : BusEffect s t

theorem busEffect_hostWrite (s : State) (a : Nat) (d : Word) : BusEffect s (s.hostWrite a d) := by
  rcases hostWrite_cases s a d with h | ⟨q, hq, _, h⟩
  · exact .view { s.view with badacc := true } id h
  rcases writeReg_cases s q d with ⟨_, hw⟩ | ⟨_, hw⟩ | ⟨_, _, _, hw⟩ | ⟨_, _, _, hw⟩ | ⟨_, _, hw⟩ |
    ⟨_, _, _, hb, hlock, hw⟩
  · obtain ⟨v, hdone, hv⟩ := writeOneToClear_eq_withView s d
    exact .view v hdone (h.trans (hw.trans hv))
  · exact .view { s.view with ien := IntEnable.ofWord d } id (h.trans hw)
  · exact .view { s.view with ovr := true } id (h.trans hw)
  · exact .view { s.view with wlock := true } id (h.trans hw)
  · exact .issue d (h.trans hw)
  · refine .store q d hb hlock (fun i hi => ?_) (h.trans hw)
    exact (grow_exists_of_ofIndex (hi ▸ hq)).1

theorem busEffect_of_exec {s t : State} {r : Record} (h : exec (decodeBus r) s = .next t) :
    BusEffect s t := by
  rw [decodeBus] at h
  split at h
  · rw [(execWr_cases h).2]
    exact busEffect_hostWrite s _ _
  · obtain ⟨v, hdone, hv⟩ := hostRead_eq_withView s (addrField r).toNat
    exact .view v hdone ((execRd_cases h).2.trans hv)

/-! ### The step -/

/-- Everything a step can do from `s`, the state in which the next input has its turn. -/
inductive StepEffect (s t : State) : Prop where
  | command (i : Instr) (hi : IsCommand i) (hd : decodeCommand s.pend = .ok i)
      (h : exec i s = .next t) : StepEffect s t
  | illegal (ht : t = s.raise .eIllcmd) : StepEffect s t
  | idle (ht : t = s) : StepEffect s t
  | bus (h : BusEffect s t) : StepEffect s t
  | reset (ht : t = s.toReset) : StepEffect s t

theorem stepEffect_of_step {s t : State} (h : step s = .next t) : StepEffect s.afterInput t := by
  rcases step_cases h with ⟨_, i, hd, hi⟩ | ⟨_, _, ht⟩ | ⟨_, ht⟩ | ⟨r, hr⟩ | ht
  · rcases isCommand_or_rst_of_decodeCommand hd with hcmd | rfl
    · exact .command i hcmd hd hi
    · cases hi
      exact .reset rfl
  · exact .illegal ht
  · exact .idle ht
  · exact .bus (busEffect_of_exec hr)
  · exact .reset ht

theorem resetFrom_afterInput_toReset (s : State) : ResetFrom s s.afterInput.toReset :=
  resetFrom_toReset s.afterInput

/-- Settles O13: the step that samples the pin is a reset. -/
theorem pinAbandonsCommand : Obligations.PinAbandonsCommand :=
  fun s rest hin => ⟨_, step_rstPin hin, resetFrom_toReset { s with inputs := rest }, rfl, rfl⟩

/-- Settles O46: no effect touches the parameter. -/
theorem parameterIsConstant : Obligations.ParameterIsConstant := by
  intro s t h
  have hconf : t.config = s.config := by
    cases stepEffect_of_step h with
    | command i hi _ hexec =>
      obtain ⟨_, _, _, hconf, _⟩ := sameHost_of_command hi hexec
      exact hconf
    | illegal ht => rw [ht]; rfl
    | idle ht => rw [ht]; rfl
    | bus hbus =>
      cases hbus with
      | view v _ ht => rw [ht]; rfl
      | issue w ht => rw [ht]; rfl
      | store q d _ _ _ ht => rw [ht, storeReg_config]; rfl
    | reset ht => rw [ht]; rfl
  exact ⟨hconf, congrArg capWord hconf⟩

/-! ### `STATUS` over a step -/

/-- Taking an input does not touch `STATUS`. -/
theorem statusMove_of_afterInput {i : Instr} {s t : State} (h : StatusMove i s.afterInput t) :
    StatusMove i s t := by
  cases h with
  | ended ht => exact .ended ht
  | configured hi hf hc ht => exact .configured hi hf hc ht
  | built hi hf hc hb ht => exact .built hi hf hc hb ht
  | failed hf hend ht => exact .failed hf hend ht

/-- A step ends a command, or leaves the lifecycle flags alone, or resets. -/
theorem lifecycleFlags_of_step {s t : State} (h : step s = .next t) :
    (∃ i, IsCommand i ∧ decodeCommand s.pend = .ok i ∧ StatusMove i s t) ∨
    (t.status.cfgv = s.status.cfgv ∧ t.status.tblv = s.status.tblv ∧
      t.status.fatal = s.status.fatal) ∨
    ResetFrom s t := by
  cases stepEffect_of_step h with
  | command i hi hd hexec =>
    exact .inl ⟨i, hi, hd, statusMove_of_afterInput (statusMove_of_command hi hexec)⟩
  | illegal ht =>
    subst t
    exact .inr (.inl ⟨rfl, rfl, Bool.or_false _⟩)
  | idle ht =>
    subst t
    exact .inr (.inl ⟨rfl, rfl, rfl⟩)
  | bus hbus =>
    cases hbus with
    | view v _ ht =>
      subst t
      exact .inr (.inl ⟨rfl, rfl, rfl⟩)
    | issue w ht =>
      subst t
      exact .inr (.inl ⟨rfl, rfl, rfl⟩)
    | store q d _ _ _ ht =>
      rw [ht, storeReg_status]
      exact .inr (.inl ⟨rfl, rfl, rfl⟩)
  | reset ht =>
    rw [ht]
    exact .inr (.inr (resetFrom_afterInput_toReset s))

/-- Settles O29: a command in lifecycle FATAL moves no lifecycle flag. -/
theorem onlyResetLeavesFatal : Obligations.OnlyResetLeavesFatal := by
  intro s t hf h
  rcases lifecycleFlags_of_step h with ⟨i, _, _, hmove⟩ | ⟨_, _, hfatal⟩ | hreset
  · cases hmove with
    | ended ht => exact .inl (by rw [ht]; exact hf)
    | configured _ hf' _ _ => cases hf.symm.trans hf'
    | built _ hf' _ _ _ => cases hf.symm.trans hf'
    | failed hf' _ _ => cases hf.symm.trans hf'
  · exact .inl (hfatal.trans hf)
  · exact .inr hreset

/-- The lifecycle state is a function of the three flags (10_state.md R26). -/
theorem lifecycle_congr {st st' : Status} (hc : st'.cfgv = st.cfgv) (ht : st'.tblv = st.tblv)
    (hf : st'.fatal = st.fatal) : st'.lifecycle = st.lifecycle := by
  rw [Status.lifecycle, Status.lifecycle, hc, ht, hf]

theorem lifecycle_of_resetFrom {s t : State} (h : ResetFrom s t) : t.status.lifecycle = .empty := by
  obtain ⟨_, _, _, _, _, _, _, _, _, _, _, _, _, _, hempty, _⟩ := h
  exact hempty

theorem tblv_eq_false_of_cfgv {s : State} (hinv : StatusInv s) (hc : s.status.cfgv = false) :
    s.status.tblv = false := by
  by_contra ht
  cases hc.symm.trans (hinv.table_needs_code (by simpa using ht))

/-- Settles O45: the flags move only at the end of a command, and each such end is one of the listed
transitions. -/
theorem lifecycleTransitions : Obligations.LifecycleTransitions := by
  intro s t hinv h
  rcases lifecycleFlags_of_step h with ⟨i, _, hd, hmove⟩ | ⟨hc, ht, hf⟩ | hreset
  case inr.inl => exact .inl (lifecycle_congr hc ht hf)
  case inr.inr =>
    exact .inr (.inr (.inr (.inr (.inr ⟨lifecycle_of_resetFrom hreset, hreset⟩))))
  cases hmove with
  | ended ht =>
    rw [ht]
    exact .inl (lifecycle_congr rfl rfl rfl)
  | configured hi hf hc ht =>
    have htbl : s.status.tblv = false := tblv_eq_false_of_cfgv hinv hc
    refine .inr (.inl ⟨?_, ?_, hi ▸ hd, by rw [ht]; rfl⟩)
    · simp [Status.lifecycle, hf, hc, htbl]
    · simp [ht, Status.lifecycle, Status.completed, hf, htbl]
  | built hi hf hc hb ht =>
    refine .inr (.inr (.inl ⟨?_, ?_, hi ▸ hd, by rw [ht]; rfl⟩))
    · simp [Status.lifecycle, hf, hc, hb]
    · simp [ht, Status.lifecycle, Status.completed, hf]
  | @failed c hf hend ht =>
    have hcode : t.status.ecode = c := by rw [ht]; rfl
    have hfatal : t.status.lifecycle = .fatal := by simp [ht, Status.lifecycle]
    rcases hend with ⟨hi, hc, hb, hrank⟩ | ⟨htbl, hend⟩
    · refine .inr (.inr (.inr (.inl ⟨?_, hfatal, hi ▸ hd, hcode.trans hrank⟩)))
      simp [Status.lifecycle, hf, hc, hb]
    · refine .inr (.inr (.inr (.inr (.inl ⟨?_, hfatal, ?_⟩))))
      · simp [Status.lifecycle, hf, htbl]
      · rcases hend with ⟨hi, hmiss⟩ | ⟨hi, hnoconv⟩
        · exact .inl ⟨hi.imp (fun h : i = .dec => h ▸ hd) (fun h : i = .ldw => h ▸ hd),
            hcode.trans hmiss⟩
        · exact .inr ⟨hi ▸ hd, hcode.trans hnoconv⟩

/-! ### The invariants of `STATUS` -/

theorem statusInv_of_statusMove {i : Instr} {s t : State} (hinv : StatusInv s)
    (h : StatusMove i s t) : StatusInv t := by
  cases h with
  | ended ht =>
    constructor <;> rw [ht]
    · exact hinv.table_needs_code
    · exact hinv.fatal_needs_code
    · exact nofun
  | configured _ _ _ ht =>
    constructor <;> rw [ht]
    · exact fun _ => rfl
    · exact fun _ => rfl
    · exact nofun
  | built _ _ hc _ ht =>
    constructor <;> rw [ht]
    · exact fun _ => hc
    · exact fun _ => hc
    · exact nofun
  | failed _ hend ht =>
    have hc : s.status.cfgv = true := by
      rcases hend with ⟨_, hc, _⟩ | ⟨htbl, _⟩
      · exact hc
      · exact hinv.table_needs_code htbl
    constructor <;> rw [ht]
    · exact fun _ => hc
    · exact fun _ => hc
    · exact nofun

theorem statusInv_of_busEffect {s t : State} (hinv : StatusInv s) (h : BusEffect s t) :
    StatusInv t := by
  cases h with
  | view v hdone ht =>
    subst t
    refine ⟨hinv.table_needs_code, hinv.fatal_needs_code, fun hb => ?_⟩
    obtain ⟨hclear, hok⟩ := hinv.busy_is_fresh hb
    exact ⟨Bool.eq_false_iff.mpr fun hv => Bool.eq_false_iff.mp hclear (hdone hv), hok⟩
  | issue w ht =>
    subst t
    exact ⟨hinv.table_needs_code, hinv.fatal_needs_code, fun _ => ⟨rfl, rfl⟩⟩
  | store q d _ _ _ ht =>
    constructor <;> rw [ht, storeReg_status]
    · exact hinv.table_needs_code
    · exact hinv.fatal_needs_code
    · exact hinv.busy_is_fresh

theorem statusInv_toReset (s : State) : StatusInv s.toReset := ⟨nofun, nofun, nofun⟩

theorem statusInv_of_stepEffect {s t : State} (hinv : StatusInv s) (h : StepEffect s t) :
    StatusInv t := by
  cases h with
  | command i hi _ hexec => exact statusInv_of_statusMove hinv (statusMove_of_command hi hexec)
  | illegal ht =>
    subst t
    exact statusInv_of_statusMove (i := .cfg) hinv (.ended (raise_status_of_nonFatal s rfl))
  | idle ht => exact ht ▸ hinv
  | bus hbus => exact statusInv_of_busEffect hinv hbus
  | reset ht => exact ht ▸ statusInv_toReset s

/-- Settles O48: each effect keeps the three implications; taking an input does not touch `STATUS`. -/
theorem stepKeepsStatusInvariant : Obligations.StepKeepsStatusInvariant := by
  intro s t hinv h
  have hafter : StatusInv s.afterInput :=
    ⟨hinv.table_needs_code, hinv.fatal_needs_code, hinv.busy_is_fresh⟩
  exact statusInv_of_stepEffect hafter (stepEffect_of_step h)

/-! ### The code and the table are constant -/

theorem exec_cfg_refused {s t : State} (hc : s.status.cfgv = true) (h : exec .cfg s = .next t) :
    ∃ c, t = s.raise c := by
  rcases command_cases (.inl rfl) h with ⟨_, ht⟩ | ⟨_, ht, _⟩ | ⟨_, hran⟩
  · exact ⟨_, ht⟩
  · exact ⟨_, ht⟩
  · cases hran with
    | cfg gate _ _ => cases hc.symm.trans gate
    | cfgError gate _ _ _ => cases hc.symm.trans gate

theorem exec_build_refused {s t : State} (hb : s.status.tblv = true) (h : exec .build s = .next t) :
    ∃ c, t = s.raise c := by
  rcases command_cases (.inr (.inl rfl)) h with ⟨_, ht⟩ | ⟨_, ht, _⟩ | ⟨_, hran⟩
  · exact ⟨_, ht⟩
  · exact ⟨_, ht⟩
  · cases hran with
    | build _ once _ _ => cases hb.symm.trans once

/-- With `CFGV = 1` no command writes `PROW`: only a `CFG` would, and its gate is shut. -/
theorem prow_of_command {i : Instr} {s t : State} (hi : IsCommand i) (hc : s.status.cfgv = true)
    (h : exec i s = .next t) : t.prow = s.prow := by
  by_contra hne
  obtain ⟨hprow, _⟩ := writesOwnResult_of_command hi h
  obtain ⟨rfl, _⟩ := hprow hne
  obtain ⟨c, rfl⟩ := exec_cfg_refused hc h
  exact hne rfl

/-- With `TBLV = 1` no command writes `TMEM`: only a `BUILD` would, and its gate is shut. -/
theorem tmem_of_command {i : Instr} {s t : State} (hi : IsCommand i) (hb : s.status.tblv = true)
    (h : exec i s = .next t) : t.tmem = s.tmem := by
  by_contra hne
  obtain ⟨_, _, _, _, _, htmem⟩ := writesOwnResult_of_command hi h
  obtain rfl := htmem hne
  obtain ⟨c, rfl⟩ := exec_build_refused hb h
  exact hne rfl

/-- No end of a command clears `CFGV` or `TBLV`. -/
theorem flags_mono_of_statusMove {i : Instr} {s t : State} (h : StatusMove i s t) :
    (s.status.cfgv = true → t.status.cfgv = true) ∧ (s.status.tblv = true → t.status.tblv = true) := by
  cases h with
  | ended ht => rw [ht]; exact ⟨id, id⟩
  | configured _ _ _ ht => rw [ht]; exact ⟨fun _ => rfl, id⟩
  | built _ _ _ _ ht => rw [ht]; exact ⟨id, fun _ => rfl⟩
  | failed _ _ ht => rw [ht]; exact ⟨id, id⟩

/-- Settles O43: the lock keeps the host from the code registers, and the gate of `CFG` keeps `PROW`. -/
theorem codeParametersImmutable : Obligations.CodeParametersImmutable := by
  intro s t hc h
  cases stepEffect_of_step h with
  | command i hi _ hexec =>
    exact .inl ⟨(flags_mono_of_statusMove (statusMove_of_command hi hexec)).1 hc,
      (sameHost_of_command hi hexec).1, prow_of_command (s := s.afterInput) hi hc hexec⟩
  | illegal ht =>
    subst t
    exact .inl ⟨hc, ⟨rfl, rfl, rfl, rfl, rfl⟩, rfl⟩
  | idle ht =>
    subst t
    exact .inl ⟨hc, ⟨rfl, rfl, rfl, rfl, rfl⟩, rfl⟩
  | bus hbus =>
    cases hbus with
    | view v _ ht =>
      subst t
      exact .inl ⟨hc, ⟨rfl, rfl, rfl, rfl, rfl⟩, rfl⟩
    | issue w ht =>
      subst t
      exact .inl ⟨hc, ⟨rfl, rfl, rfl, rfl, rfl⟩, rfl⟩
    | store q d _ lock _ ht =>
      have hopen : q.lockable = false := Bool.eq_false_iff.mpr fun hl =>
        Bool.eq_false_iff.mp (lock hl) hc
      rw [ht, storeReg_status, storeReg_prow]
      exact .inl ⟨hc, sameCode_storeReg s.afterInput d hopen, rfl⟩
  | reset ht => exact .inr (ht ▸ resetFrom_afterInput_toReset s)

/-- Settles O44: no transaction reaches `TMEM`, and the gate of `BUILD` keeps it from the engine. -/
theorem tableImmutable : Obligations.TableImmutable := by
  intro s t hb h
  cases stepEffect_of_step h with
  | command i hi _ hexec =>
    refine .inl ⟨(flags_mono_of_statusMove (statusMove_of_command hi hexec)).2 hb, fun a => ?_⟩
    rw [tmem_of_command (s := s.afterInput) hi hb hexec]
    rfl
  | illegal ht =>
    subst t
    exact .inl ⟨hb, fun _ => rfl⟩
  | idle ht =>
    subst t
    exact .inl ⟨hb, fun _ => rfl⟩
  | bus hbus =>
    cases hbus with
    | view v _ ht =>
      subst t
      exact .inl ⟨hb, fun _ => rfl⟩
    | issue w ht =>
      subst t
      exact .inl ⟨hb, fun _ => rfl⟩
    | store q d _ _ _ ht =>
      refine .inl ⟨?_, fun a => ?_⟩
      · rw [ht, storeReg_status]
        exact hb
      · rw [ht, storeReg_tmem]
        rfl
  | reset ht => exact .inr (ht ▸ resetFrom_afterInput_toReset s)

end Sys2Proof.Machine
end

section
/-! The linear algebra of a CodeParameters object (40_gf2_primitives.md R84 to R89): the transpose, the
syndrome as a product, on unit vectors and on shifted syndromes. -/

namespace Sys2Proof.Machine

open Sys2Proof

/-! ### The transpose (R84) -/

theorem getLsbD_eq_false_of_isVector {len : Nat} {v : Word} (hv : IsVector len v) {i : Nat}
    (hi : len ≤ i) : v.getLsbD i = false :=
  (strayBits_eq_zero_iff len v).mp hv i hi

/-- Settles O54: the transpose swaps the indices of an entry; swapped twice, only entries outside the
declared shape are lost, and the matrix has none. -/
theorem transposeIsInvolution : Obligations.TransposeIsInvolution := by
  refine fun f rows cols hrows hcols => ⟨fun i j hi hj => ?entry, fun hstray hzero => ?twice⟩
  case entry =>
    rw [getLsbD_transpose, decide_eq_true hi, decide_eq_true hj]
    simp
  case twice =>
    refine rowFile_ext fun i hi => word_ext fun j hj => ?_
    rw [getLsbD_transpose, getLsbD_transpose, decide_eq_true hi, decide_eq_true hj]
    by_cases hr : i < rows
    · by_cases hc : j < cols
      · simp [hr, hc]
      · simp [hc, getLsbD_eq_false_of_isVector (hstray i hr) (not_lt.mp hc)]
    · simp [hr, hzero i (not_lt.mp hr)]

/-! ### The syndrome as a product (R86, R87) -/

theorem syndrome_eq_mulMod2 (k n : Nat) (p : RowFile) (v : Word) :
    syndrome k n p v = mulMod2 p (n - k) k v ^^^ ((v >>> k) &&& mask (n - k)) := by
  refine word_ext fun i hi => ?_
  rw [getLsbD_syndrome, BitVec.getLsbD_xor, getLsbD_mulMod2, BitVec.getLsbD_and,
    BitVec.getLsbD_ushiftRight, getLsbD_mask]
  by_cases hr : i < n - k <;> simp [hr, hi]

theorem syndromeOf_eq_mulMod2 (s : State) (v : Word) :
    s.syndromeOf v = mulMod2 s.prow s.rLen s.kLen v ^^^ ((v >>> s.kLen) &&& mask s.rLen) :=
  syndrome_eq_mulMod2 _ _ _ _

theorem parityBits_eq_mulMod2 {s : State} (hc : HoldsCode s) (msg : Word) :
    parityBits s.kLen s.nLen s.grow msg = mulMod2 s.prow s.rLen s.kLen msg := by
  obtain ⟨_, _, _, hn, _⟩ := lengths_of_paramsLegal hc.legal
  have hr32 : s.rLen ≤ 32 := (Nat.sub_le _ _).trans hn
  refine word_ext fun i _ => ?_
  by_cases hi : i < s.rLen
  · rw [getLsbD_parityBits_of_lt hc.legal msg hi, getLsbD_mulMod2_of_lt _ _ _ hr32 hi,
      parity_prow_of_holdsCode hc msg hi]
  · have hr : ¬ i < s.nLen - s.kLen := hi
    rw [getLsbD_mulMod2_of_ge _ _ _ (not_lt.mp hi), getLsbD_parityBits, decide_eq_false hr,
      Bool.false_and, Bool.false_and]

/-- Settles O56: both sides agree symbol by symbol. -/
theorem syndromeIsProduct : Obligations.SyndromeIsProduct :=
  fun s hc => ⟨syndromeOf_eq_mulMod2 s, parityBits_eq_mulMod2 hc⟩

/-! ### Identities of the syndrome (R89) -/

theorem isVector_and_mask (len : Nat) (v : Word) : IsVector len (v &&& mask len) := by
  refine (strayBits_eq_zero_iff _ _).mpr fun i hi => ?_
  rw [BitVec.getLsbD_and, getLsbD_mask, decide_eq_false hi.not_gt, Bool.false_and, Bool.and_false]

theorem isVector_one_shiftLeft {len i : Nat} (hi : i < len) : IsVector len (1#32 <<< i) := by
  refine (strayBits_eq_zero_iff _ _).mpr fun j hj => ?_
  rw [getLsbD_one_shiftLeft, decide_eq_false (show j ≠ i by omega), Bool.false_and]

/-- Item 1, in every state: the product is linear, and so is the shift. -/
theorem syndromeOf_xor (s : State) (a b : Word) :
    s.syndromeOf (a ^^^ b) = s.syndromeOf a ^^^ s.syndromeOf b := by
  have hshift : (a ^^^ b) >>> s.kLen &&& mask s.rLen =
      (a >>> s.kLen &&& mask s.rLen) ^^^ (b >>> s.kLen &&& mask s.rLen) := by
    refine word_ext fun i _ => ?_
    simp only [BitVec.getLsbD_and, BitVec.getLsbD_xor, BitVec.getLsbD_ushiftRight,
      Bool.and_xor_distrib_right]
  rw [syndromeOf_eq_mulMod2, syndromeOf_eq_mulMod2, syndromeOf_eq_mulMod2, mulMod2_xor, hshift]
  ac_rfl

section
variable {s : State} (hc : HoldsCode s)
include hc

/-- A syndrome symbol is the parity symbol of the message part, added to the received one. -/
theorem getLsbD_syndromeOf_of_holdsCode (v : Word) {i : Nat} (hi : i < s.rLen) :
    (s.syndromeOf v).getLsbD i =
      ((sumMod2 s.kLen fun j => v.getLsbD j && (s.grow.row j).getLsbD i) ^^
        v.getLsbD (s.kLen + i)) := by
  rw [getLsbD_syndromeOf_of_lt hc.legal v hi, parity_prow_of_holdsCode hc v hi]

/-- Item 2: a unit vector of the message part selects its row of `G`. -/
theorem syndromeOf_message_unit {i : Nat} (hi : i < s.kLen) :
    s.syndromeOf (1#32 <<< i) = s.grow.row i &&& mask s.rLen := by
  obtain ⟨_, hkn, _, hn, _⟩ := lengths_of_paramsLegal hc.legal
  refine word_ext fun j hj => ?_
  rw [BitVec.getLsbD_and, getLsbD_mask]
  by_cases hr : j < s.rLen
  · have hsum : (sumMod2 s.kLen fun l => (1#32 <<< i).getLsbD l && (s.grow.row l).getLsbD j) =
        sumMod2 s.kLen fun l => decide (l = i) && (s.grow.row l).getLsbD j := by
      refine sumMod2_congr fun l hl => ?_
      rw [getLsbD_one_shiftLeft, decide_eq_true (show l < 32 by omega), Bool.and_true]
    have hpar : s.kLen + j ≠ i := by omega
    rw [getLsbD_syndromeOf_of_holdsCode hc _ hr, hsum, sumMod2_single, getLsbD_one_shiftLeft]
    simp [hi, hr, hj, hpar]
  · rw [getLsbD_syndromeOf_of_ge s _ (not_lt.mp hr)]
    simp [hr]

/-- Item 4: a vector without a message part has its parity part as syndrome. -/
theorem syndromeOf_shiftLeft {x : Word} (hx : IsVector s.rLen x) : s.syndromeOf (x <<< s.kLen) = x := by
  obtain ⟨_, hkn, _, hn, _⟩ := lengths_of_paramsLegal hc.legal
  refine word_ext fun i _ => ?_
  by_cases hi : i < s.rLen
  · have hr : i < s.nLen - s.kLen := hi
    have hmsg : (sumMod2 s.kLen fun j => (x <<< s.kLen).getLsbD j && (s.grow.row j).getLsbD i) =
        sumMod2 s.kLen fun _ => false := by
      refine sumMod2_congr fun j hj => ?_
      rw [BitVec.getLsbD_shiftLeft, decide_eq_true hj]
      simp
    rw [getLsbD_syndromeOf_of_holdsCode hc _ hi, hmsg, sumMod2_false, BitVec.getLsbD_shiftLeft]
    simp [show s.kLen + i < 32 by omega]
  · rw [getLsbD_syndromeOf_of_ge s _ (not_lt.mp hi), getLsbD_eq_false_of_isVector hx (not_lt.mp hi)]

theorem isVector_shiftLeft {x : Word} (hx : IsVector s.rLen x) : IsVector s.nLen (x <<< s.kLen) := by
  obtain ⟨_, hkn, _⟩ := lengths_of_paramsLegal hc.legal
  refine (strayBits_eq_zero_iff _ _).mpr fun i hi => ?_
  have hr : s.rLen ≤ i - s.kLen := Nat.sub_le_sub_right hi _
  rw [BitVec.getLsbD_shiftLeft, getLsbD_eq_false_of_isVector hx hr, Bool.and_false]

/-- Item 2: a unit vector of the parity part has a unit vector as syndrome. -/
theorem syndromeOf_parity_unit {j : Nat} (hj : j < s.rLen) :
    s.syndromeOf (1#32 <<< (s.kLen + j)) = 1#32 <<< j := by
  have hshift : 1#32 <<< (s.kLen + j) = (1#32 <<< j) <<< s.kLen := by
    rw [Nat.add_comm, BitVec.shiftLeft_add]
  rw [hshift, syndromeOf_shiftLeft hc (isVector_one_shiftLeft hj)]

/-- Item 6: the parity symbols of a vector of syndrome zero are those of its message. -/
theorem eq_encodeOf_of_syndromeOf_eq_zero {v : Word} (hv : IsVector s.nLen v)
    (h : s.syndromeOf v = 0) : v = s.encodeOf (v &&& mask s.kLen) := by
  have hbit : ∀ i, i < s.kLen → (v &&& mask s.kLen).getLsbD i = v.getLsbD i := by
    intro i hi
    by_cases h32 : i < 32
    · rw [BitVec.getLsbD_and, getLsbD_mask, decide_eq_true hi, decide_eq_true h32]
      simp
    · rw [BitVec.getLsbD_of_ge _ i (not_lt.mp h32), BitVec.getLsbD_of_ge _ i (not_lt.mp h32)]
  have hmsg : IsVector s.kLen (v &&& mask s.kLen) := isVector_and_mask _ _
  refine word_ext fun i _ => ?_
  by_cases hk : i < s.kLen
  · rw [getLsbD_encodeOf_message hc.legal _ hk, hbit i hk]
  by_cases hn : i < s.nLen
  · obtain ⟨j, rfl⟩ := Nat.exists_eq_add_of_le (not_lt.mp hk)
    have hj : j < s.rLen := Nat.lt_sub_of_add_lt (by omega)
    have hzero : (s.syndromeOf v).getLsbD j = false := by
      rw [h]
      exact BitVec.getLsbD_zero
    rw [getLsbD_syndromeOf_of_holdsCode hc v hj, bne_eq_false_iff_eq] at hzero
    rw [getLsbD_encodeOf_parity hc.legal hmsg hj, ← hzero]
    exact sumMod2_congr fun l hl => by rw [hbit l hl]
  · rw [getLsbD_eq_false_of_isVector hv (not_lt.mp hn),
      getLsbD_eq_false_of_isVector (isVector_encodeOf hc.legal hmsg) (not_lt.mp hn)]

/-- Item 5: the message can be read off the codeword. -/
theorem encodeOf_injective {m1 m2 : Word} (h1 : IsVector s.kLen m1) (h2 : IsVector s.kLen m2)
    (h : s.encodeOf m1 = s.encodeOf m2) : m1 = m2 := by
  refine word_ext fun i _ => ?_
  by_cases hk : i < s.kLen
  · rw [← getLsbD_encodeOf_message hc.legal m1 hk, h, getLsbD_encodeOf_message hc.legal m2 hk]
  · rw [getLsbD_eq_false_of_isVector h1 (not_lt.mp hk), getLsbD_eq_false_of_isVector h2 (not_lt.mp hk)]

end

/-- Settles O57: the items 1 to 3 of R89, one lemma each. -/
theorem syndromeIdentities : Obligations.SyndromeIdentities := fun s hc =>
  ⟨syndromeOf_zero s, syndromeOf_xor s, fun _ hmsg => syndromeOf_encodeOf hc hmsg,
    fun _ hi => syndromeOf_message_unit hc hi, fun _ hj => syndromeOf_parity_unit hc hj⟩

/-- Settles O58: the items 4 to 6 of R89, one lemma each. -/
theorem codewordsAreZeroSyndromes : Obligations.CodewordsAreZeroSyndromes := by
  refine fun s hc => ⟨fun x hx => ⟨isVector_shiftLeft hc hx, syndromeOf_shiftLeft hc hx⟩,
    fun m1 m2 h1 h2 h => encodeOf_injective hc h1 h2 h,
    fun v hv => ⟨fun h => eq_encodeOf_of_syndromeOf_eq_zero hc hv h, fun h => ?codeword⟩⟩
  case codeword =>
    rw [h]
    exact syndromeOf_encodeOf hc (isVector_and_mask _ _)

end Sys2Proof.Machine
end

section
/-! The table memory as data (10_state.md R25), and the leader weights of a complete table
(42_coset_leader_table.md R105). -/

namespace Sys2Proof.Machine

open Sys2Proof

/-! ### The canonical form -/

/-- The first entry of a canonical memory stands at the least address listed. -/
theorem wf_cons {a : Nat} {e : Entry} {m : TMem} (h : TMem.wf ((a, e) :: m) = true) :
    e ≠ Entry.absent ∧ m.wf = true ∧ ∀ i, i ≤ a → m.read i = Entry.absent := by
  obtain ⟨hsorted, hlisted⟩ := (wf_iff _).mp h
  obtain ⟨hfirst, hrest⟩ := List.pairwise_cons.mp hsorted
  refine ⟨hlisted (a, e) List.mem_cons_self,
    (wf_iff m).mpr ⟨hrest, fun c hc => hlisted c (List.mem_cons_of_mem _ hc)⟩, fun i hi => ?_⟩
  exact read_of_not_listed fun c hc => (hi.trans_lt (hfirst c hc)).ne'

theorem read_cons_self (a : Nat) (e : Entry) (m : TMem) : TMem.read ((a, e) :: m) a = e := if_pos rfl

theorem read_cons_of_ne {a i : Nat} (e : Entry) (m : TMem) (h : a ≠ i) :
    TMem.read ((a, e) :: m) i = m.read i := if_neg h

/-- An address below the first one listed reads as absent, so two canonical memories that read alike
begin at the same address. -/
theorem first_le_of_read_eq {a b : Nat} {e x : Entry} {m m' : TMem}
    (h : TMem.wf ((a, e) :: m) = true) (h' : TMem.wf ((b, x) :: m') = true)
    (hread : ∀ i, TMem.read ((a, e) :: m) i = TMem.read ((b, x) :: m') i) : b ≤ a := by
  by_contra hlt
  have hlt : a < b := not_le.mp hlt
  obtain ⟨he, _, _⟩ := wf_cons h
  obtain ⟨_, _, hbelow⟩ := wf_cons h'
  have ha := hread a
  rw [read_cons_self, read_cons_of_ne x m' hlt.ne', hbelow a hlt.le] at ha
  exact he ha

/-- Settles O52: canonical memories that read alike have the same first entry, and their rests read
alike. -/
theorem tableFormIsCanonical : Obligations.TableFormIsCanonical := by
  intro m
  induction m with
  | nil =>
    intro m' _ h' hread
    cases m' with
    | nil => rfl
    | cons c rest =>
      obtain ⟨he, _, _⟩ := wf_cons h'
      have hc := hread c.1
      rw [read_nil, read_cons_self] at hc
      exact absurd hc.symm he
  | cons c rest ih =>
    obtain ⟨a, e⟩ := c
    intro m' h h' hread
    cases m' with
    | nil =>
      obtain ⟨he, _, _⟩ := wf_cons h
      have hc := hread a
      rw [read_nil, read_cons_self] at hc
      exact absurd hc he
    | cons c' rest' =>
      obtain ⟨b, x⟩ := c'
      obtain rfl : a = b :=
        le_antisymm (first_le_of_read_eq h' h fun i => (hread i).symm) (first_le_of_read_eq h h' hread)
      obtain rfl : e = x := by simpa only [read_cons_self] using hread a
      obtain ⟨_, hwf, habsent⟩ := wf_cons h
      obtain ⟨_, hwf', habsent'⟩ := wf_cons h'
      refine congrArg _ (ih rest' hwf hwf' fun i => ?_)
      by_cases hi : a = i
      · rw [habsent i hi.ge, habsent' i hi.ge]
      · simpa only [read_cons_of_ne _ _ hi] using hread i

/-! ### Weights of vectors -/

/-- Places that are clear from `k` on do not count. -/
theorem countSet_of_false_from {k n : Nat} {f : Nat → Bool} (hk : k ≤ n)
    (h : ∀ i, k ≤ i → f i = false) : countSet n f = countSet k f := by
  induction n, hk using Nat.le_induction with
  | base => rfl
  | succ n hn ih => rw [countSet, ih, h n hn]; rfl

theorem countSet_shift (k n : Nat) (f : Nat → Bool) :
    countSet (k + n) (fun i => decide (k ≤ i) && f (i - k)) = countSet n f := by
  induction n with
  | zero =>
    refine (countSet_eq_zero_iff _ _).mpr fun i hi => ?_
    rw [decide_eq_false (show ¬ k ≤ i by omega), Bool.false_and]
  | succ n ih =>
    rw [← Nat.add_assoc, countSet, countSet, ih, decide_eq_true (Nat.le_add_right k n), Bool.true_and,
      Nat.add_sub_cancel_left]

theorem hammingWeight_le_of_isVector {len : Nat} (hlen : len ≤ 32) {v : Word} (hv : IsVector len v) :
    hammingWeight v ≤ len := by
  rw [hammingWeight, countSet_of_false_from hlen fun i hi => getLsbD_eq_false_of_isVector hv hi]
  exact countSet_le _ _

/-- A shift that loses no symbol keeps the weight. -/
theorem hammingWeight_shiftLeft {k len : Nat} (h32 : k + len ≤ 32) {x : Word} (hx : IsVector len x) :
    hammingWeight (x <<< k) = hammingWeight x := by
  have hbits : ∀ i, i < 32 → (x <<< k).getLsbD i = (decide (k ≤ i) && x.getLsbD (i - k)) := by
    intro i hi
    rw [BitVec.getLsbD_shiftLeft]
    by_cases hk : k ≤ i <;> simp [hi, hk]
  have hclear : ∀ i, len ≤ i → x.getLsbD i = false := fun i hi => getLsbD_eq_false_of_isVector hx hi
  have hword : 32 = k + (32 - k) := by omega
  calc hammingWeight (x <<< k)
      = countSet 32 fun i => decide (k ≤ i) && x.getLsbD (i - k) := countSet_congr hbits
    _ = countSet (k + (32 - k)) fun i => decide (k ≤ i) && x.getLsbD (i - k) := by rw [← hword]
    _ = countSet (32 - k) x.getLsbD := countSet_shift k (32 - k) x.getLsbD
    _ = countSet len x.getLsbD := countSet_of_false_from (by omega) hclear
    _ = hammingWeight x := (countSet_of_false_from (by omega) hclear).symm

theorem isVector_xor {len : Nat} {a b : Word} (ha : IsVector len a) (hb : IsVector len b) :
    IsVector len (a ^^^ b) := by
  refine (strayBits_eq_zero_iff _ _).mpr fun i hi => ?_
  rw [BitVec.getLsbD_xor, getLsbD_eq_false_of_isVector ha hi, getLsbD_eq_false_of_isVector hb hi]
  rfl

theorem isVector_flipBit {len : Nat} {v : Word} (hv : IsVector len v) {m : Nat} (hm : m < len) :
    IsVector len (flipBit v m) :=
  isVector_xor hv (isVector_one_shiftLeft hm)

theorem hammingWeight_flipBit_le (v : Word) {m : Nat} (hm : m < 32) :
    hammingWeight (flipBit v m) ≤ hammingWeight v + 1 := by
  cases h : v.getLsbD m with
  | false => exact (hammingWeight_flipBit_of_clear hm h).le
  | true =>
    have := hammingWeight_flipBit_of_set hm h
    omega

theorem exists_set_of_ne_zero {v : Word} (h : v ≠ 0) : ∃ m, m < 32 ∧ v.getLsbD m = true := by
  by_contra hnone
  refine h (word_ext fun i hi => Eq.trans ?_ BitVec.getLsbD_zero.symm)
  by_contra hset
  exact hnone ⟨i, hi, by simpa using hset⟩

/-! ### Leader weights -/

/-- The leader weight of a vector's syndrome, as `TMEM` has it (43_codec.md R111). -/
def State.leaderWeight (s : State) (v : Word) : Nat :=
  (s.tmem.read (s.syndromeOf v).toNat).weight.toNat

theorem syndromeOf_flipBit {s : State} {v w : Word} (m : Nat) (h : s.syndromeOf v = s.syndromeOf w) :
    s.syndromeOf (flipBit v m) = s.syndromeOf (flipBit w m) := by
  rw [flipBit, flipBit, syndromeOf_xor, syndromeOf_xor, h]

section
variable {s : State} (ht : HoldsTable s)
include ht

/-- Every vector's coset has a leader, of the weight in the table. -/
theorem exists_leader (v : Word) : ∃ e, IsVector s.nLen e ∧ s.syndromeOf e = s.syndromeOf v ∧
    hammingWeight e = s.leaderWeight v := by
  obtain ⟨e, he, hsyn, hw⟩ := ht.reached _ (syndromeOf_lt s v)
  exact ⟨e, he, BitVec.eq_of_toNat_eq hsyn, hw⟩

/-- No vector of the coset weighs less. -/
theorem leaderWeight_le {v e : Word} (he : IsVector s.nLen e)
    (hsyn : s.syndromeOf e = s.syndromeOf v) : s.leaderWeight v ≤ hammingWeight e := by
  rw [State.leaderWeight, ← hsyn]
  exact ht.least e he

theorem leaderWeight_eq_zero_of_syndromeOf {v : Word} (h : s.syndromeOf v = 0) :
    s.leaderWeight v = 0 := by
  have hzero : s.leaderWeight v ≤ hammingWeight 0 :=
    leaderWeight_le ht (isVector_zero _) ((syndromeOf_zero s).trans h.symm)
  rwa [(hammingWeight_eq_zero_iff 0).mpr rfl, Nat.le_zero] at hzero

/-- Item 4: only the zero vector has weight 0. -/
theorem syndromeOf_eq_zero_of_leaderWeight {v : Word} (h : s.leaderWeight v = 0) :
    s.syndromeOf v = 0 := by
  obtain ⟨e, _, hsyn, hw⟩ := exists_leader ht v
  rw [h, hammingWeight_eq_zero_iff] at hw
  rw [← hsyn, hw, syndromeOf_zero]

section
variable (hp : s.paramsLegal = true)
include hp

/-- Item 6: flipping one symbol of a leader gives a vector of the other coset. -/
theorem leaderWeight_flipBit_le (v : Word) {m : Nat} (hm : m < s.nLen) :
    s.leaderWeight (flipBit v m) ≤ s.leaderWeight v + 1 := by
  obtain ⟨_, _, _, hn, _⟩ := lengths_of_paramsLegal hp
  obtain ⟨e, he, hsyn, hw⟩ := exists_leader ht v
  rw [← hw]
  exact (leaderWeight_le ht (isVector_flipBit he hm) (syndromeOf_flipBit m hsyn)).trans
    (hammingWeight_flipBit_le e (hm.trans_le hn))

theorem leaderWeight_le_flipBit (v : Word) {m : Nat} (hm : m < s.nLen) :
    s.leaderWeight v ≤ s.leaderWeight (flipBit v m) + 1 := by
  have h := leaderWeight_flipBit_le ht hp (flipBit v m) hm
  rwa [flipBit_flipBit] at h

/-- Item 6: a symbol of a leader that is set is one whose flip lowers the weight. -/
theorem exists_flipBit_lowers {v : Word} (h : s.syndromeOf v ≠ 0) :
    ∃ m, m < s.nLen ∧ s.leaderWeight (flipBit v m) + 1 = s.leaderWeight v := by
  obtain ⟨e, he, hsyn, hw⟩ := exists_leader ht v
  have hne : e ≠ 0 := by
    rintro rfl
    exact h (hsyn.symm.trans (syndromeOf_zero s))
  obtain ⟨m, hm32, hset⟩ := exists_set_of_ne_zero hne
  have hm : m < s.nLen := by
    by_contra hge
    cases (getLsbD_eq_false_of_isVector he (not_lt.mp hge)).symm.trans hset
  have hflip := hammingWeight_flipBit_of_set hm32 hset
  have hle := leaderWeight_le ht (isVector_flipBit he hm) (syndromeOf_flipBit m hsyn)
  have hge := leaderWeight_le_flipBit ht hp v hm
  exact ⟨m, hm, by omega⟩

end

theorem read_zero_of_holdsTable : s.tmem.read 0 = { valid := true, weight := 0 } := by
  have hvalid := valid_zero_of_holdsTable ht
  have hweight := weight_zero_of_holdsTable ht
  generalize s.tmem.read 0 = e at hvalid hweight ⊢
  obtain ⟨valid, weight⟩ := e
  exact congrArg₂ Entry.mk hvalid hweight

end

/-- Settles O60: every property is read off a leader: flipping one of its symbols, or comparing it with
the zero vector or with the syndrome as a parity part. -/
theorem leaderWeightProperties : Obligations.LeaderWeightProperties := by
  intro s hc ht
  obtain ⟨_, hkn, _, hn, _⟩ := lengths_of_paramsLegal hc.legal
  have hr : s.kLen + s.rLen = s.nLen := Nat.add_sub_cancel' hkn
  have hread : ∀ x, IsVector s.rLen x →
      (s.tmem.read x.toNat).weight.toNat = s.leaderWeight (x <<< s.kLen) := by
    intro x hx
    rw [State.leaderWeight, syndromeOf_shiftLeft hc hx]
  refine ⟨read_zero_of_holdsTable ht, fun x hx hne => ?positive, fun x hx => ⟨?bound, ?length⟩,
    fun v _ hne => exists_flipBit_lowers ht hc.legal hne,
    fun v m _ hm => ⟨leaderWeight_flipBit_le ht hc.legal v hm, leaderWeight_le_flipBit ht hc.legal v hm⟩⟩
  case positive =>
    rw [hread x hx, Nat.one_le_iff_ne_zero]
    intro hzero
    exact hne ((syndromeOf_shiftLeft hc hx).symm.trans (syndromeOf_eq_zero_of_leaderWeight ht hzero))
  case bound =>
    rw [hread x hx, ← hammingWeight_shiftLeft (k := s.kLen) (len := s.rLen) (by omega) hx]
    exact leaderWeight_le ht (isVector_shiftLeft hc hx) rfl
  case length => exact hammingWeight_le_of_isVector (by omega) hx

end Sys2Proof.Machine
end

section
/-! The command `DEC` (43_codec.md R111, R112): one turn of its loop, what it leaves whatever `TMEM`
holds, and which leader it removes with the complete table. -/

namespace Sys2Proof.Machine

open Sys2Proof

/-! ### One turn of the loop -/

/-- The working registers after a turn that goes on: the cursor has moved by one. -/
def DecWork.next (b : DecWork) (w syndr : Word) (best : Weight) : DecWork where
  w := w
  s := syndr.setWidth 31
  best := best
  m := b.m + 1

section
variable {syn : Word → Word} {look : Word → Option Weight} (left : Nat) {b : DecWork}

theorem decLoop_zero (h : syn (flipBit b.w b.m.toNat) = 0) :
    decLoop syn look (left + 1) b = .zero (flipBit b.w b.m.toNat) :=
  if_pos h

theorem decLoop_miss (h : syn (flipBit b.w b.m.toNat) ≠ 0)
    (hl : look (syn (flipBit b.w b.m.toNat)) = none) : decLoop syn look (left + 1) b = .miss := by
  refine (if_neg h).trans ?_
  rw [hl]

/-- The flip lowers the weight and is kept. -/
theorem decLoop_keep {t : Weight} (h : syn (flipBit b.w b.m.toNat) ≠ 0)
    (hl : look (syn (flipBit b.w b.m.toNat)) = some t) (hlt : t < b.best) :
    decLoop syn look (left + 1) b = decLoop syn look left
      (b.next (flipBit b.w b.m.toNat) (syn (flipBit b.w b.m.toNat)) t) := by
  refine (if_neg h).trans ?_
  rw [hl]
  exact if_pos hlt

/-- The flip does not lower the weight and is undone. -/
theorem decLoop_skip {t : Weight} (h : syn (flipBit b.w b.m.toNat) ≠ 0)
    (hl : look (syn (flipBit b.w b.m.toNat)) = some t) (hlt : ¬ t < b.best) :
    decLoop syn look (left + 1) b = decLoop syn look left
      (b.next b.w (syn (flipBit b.w b.m.toNat)) b.best) := by
  refine (if_neg h).trans ?_
  rw [hl]
  refine (if_neg hlt).trans ?_
  rw [flipBit_flipBit, DecWork.next]

end

theorem cursor_succ {m : BitVec 6} (h : m.toNat < 32) : (m + 1).toNat = m.toNat + 1 := by
  bv_omega

/-! ### Whatever `TMEM` holds (R112 item 2) -/

/-- The loop answers a vector only where its syndrome is zero, and flips only positions below `n`. -/
theorem zero_of_decLoop {syn : Word → Word} {look : Word → Option Weight} {n : Nat} (hn : n ≤ 32)
    {v : Word} (left : Nat) (b : DecWork) (hm : b.m.toNat + left = n) (hw : IsVector n b.w)
    (h : decLoop syn look left b = .zero v) : syn v = 0 ∧ IsVector n v := by
  induction left generalizing b with
  | zero => cases h
  | succ left ih =>
    have hlt : b.m.toNat < n := by omega
    have hnext : (b.m + 1).toNat + left = n := by
      rw [cursor_succ (hlt.trans_le hn)]
      omega
    have hflip : IsVector n (flipBit b.w b.m.toNat) := isVector_flipBit hw hlt
    by_cases hz : syn (flipBit b.w b.m.toNat) = 0
    · rw [decLoop_zero left hz] at h
      cases h
      exact ⟨hz, hflip⟩
    cases hl : look (syn (flipBit b.w b.m.toNat)) with
    | none =>
      rw [decLoop_miss left hz hl] at h
      cases h
    | some t =>
      by_cases ht : t < b.best
      · rw [decLoop_keep left hz hl ht] at h
        exact ih (b.next _ _ _) hnext hflip h
      · rw [decLoop_skip left hz hl ht] at h
        exact ih (b.next _ _ _) hnext hw h

theorem decodeVector_of_syn_eq_zero {syn : Word → Word} (look : Word → Option Weight) (n : Nat)
    {v : Word} (h : syn v = 0) : decodeVector syn look n v = .zero v :=
  if_pos h

theorem decodeVector_of_miss {syn : Word → Word} {look : Word → Option Weight} (n : Nat) {v : Word}
    (h : syn v ≠ 0) (hl : look (syn v) = none) : decodeVector syn look n v = .miss := by
  refine (if_neg h).trans ?_
  rw [hl]

theorem decodeVector_of_loop {syn : Word → Word} {look : Word → Option Weight} (n : Nat) {v : Word}
    {t : Weight} (h : syn v ≠ 0) (hl : look (syn v) = some t) : decodeVector syn look n v =
      decLoop syn look n { w := v, s := (syn v).setWidth 31, best := t, m := 0 } := by
  refine (if_neg h).trans ?_
  rw [hl]

theorem zero_of_decodeVector {syn : Word → Word} {look : Word → Option Weight} {n : Nat} (hn : n ≤ 32)
    {v w : Word} (hv : IsVector n v) (h : decodeVector syn look n v = .zero w) :
    syn w = 0 ∧ IsVector n w := by
  by_cases hz : syn v = 0
  · rw [decodeVector_of_syn_eq_zero look n hz] at h
    cases h
    exact ⟨hz, hv⟩
  cases hl : look (syn v) with
  | none =>
    rw [decodeVector_of_miss n hz hl] at h
    cases h
  | some t =>
    rw [decodeVector_of_loop n hz hl] at h
    exact zero_of_decLoop hn n ⟨v, _, t, 0⟩ (Nat.zero_add n) hv h

section
variable {s t : State} (hf : s.status.fatal = false) (ht : s.status.tblv = true)
include hf ht

theorem ran_dec (h : exec .dec s = .next t) : Ran s t .dec :=
  ran_of_passesGate hf (.inr (.inr (.inr ⟨.inl rfl, ht⟩))) h

theorem exec_dec_body (hp : s.paramsLegal = true) : exec .dec s = .next (decBody s) := by
  rw [exec, execDec, Status.gateTable, ht]
  exact dispatchCoded_body _ hf hp

theorem exec_dec_ok (hp : s.paramsLegal = true) (hv : IsVector s.nLen s.vin) {v : Word}
    (hd : decodeVector s.syndromeOf (lookup s.tmem) s.nLen s.vin = .zero v) :
    exec .dec s = .next (State.complete { s.releaseDec with vout := v } .ok) := by
  rw [exec_dec_body hf ht hp]
  refine congrArg _ ((if_neg (not_not.mpr hv)).trans ?_)
  rw [hd]

end

/-- Settles O36: past its gate `DEC` refuses a stray `VIN`, or ends in one of the three ways of its
loop, of which one writes `VOUT`. -/
theorem decWritesOnlyItsResult : Obligations.DecWritesOnlyItsResult := by
  intro s t hf ht h
  cases ran_dec hf ht h with
  | dec _ _ hv _ heq =>
    subst t
    exact ⟨(absurd hv ·), fun _ => .inl rfl, rfl, rfl, rfl, ⟨rfl, rfl, rfl, rfl, rfl⟩, rfl,
      fun _ => rfl, rfl, rfl, rfl, rfl, rfl⟩
  | decMiss _ _ hv _ heq =>
    subst t
    exact ⟨(absurd hv ·), fun _ => .inr (.inl ⟨raise_status_of_fatal _ rfl, rfl⟩), rfl, rfl, rfl,
      ⟨rfl, rfl, rfl, rfl, rfl⟩, rfl, fun _ => rfl, rfl, rfl, rfl, rfl, rfl⟩
  | decNoconv _ _ hv _ heq =>
    subst t
    exact ⟨(absurd hv ·), fun _ => .inr (.inr ⟨raise_status_of_fatal _ rfl, rfl⟩), rfl, rfl, rfl,
      ⟨rfl, rfl, rfl, rfl, rfl⟩, rfl, fun _ => rfl, rfl, rfl, rfl, rfl, rfl⟩
  | decStray _ _ hv heq =>
    subst t
    exact ⟨fun _ => failsWith_of_exec_eq_raise rfl h, (absurd · hv), rfl, rfl, rfl,
      ⟨rfl, rfl, rfl, rfl, rfl⟩, rfl, fun _ => rfl, rfl, rfl, rfl, rfl, rfl⟩

/-- Settles O37: only the way that found a zero syndrome ends with `OK`. -/
theorem decReturnsCodeword : Obligations.DecReturnsCodeword := by
  intro s t hf ht h hok
  cases ran_dec hf ht h with
  | dec _ hp hv hd heq =>
    subst t
    obtain ⟨_, _, _, hn, _⟩ := lengths_of_paramsLegal hp
    exact zero_of_decodeVector hn hv hd
  | decMiss _ _ _ _ heq => subst t; cases hok
  | decNoconv _ _ _ _ heq => subst t; cases hok
  | decStray _ _ _ heq => subst t; cases hok

/-- Settles O38: the first test is for the zero syndrome, before any `Lookup`. -/
theorem decKeepsCodewords : Obligations.DecKeepsCodewords := by
  intro s hf ht hp hv hz
  exact ⟨_, exec_dec_ok hf ht hp hv (decodeVector_of_syn_eq_zero _ _ hz), rfl, rfl⟩

/-! ### With the complete table (R112) -/

/-- The positions of `v` below `m` and those of `w` from `m` on: what the flips of `v` below `m` make of
`w`. -/
def splice (m : Nat) (v w : Word) : Word := w ^^^ ((v ^^^ w) &&& mask m)

theorem getLsbD_splice {m i : Nat} (v w : Word) (hi : i < 32) :
    (splice m v w).getLsbD i = if i < m then v.getLsbD i else w.getLsbD i := by
  rw [splice, BitVec.getLsbD_xor, BitVec.getLsbD_and, BitVec.getLsbD_xor, getLsbD_mask,
    decide_eq_true hi, Bool.and_true, Bool.xor_comm (v.getLsbD i)]
  by_cases h : i < m <;> simp [h]

/-- `w` counts from `m` on only. -/
theorem splice_congr {m : Nat} (v : Word) {w w' : Word} (h : ∀ i, m ≤ i → w'.getLsbD i = w.getLsbD i) :
    splice m v w' = splice m v w := by
  refine word_ext fun i hi => ?_
  rw [getLsbD_splice v w' hi, getLsbD_splice v w hi]
  by_cases hm : i < m
  · rw [if_pos hm, if_pos hm]
  · rw [if_neg hm, if_neg hm, h i (not_lt.mp hm)]

theorem splice_self (m : Nat) (v : Word) : splice m v v = v := by
  simp [splice]

theorem splice_of_agree_below {m : Nat} {v w : Word} (h : ∀ i, i < m → v.getLsbD i = w.getLsbD i) :
    splice m v w = w := by
  refine word_ext fun i hi => ?_
  rw [getLsbD_splice v w hi]
  by_cases hm : i < m
  · rw [if_pos hm, h i hm]
  · rw [if_neg hm]

theorem getLsbD_flipBit_of_ne (v : Word) {m i : Nat} (h : i ≠ m) :
    (flipBit v m).getLsbD i = v.getLsbD i := by
  rw [getLsbD_flipBit, decide_eq_false h, Bool.false_and, Bool.xor_false]

theorem getLsbD_flipBit_same (v : Word) {m : Nat} (hm : m < 32) :
    (flipBit v m).getLsbD m = !v.getLsbD m := by
  rw [getLsbD_flipBit_of_lt v hm, decide_eq_true rfl, Bool.xor_true]

theorem flipBit_comm (v : Word) (m j : Nat) :
    flipBit (flipBit v m) j = flipBit (flipBit v j) m := by
  unfold flipBit
  ac_rfl

/-- What the loop makes of the vector `w` with its cursor at `m`: a codeword `v`, that differs from `w`
only at positions from `m` on, in as many as the leader weight, and in those whose flip lowers it. -/
structure DecodesFrom (s : State) (m : Nat) (w v : Word) : Prop where
  codeword : s.syndromeOf v = 0
  below : ∀ i, i < m → v.getLsbD i = w.getLsbD i
  above : ∀ i, s.nLen ≤ i → v.getLsbD i = w.getLsbD i
  weight : hammingWeight (v ^^^ w) = s.leaderWeight w
  scan : ∀ j, m ≤ j → j < s.nLen → ((v ^^^ w).getLsbD j = true ↔
    s.leaderWeight (flipBit (splice j v w) j) < s.leaderWeight (splice j v w))

section
variable {s : State} (ht : HoldsTable s)
include ht

theorem not_lt_leaderWeight_of_codeword {v : Word} (h : s.syndromeOf v = 0) (x : Nat) :
    ¬ x < s.leaderWeight v := by
  rw [leaderWeight_eq_zero_of_syndromeOf ht h]
  exact Nat.not_lt_zero x

/-- With the complete table no `Lookup` misses. -/
theorem lookup_of_holdsTable (v : Word) :
    ∃ t, lookup s.tmem (s.syndromeOf v) = some t ∧ t.toNat = s.leaderWeight v :=
  ⟨_, if_pos (ht.seen _ (syndromeOf_lt s v)), rfl⟩

/-- A codeword is left as it is. -/
theorem decodesFrom_codeword (m : Nat) {v : Word} (h : s.syndromeOf v = 0) : DecodesFrom s m v v where
  codeword := h
  below := fun _ _ => rfl
  above := fun _ _ => rfl
  weight := by
    rw [BitVec.xor_self, leaderWeight_eq_zero_of_syndromeOf ht h]
    exact (hammingWeight_eq_zero_iff 0).mpr rfl
  scan := fun j _ _ => by
    rw [splice_self, BitVec.xor_self]
    exact iff_of_false (by simp) (not_lt_leaderWeight_of_codeword ht h _)

variable (hp : s.paramsLegal = true)
include hp

/-- A flip that lowers the weight is kept: it removes one symbol of the leader. -/
theorem decodesFrom_keep {m : Nat} {w v : Word} (hm : m < s.nLen)
    (hlt : s.leaderWeight (flipBit w m) < s.leaderWeight w)
    (h : DecodesFrom s (m + 1) (flipBit w m) v) : DecodesFrom s m w v := by
  obtain ⟨_, _, _, hn, _⟩ := lengths_of_paramsLegal hp
  have hm32 : m < 32 := hm.trans_le hn
  have hvm : v.getLsbD m = !w.getLsbD m :=
    (h.below m (Nat.lt_succ_self m)).trans (getLsbD_flipBit_same w hm32)
  have hbelow : ∀ i, i < m → v.getLsbD i = w.getLsbD i := fun i hi =>
    (h.below i (Nat.lt_succ_of_lt hi)).trans (getLsbD_flipBit_of_ne w hi.ne)
  refine ⟨h.codeword, hbelow, fun i hi => ?above, ?weight, fun j hj hjn => ?scan⟩
  case above => exact (h.above i hi).trans (getLsbD_flipBit_of_ne w (hm.trans_le hi).ne')
  case weight =>
    have hflip : v ^^^ w = flipBit (v ^^^ flipBit w m) m := by
      rw [flipBit, flipBit, BitVec.xor_assoc, BitVec.xor_assoc, BitVec.xor_self, BitVec.xor_zero]
    have hclear : (v ^^^ flipBit w m).getLsbD m = false := by
      rw [BitVec.getLsbD_xor, hvm, getLsbD_flipBit_same w hm32, Bool.xor_self]
    have hge := leaderWeight_le_flipBit ht hp w hm
    rw [hflip, hammingWeight_flipBit_of_clear hm32 hclear, h.weight]
    omega
  case scan =>
    rcases Nat.eq_or_lt_of_le hj with rfl | hj
    · rw [splice_of_agree_below hbelow, BitVec.getLsbD_xor, hvm]
      exact iff_of_true (by simp) hlt
    · have hsame : splice j v (flipBit w m) = splice j v w :=
        splice_congr v fun i hi => getLsbD_flipBit_of_ne w (hj.trans_le hi).ne'
      have hscan := h.scan j hj hjn
      rwa [hsame, BitVec.getLsbD_xor, getLsbD_flipBit_of_ne w hj.ne', ← BitVec.getLsbD_xor] at hscan

/-- A flip that finds a codeword lowers the weight. -/
theorem decodesFrom_zero {m : Nat} {w : Word} (hm : m < s.nLen) (hw : s.syndromeOf w ≠ 0)
    (hz : s.syndromeOf (flipBit w m) = 0) : DecodesFrom s m w (flipBit w m) := by
  refine decodesFrom_keep ht hp hm ?_ (decodesFrom_codeword ht (m + 1) hz)
  rw [leaderWeight_eq_zero_of_syndromeOf ht hz, Nat.pos_iff_ne_zero]
  exact fun h => hw (syndromeOf_eq_zero_of_leaderWeight ht h)

omit ht hp in
/-- A flip that does not lower the weight is undone. -/
theorem decodesFrom_skip {m : Nat} {w v : Word}
    (hlt : ¬ s.leaderWeight (flipBit w m) < s.leaderWeight w) (h : DecodesFrom s (m + 1) w v) :
    DecodesFrom s m w v := by
  have hbelow : ∀ i, i < m → v.getLsbD i = w.getLsbD i := fun i hi => h.below i (Nat.lt_succ_of_lt hi)
  refine ⟨h.codeword, hbelow, h.above, h.weight, fun j hj hjn => ?_⟩
  rcases Nat.eq_or_lt_of_le hj with rfl | hj
  · rw [splice_of_agree_below hbelow, BitVec.getLsbD_xor, h.below m (Nat.lt_succ_self m)]
    exact iff_of_false (by simp) hlt
  · exact h.scan j hj hjn

/-- No position the cursor has passed can lower the weight (R112 item 1): once the flip at `m` is tried,
none at or below `m` can, because a flip changes no leader weight by more than 1. -/
theorem passed_of_keep {m : Nat} {w : Word} (hm : m < s.nLen)
    (hlt : s.leaderWeight (flipBit w m) < s.leaderWeight w)
    (h : ∀ j, j < m → s.leaderWeight w ≤ s.leaderWeight (flipBit w j)) {j : Nat} (hj : j < m + 1) :
    s.leaderWeight (flipBit w m) ≤ s.leaderWeight (flipBit (flipBit w m) j) := by
  rcases Nat.eq_or_lt_of_le (Nat.le_of_lt_succ hj) with rfl | hj
  · rw [flipBit_flipBit]
    exact hlt.le
  · have hpassed := h j hj
    have hge := leaderWeight_le_flipBit ht hp (flipBit w j) hm
    rw [flipBit_comm]
    omega

/-- The loop decodes: it cannot run off the vector, since then no flip at all would lower the weight of
a vector that is no codeword. -/
theorem decLoop_decodes (left : Nat) (b : DecWork) (hm : b.m.toNat + left = s.nLen)
    (hne : s.syndromeOf b.w ≠ 0) (hbest : b.best.toNat = s.leaderWeight b.w)
    (hpassed : ∀ j, j < b.m.toNat → s.leaderWeight b.w ≤ s.leaderWeight (flipBit b.w j)) :
    ∃ v, decLoop s.syndromeOf (lookup s.tmem) left b = .zero v ∧
      DecodesFrom s b.m.toNat b.w v := by
  obtain ⟨_, _, _, hn, _⟩ := lengths_of_paramsLegal hp
  induction left generalizing b with
  | zero =>
    obtain ⟨j, hj, hlow⟩ := exists_flipBit_lowers ht hp hne
    have := hpassed j (by omega)
    omega
  | succ left ih =>
    have hlt : b.m.toNat < s.nLen := by omega
    have hcur : (b.m + 1).toNat = b.m.toNat + 1 := cursor_succ (hlt.trans_le hn)
    have hnext : (b.m + 1).toNat + left = s.nLen := by omega
    by_cases hz : s.syndromeOf (flipBit b.w b.m.toNat) = 0
    · exact ⟨_, decLoop_zero left hz, decodesFrom_zero ht hp hlt hne hz⟩
    obtain ⟨t, hl, hw⟩ := lookup_of_holdsTable ht (flipBit b.w b.m.toNat)
    have hbetter : t < b.best ↔
        s.leaderWeight (flipBit b.w b.m.toNat) < s.leaderWeight b.w := by
      rw [BitVec.lt_def, hw, hbest]
    by_cases hlow : t < b.best
    · have hkept := hbetter.mp hlow
      rw [decLoop_keep left hz hl hlow]
      obtain ⟨v, hv, hd⟩ := ih (b.next _ _ t) hnext hz hw fun j hj =>
        passed_of_keep ht hp hlt hkept hpassed (hj.trans_eq hcur)
      rw [DecWork.next, hcur] at hd
      exact ⟨v, hv, decodesFrom_keep ht hp hlt hkept hd⟩
    · have hundone := mt hbetter.mpr hlow
      rw [decLoop_skip left hz hl hlow]
      obtain ⟨v, hv, hd⟩ := ih (b.next b.w _ b.best) hnext hne hbest fun j hj => by
        rcases Nat.eq_or_lt_of_le (Nat.le_of_lt_succ (hj.trans_eq hcur)) with rfl | hj
        · exact not_lt.mp hundone
        · exact hpassed j hj
      rw [DecWork.next, hcur] at hd
      exact ⟨v, hv, decodesFrom_skip hundone hd⟩

theorem decodeVector_decodes (w : Word) :
    ∃ v, decodeVector s.syndromeOf (lookup s.tmem) s.nLen w = .zero v ∧ DecodesFrom s 0 w v := by
  by_cases hz : s.syndromeOf w = 0
  · exact ⟨w, decodeVector_of_syn_eq_zero _ _ hz, decodesFrom_codeword ht 0 hz⟩
  · obtain ⟨t, hl, hw⟩ := lookup_of_holdsTable ht w
    rw [decodeVector_of_loop _ hz hl]
    exact decLoop_decodes ht hp s.nLen ⟨w, _, t, 0⟩ (Nat.zero_add _) hz hw fun j hj =>
      absurd hj (Nat.not_lt_zero j)

end

/-- With the complete table `DEC` ends `OK` with the decoded vector. -/
theorem exec_dec_decodes {s : State} (hf : s.status.fatal = false) (hb : s.status.tblv = true)
    (hp : s.paramsLegal = true) (ht : HoldsTable s) (hv : IsVector s.nLen s.vin) :
    ∃ v, exec .dec s = .next (State.complete { s.releaseDec with vout := v } .ok) ∧
      DecodesFrom s 0 s.vin v ∧ IsVector s.nLen v := by
  obtain ⟨_, _, _, hn, _⟩ := lengths_of_paramsLegal hp
  obtain ⟨v, hd, hdec⟩ := decodeVector_decodes ht hp s.vin
  exact ⟨v, exec_dec_ok hf hb hp hv hd, hdec, (zero_of_decodeVector hn hv hd).2⟩

/-- Settles O39: the decoded vector is a codeword at the distance of the leader weight. -/
theorem decCorrectsMinimumWeight : Obligations.DecCorrectsMinimumWeight := by
  intro s hf hb hc ht hv
  obtain ⟨v, hexec, hd, hvec⟩ := exec_dec_decodes hf hb hc.legal ht hv
  exact ⟨_, hexec, rfl, hd.codeword, hvec, hd.weight, rfl, rfl, rfl, ⟨rfl, rfl, rfl, rfl, rfl⟩, rfl,
    fun _ => rfl, rfl, rfl, rfl, rfl, rfl⟩

/-- Settles O40: position by position, what the loop did at that position. -/
theorem decScansForward : Obligations.DecScansForward := by
  intro s t hf hb hc ht hv h
  obtain ⟨v, hexec, hd, _⟩ := exec_dec_decodes hf hb hc.legal ht hv
  have hvout : t.vout = v := by
    rw [hexec] at h
    cases h
    rfl
  rw [hvout]
  refine ⟨fun m hm => ?above, fun m w hm hw => ?scan⟩
  case above => rw [BitVec.getLsbD_xor, hd.above m hm, Bool.xor_self]
  case scan =>
    rw [hw]
    exact hd.scan m (Nat.zero_le m) hm

/-- Settles O41: what `DEC` removes has the syndrome of `e` and weighs no more, so it is `e`. -/
theorem decCorrectsUniqueLeaders : Obligations.DecCorrectsUniqueLeaders := by
  intro s c e hf hb hc ht hcv hev hcz hvin hunique
  have hv : IsVector s.nLen s.vin := hvin ▸ isVector_xor hcv hev
  obtain ⟨v, hexec, hd, hvec⟩ := exec_dec_decodes hf hb hc.legal ht hv
  have hsyn : s.syndromeOf s.vin = s.syndromeOf e := by
    rw [hvin, syndromeOf_xor, hcz]
    exact BitVec.zero_xor
  have hremoved : v ^^^ s.vin = e := by
    refine hunique _ (isVector_xor hvec hv) ?_ ?_
    · rw [syndromeOf_xor, hd.codeword, hsyn]
      exact BitVec.zero_xor
    · rw [hd.weight]
      exact leaderWeight_le ht hev hsyn.symm
  have hvc : v = c := by
    rw [hvin, ← BitVec.xor_assoc] at hremoved
    exact BitVec.xor_eq_zero_iff.mp ((BitVec.xor_left_inj e).mp (hremoved.trans BitVec.zero_xor.symm))
  exact ⟨_, hexec, rfl, hvc⟩

end Sys2Proof.Machine
end

section
/-! The enumeration of `BUILD` (42_coset_leader_table.md R100 to R102): the loop with the explicit stack
records what the recursive form records. -/

namespace Sys2Proof.Machine

open Sys2Proof

/-! ### The loop with the explicit stack -/

/-- How many turns the loop takes to try `left` more positions and come back: each position one
extension, one backtrack, and the tries above it twice. -/
def turnsFor : Nat → Nat
  | 0 => 0
  | left + 1 => 1 + turnsFor left + (1 + turnsFor left)

theorem turnsFor_add_two (left : Nat) : turnsFor left + 2 = 2 ^ (left + 1) := by
  induction left with
  | zero => rfl
  | succ left ih =>
    rw [turnsFor, Nat.pow_succ]
    omega

theorem buildLoop_of_turn {syn : Word → Word} {n : Nat} {b b' : BuildWork} {m m' : TMem}
    (h : buildTurn syn n b m = some (b', m')) (fuel : Nat) :
    buildLoop syn n (fuel + 1) b m = buildLoop syn n fuel b' m' := by
  rw [buildLoop, h]

theorem buildLoop_leave {syn : Word → Word} {n : Nat} {b : BuildWork} {m : TMem}
    (h : buildTurn syn n b m = none) (fuel : Nat) : buildLoop syn n (fuel + 1) b m = (b, m) := by
  rw [buildLoop, h]

/-- The stacks agree below `depth`. -/
def AgreeBelow (depth : Nat) (pos pos' : Vector Position 32) : Prop :=
  ∀ i, i < depth → pos'[i]? = pos[i]?

/-- `w` set at a clear position and cleared again. -/
theorem clear_set_eq {v : Word} {p : Nat} (h : v.getLsbD p = false) :
    (v ||| 1#32 <<< p) &&& ~~~(1#32 <<< p) = v := by
  refine word_ext fun i hi => ?_
  simp only [BitVec.getLsbD_and, BitVec.getLsbD_or, BitVec.getLsbD_not, getLsbD_one_shiftLeft, hi,
    decide_true, Bool.true_and, Bool.and_true]
  by_cases hp : i = p
  · subst hp
    simp [h]
  · simp [hp]

/-- The working registers of `BUILD` while position `p` is tried: `v` has no symbol at or above `p`, so
that clearing the position last set gives back the vector before, and its weight fits its width. -/
structure Trying (n p : Nat) (b : BuildWork) : Prop where
  cursor : b.p.toNat = p
  bound : p ≤ n
  clear : ∀ i, p ≤ i → b.v.getLsbD i = false
  depth_le : b.depth.toNat ≤ p

/-- The registers once all positions from `p` on have been tried. -/
def BuildWork.tried (b : BuildWork) (n : Nat) (pos : Vector Position 32) (cnt : Word) : BuildWork :=
  { b with pos := pos, p := BitVec.ofNat 6 n, cnt := cnt }

/-- The registers after the extension with the current position. -/
def BuildWork.extended (b : BuildWork) (cnt : Word) : BuildWork where
  v := b.v ||| (1#32 <<< b.p.toNat)
  depth := b.depth + 1
  pos := b.pos.setIfInBounds b.depth.toNat (b.p.setWidth 5)
  p := b.p + 1
  cnt := cnt

/-- The registers with the cursor moved past a position that is not taken. -/
def BuildWork.passed (b : BuildWork) (pos : Vector Position 32) (cnt : Word) : BuildWork :=
  { b with pos := pos, p := b.p + 1, cnt := cnt }

section
variable {syn : Word → Word} {n p : Nat} {b : BuildWork} (hn : n ≤ 32) (hp : p < n)
  (h : Trying n p b)
include hn hp h

theorem cursor_next : (b.p + 1).toNat = p + 1 := by
  have hcur := h.cursor
  bv_omega

theorem depth_next : (b.depth + 1).toNat = b.depth.toNat + 1 := by
  have hd := h.depth_le
  bv_omega

theorem trying_extended (cnt : Word) : Trying n (p + 1) (b.extended cnt) where
  cursor := cursor_next hn hp h
  bound := hp
  clear := by
    intro i hi
    show (b.v ||| 1#32 <<< b.p.toNat).getLsbD i = false
    rw [BitVec.getLsbD_or, h.clear i (by omega), getLsbD_one_shiftLeft, h.cursor,
      decide_eq_false (show i ≠ p by omega)]
    rfl
  depth_le := by
    show (b.depth + 1).toNat ≤ p + 1
    rw [depth_next hn hp h]
    exact Nat.succ_le_succ h.depth_le

theorem trying_passed (pos : Vector Position 32) (cnt : Word) : Trying n (p + 1) (b.passed pos cnt) where
  cursor := cursor_next hn hp h
  bound := hp
  clear := fun i hi => h.clear i (by omega)
  depth_le := h.depth_le.trans (Nat.le_succ p)

/-- The turn after everything above an extension has been tried takes the extension back. -/
theorem buildTurn_back {pos : Vector Position 32} (cnt0 cnt : Word) (m : TMem)
    (hpos : AgreeBelow (b.depth.toNat + 1) (b.extended cnt0).pos pos) :
    buildTurn syn n ((b.extended cnt0).tried n pos cnt) m = some (b.passed pos cnt, m) := by
  have hcur := h.cursor
  have hdle := h.depth_le
  have hnot : ¬ (BitVec.ofNat 6 n).toNat < n := by
    rw [BitVec.toNat_ofNat, Nat.mod_eq_of_lt (by omega)]
    exact lt_irrefl n
  have hd0 : b.depth + 1 ≠ 0 := by bv_omega
  have hback : b.depth + 1 - 1 = b.depth := by bv_omega
  have htop : (pos[b.depth.toNat]?).getD 0 = b.p.setWidth 5 := by
    rw [hpos _ (Nat.lt_succ_self _)]
    show ((b.pos.setIfInBounds b.depth.toNat (b.p.setWidth 5))[b.depth.toNat]?).getD 0 = _
    simp [show b.depth.toNat < 32 by omega]
  have hq : (b.p.setWidth 5).toNat = b.p.toNat := by bv_omega
  have hwide : (b.p.setWidth 5).setWidth 6 = b.p := by bv_omega
  rw [buildTurn_backtrack syn m hnot hd0]
  simp only [BuildWork.tried, BuildWork.extended, hback, htop, hq, hwide, BuildWork.passed]
  rw [clear_set_eq (h.clear _ hcur.ge)]

end

/-- One position of the recursive form: the vectors that have it, then those that do not. -/
theorem extendForm_succ (syn : Word → Word) (n left : Nat) (v : Word) (w : Weight) (acc : TMem × Word) :
    extendForm syn n (left + 1) v w acc =
      extendForm syn n left v w
        (extendForm syn n left (v ||| 1#32 <<< (n - (left + 1))) (w + 1)
          (record syn (v ||| 1#32 <<< (n - (left + 1))) (w + 1) acc.1 acc.2)) := rfl

theorem agreeBelow_setIfInBounds (depth : Nat) (pos : Vector Position 32) (q : Position) :
    AgreeBelow depth pos (pos.setIfInBounds depth q) := by
  intro i hi
  rw [Vector.getElem?_setIfInBounds, if_neg hi.ne']

/-- The loop tries the positions that are left as the recursive form does, and comes back with the
vector, the depth and the stack below it as they were. -/
theorem buildLoop_eq_extendForm {syn : Word → Word} {n : Nat} (hn : n ≤ 32) (left : Nat)
    (b : BuildWork) (m : TMem) (h : Trying n (n - left) b) (hleft : left ≤ n) :
    ∃ pos, AgreeBelow b.depth.toNat b.pos pos ∧ ∀ fuel,
      buildLoop syn n (turnsFor left + fuel) b m =
        buildLoop syn n fuel
          (b.tried n pos (extendForm syn n left b.v b.depth (m, b.cnt)).2)
          (extendForm syn n left b.v b.depth (m, b.cnt)).1 := by
  induction left generalizing b m with
  | zero =>
    have hp : b.p = BitVec.ofNat 6 n := by
      have hcur := h.cursor
      bv_omega
    refine ⟨b.pos, fun _ _ => rfl, fun fuel => ?_⟩
    rw [turnsFor, Nat.zero_add, extendForm, BuildWork.tried, ← hp]
  | succ left ih =>
    have hcur := h.cursor
    have hlt : n - (left + 1) < n := by omega
    have hsucc : n - (left + 1) + 1 = n - left := by omega
    -- the extension, and what is above it
    obtain ⟨m1, cnt1, hrec⟩ : ∃ m1 cnt1,
        record syn (b.v ||| 1#32 <<< (n - (left + 1))) (b.depth + 1) m b.cnt = (m1, cnt1) := ⟨_, _, rfl⟩
    have hturn : buildTurn syn n b m = some (b.extended cnt1, m1) := by
      rw [buildTurn_extend syn m (hcur.trans_lt hlt), BuildWork.extended, hcur, hrec]
    obtain ⟨pos1, hpos1, hloop1⟩ := ih (b.extended cnt1) m1
      (hsucc ▸ trying_extended hn hlt h cnt1) (by omega)
    obtain ⟨m2, cnt2, hext1⟩ : ∃ m2 cnt2, extendForm syn n left (b.extended cnt1).v
        (b.extended cnt1).depth (m1, (b.extended cnt1).cnt) = (m2, cnt2) := ⟨_, _, rfl⟩
    -- the backtrack, and what leaves the position out
    have hagree : AgreeBelow (b.depth.toNat + 1) (b.extended cnt1).pos pos1 := by
      rw [← depth_next hn hlt h]
      exact hpos1
    have hback : buildTurn syn n ((b.extended cnt1).tried n pos1 cnt2) m2 =
        some (b.passed pos1 cnt2, m2) := buildTurn_back hn hlt h cnt1 cnt2 m2 hagree
    obtain ⟨pos2, hpos2, hloop2⟩ := ih (b.passed pos1 cnt2) m2
      (hsucc ▸ trying_passed hn hlt h pos1 cnt2) (by omega)
    have hform : extendForm syn n (left + 1) b.v b.depth (m, b.cnt) =
        extendForm syn n left b.v b.depth (m2, cnt2) := by
      rw [BuildWork.extended, hcur] at hext1
      rw [extendForm_succ, hrec, hext1]
    refine ⟨pos2, fun i hi => ?stack, fun fuel => ?loop⟩
    case stack =>
      rw [hpos2 i hi]
      exact (hagree i (Nat.lt_succ_of_lt hi)).trans (agreeBelow_setIfInBounds _ _ _ i hi)
    case loop =>
      have hfuel : turnsFor (left + 1) + fuel =
          turnsFor left + (turnsFor left + fuel + 1) + 1 := by
        rw [turnsFor]
        omega
      rw [hfuel, buildLoop_of_turn hturn, hloop1, hext1, buildLoop_of_turn hback, hloop2, hform]
      rfl

theorem trying_buildStart (n : Nat) (cnt : Word) : Trying n (n - n) (buildStart cnt) where
  cursor := by simp [buildStart]
  bound := Nat.sub_le n n
  clear := fun _ _ => BitVec.getLsbD_zero
  depth_le := Nat.zero_le _

/-- Settles O59: the loop comes back to depth 0 within its bound, and leaves there. -/
theorem enumerationMatchesRecursion : Obligations.EnumerationMatchesRecursion := by
  intro syn n m cnt hn
  obtain ⟨pos, _, hloop⟩ := buildLoop_eq_extendForm (syn := syn) hn n (buildStart cnt) m
    (trying_buildStart n cnt) (le_refl n)
  have hnot : ¬ (BitVec.ofNat 6 n).toNat < n := by
    rw [BitVec.toNat_ofNat, Nat.mod_eq_of_lt (by omega)]
    exact lt_irrefl n
  rw [← turnsFor_add_two, hloop 2, buildLoop_leave (buildTurn_leave syn _ hnot rfl)]
  rfl

end Sys2Proof.Machine
end

section
/-! The command `BUILD` (42_coset_leader_table.md R100 to R105): what the recursive form records, vector
by vector, and the table it publishes. -/

namespace Sys2Proof.Machine

open Sys2Proof

/-! ### What `Record` keeps (R101) -/

/-- The addresses below `R` whose entry is valid. -/
def TMem.validSet (m : TMem) (R : Nat) : Finset Nat :=
  (Finset.range R).filter fun x => (m.read x).valid = true

theorem mem_validSet {m : TMem} {R x : Nat} : x ∈ m.validSet R ↔ x < R ∧ (m.read x).valid = true := by
  rw [TMem.validSet, Finset.mem_filter, Finset.mem_range]

theorem validSet_write (m : TMem) {R i : Nat} (hi : i < R) (w : Weight) :
    (m.write i ⟨true, w⟩).validSet R = insert i (m.validSet R) := by
  ext x
  rw [Finset.mem_insert, mem_validSet, mem_validSet, read_write]
  by_cases hx : x = i <;> simp [hx, hi]

/-- The table `m` records the vectors of `S`: the entries below `R` that are valid are the syndromes of
vectors of `S`, each with the least weight among those that have it, and `cnt` counts them. -/
structure Records (syn : Word → Word) (R : Nat) (S : Word → Prop) (m : TMem) (cnt : Word) : Prop where
  reached : ∀ x, x < R → (m.read x).valid = true →
    ∃ v, S v ∧ (syn v).toNat = x ∧ hammingWeight v = (m.read x).weight.toNat
  seen : ∀ v, S v → (m.read (syn v).toNat).valid = true
  least : ∀ v, S v → (m.read (syn v).toNat).weight.toNat ≤ hammingWeight v
  count : cnt = BitVec.ofNat 32 (m.validSet R).card

theorem records_congr {syn : Word → Word} {R : Nat} {S S' : Word → Prop} {m : TMem} {cnt : Word}
    (hS : ∀ v, S v ↔ S' v) (h : Records syn R S m cnt) : Records syn R S' m cnt :=
  (funext fun v => propext (hS v) : S = S') ▸ h

section
variable {syn : Word → Word} {R : Nat} {S : Word → Prop} {m : TMem} {cnt : Word} {v : Word} {w : Weight}
  (h : Records syn R S m cnt) (hw : w.toNat = hammingWeight v)
include h hw

/-- An entry that is written with the weight of `v`, if it held none that is smaller. -/
theorem records_write (cnt' : Word)
    (hold : (m.read (syn v).toNat).valid = true → w.toNat ≤ (m.read (syn v).toNat).weight.toNat)
    (hcnt : cnt' = BitVec.ofNat 32 ((m.write (syn v).toNat ⟨true, w⟩).validSet R).card) :
    Records syn R (fun u => S u ∨ u = v) (m.write (syn v).toNat ⟨true, w⟩) cnt' := by
  refine ⟨fun x hx hval => ?reached, fun u hu => ?seen, fun u hu => ?least, hcnt⟩
  case reached =>
    by_cases hxi : x = (syn v).toNat
    · exact ⟨v, .inr rfl, hxi.symm, by rw [read_write, if_pos hxi, hw]⟩
    · rw [read_write, if_neg hxi] at hval ⊢
      obtain ⟨u, hu, hsyn, hwu⟩ := h.reached x hx hval
      exact ⟨u, .inl hu, hsyn, hwu⟩
  case seen =>
    by_cases hi : (syn u).toNat = (syn v).toNat
    · rw [read_write, if_pos hi]
    · rw [read_write, if_neg hi]
      exact h.seen u (hu.resolve_right fun huv => hi (by rw [huv]))
  case least =>
    by_cases hi : (syn u).toNat = (syn v).toNat
    · rw [read_write, if_pos hi]
      rcases hu with hu | rfl
      · exact (hold (hi ▸ h.seen u hu)).trans (hi ▸ h.least u hu)
      · exact hw.le
    · rw [read_write, if_neg hi]
      exact h.least u (hu.resolve_right fun huv => hi (by rw [huv]))

/-- A `Record` adds one vector to those the table records. -/
theorem records_record (hR : (syn v).toNat < R) :
    Records syn R (fun u => S u ∨ u = v) (record syn v w m cnt).1 (record syn v w m cnt).2 := by
  rcases record_cases syn v w m cnt with ⟨hval, hr⟩ | ⟨hval, hlt, hr⟩ | ⟨hval, hge, hr⟩ <;> rw [hr]
  · have hnew : (syn v).toNat ∉ m.validSet R := by
      rw [mem_validSet, hval]
      exact fun hmem => by cases hmem.2
    refine records_write h hw _ (fun hval' => by cases hval.symm.trans hval') ?_
    rw [validSet_write m hR, Finset.card_insert_of_notMem hnew, BitVec.ofNat_add, ← h.count]
    rfl
  · refine records_write h hw _ (fun _ => hlt.le) ?_
    rw [validSet_write m hR, Finset.insert_eq_of_mem (mem_validSet.mpr ⟨hR, hval⟩)]
    exact h.count
  · refine ⟨fun x hx hx' => ?_, fun u hu => ?_, fun u hu => ?_, h.count⟩
    · obtain ⟨u, hu, hsyn, hwu⟩ := h.reached x hx hx'
      exact ⟨u, .inl hu, hsyn, hwu⟩
    · rcases hu with hu | rfl
      · exact h.seen u hu
      · exact hval
    · rcases hu with hu | rfl
      · exact h.least u hu
      · exact hw ▸ not_lt.mp hge

end

/-! ### What `Extend` enumerates (R102) -/

/-- The proper extensions of `v`: the other vectors of length `n` that agree with it below `p`. -/
def Extension (n p : Nat) (v u : Word) : Prop :=
  IsVector n u ∧ u ≠ v ∧ ∀ i, i < p → u.getLsbD i = v.getLsbD i

theorem or_one_shiftLeft_eq_flipBit {v : Word} {p : Nat} (h : v.getLsbD p = false) :
    v ||| 1#32 <<< p = flipBit v p := by
  refine word_ext fun i hi => ?_
  rw [BitVec.getLsbD_or, getLsbD_one_shiftLeft, getLsbD_flipBit, decide_eq_true hi, Bool.and_true]
  by_cases hp : i = p
  · subst hp
    simp [h]
  · simp [hp]

theorem not_extension_of_full {n : Nat} {v u : Word} (hv : IsVector n v) : ¬ Extension n n v u := by
  rintro ⟨hu, hne, hagree⟩
  refine hne (word_ext fun i _ => ?_)
  by_cases hi : i < n
  · exact hagree i hi
  · rw [getLsbD_eq_false_of_isVector hu (not_lt.mp hi), getLsbD_eq_false_of_isVector hv (not_lt.mp hi)]

/-- An extension takes position `p` or leaves it out. -/
theorem extension_iff {n p : Nat} (hn : n ≤ 32) (hp : p < n) {v : Word} (hv : IsVector p v) (u : Word) :
    Extension n p v u ↔
      (u = flipBit v p ∨ Extension n (p + 1) (flipBit v p) u) ∨ Extension n (p + 1) v u := by
  have hp32 : p < 32 := hp.trans_le hn
  have hclear : v.getLsbD p = false := getLsbD_eq_false_of_isVector hv (le_refl p)
  have htaken : (flipBit v p).getLsbD p = true := by rw [getLsbD_flipBit_same v hp32, hclear]; rfl
  have hvn : IsVector n v := by
    refine (strayBits_eq_zero_iff _ _).mpr fun i hi => getLsbD_eq_false_of_isVector hv (hp.le.trans hi)
  have hbelow : ∀ i, i < p → (flipBit v p).getLsbD i = v.getLsbD i := fun i hi =>
    getLsbD_flipBit_of_ne v hi.ne
  have hne_of_taken : ∀ u : Word, u.getLsbD p = true → u ≠ v := by
    rintro u hset rfl
    cases hclear.symm.trans hset
  constructor
  · rintro ⟨hu, hne, hagree⟩
    cases hbit : u.getLsbD p with
    | true =>
      refine .inl (or_iff_not_imp_left.mpr fun hne2 => ⟨hu, hne2, fun i hi => ?_⟩)
      rcases Nat.eq_or_lt_of_le (Nat.le_of_lt_succ hi) with rfl | hi
      · rw [hbit, htaken]
      · rw [hagree i hi, hbelow i hi]
    | false =>
      refine .inr ⟨hu, hne, fun i hi => ?_⟩
      rcases Nat.eq_or_lt_of_le (Nat.le_of_lt_succ hi) with rfl | hi
      · rw [hbit, hclear]
      · exact hagree i hi
  · rintro ((rfl | ⟨hu, hne, hagree⟩) | ⟨hu, hne, hagree⟩)
    · exact ⟨isVector_flipBit hvn hp, hne_of_taken _ htaken, hbelow⟩
    · refine ⟨hu, hne_of_taken u ?_, fun i hi => ?_⟩
      · rw [hagree p (Nat.lt_succ_self p), htaken]
      · rw [hagree i (Nat.lt_succ_of_lt hi), hbelow i hi]
    · exact ⟨hu, hne, fun i hi => hagree i (Nat.lt_succ_of_lt hi)⟩

/-- The recursive form records every proper extension of its vector. -/
theorem records_extendForm {syn : Word → Word} {R n : Nat} (hn : n ≤ 32) (hR : ∀ v, (syn v).toNat < R)
    (left : Nat) (hleft : left ≤ n) {v : Word} {w : Weight} {S : Word → Prop} {acc : TMem × Word}
    (hv : IsVector (n - left) v) (hw : w.toNat = hammingWeight v)
    (h : Records syn R S acc.1 acc.2) :
    Records syn R (fun u => S u ∨ Extension n (n - left) v u)
      (extendForm syn n left v w acc).1 (extendForm syn n left v w acc).2 := by
  induction left generalizing v w S acc with
  | zero => exact records_congr (fun u => (or_iff_left (not_extension_of_full hv)).symm) h
  | succ left ih =>
    have hp : n - (left + 1) < n := by omega
    have hp32 : n - (left + 1) < 32 := hp.trans_le hn
    have hsucc : n - left = n - (left + 1) + 1 := by omega
    have hclear : v.getLsbD (n - (left + 1)) = false := getLsbD_eq_false_of_isVector hv (le_refl _)
    have hv1 : IsVector (n - left) v := (strayBits_eq_zero_iff _ _).mpr fun i hi =>
      getLsbD_eq_false_of_isVector hv (by omega)
    have hw2 : (w + 1).toNat = hammingWeight (flipBit v (n - (left + 1))) := by
      have hle : hammingWeight v ≤ 32 := countSet_le 32 _
      rw [hammingWeight_flipBit_of_clear hp32 hclear]
      bv_omega
    rw [extendForm_succ, or_one_shiftLeft_eq_flipBit hclear]
    have htaken := ih (by omega) (isVector_flipBit hv1 (by omega)) hw2
      (records_record h hw2 (hR (flipBit v (n - (left + 1)))))
    refine records_congr (fun u => ?_) (ih (by omega) hv1 hw htaken)
    rw [extension_iff hn hp hv u, hsucc, or_assoc, or_assoc, or_assoc]

/-! ### The enumeration (R100) -/

/-- A cleared table records nothing. -/
theorem records_clearBelow (syn : Word → Word) (R : Nat) (m : TMem) :
    Records syn R (fun _ => False) (m.clearBelow R) 0 where
  reached := fun x hx hval => by
    rw [read_clearBelow, if_pos hx] at hval
    cases hval
  seen := fun _ => False.elim
  least := fun _ => False.elim
  count := by
    have hnone : (m.clearBelow R).validSet R = ∅ := by
      refine Finset.eq_empty_of_forall_notMem fun x hx => ?_
      obtain ⟨hlt, hval⟩ := mem_validSet.mp hx
      rw [read_clearBelow, if_pos hlt] at hval
      cases hval
    rw [hnone]
    rfl

/-- Phases 1 to 3 of `BUILD` are the recursive form on the seeded table. -/
theorem enumerate_eq_extendForm {s : State} (hn : s.nLen ≤ 32) :
    s.enumerate = extendForm s.syndromeOf s.nLen s.nLen 0 0
      (record s.syndromeOf 0 0 (s.tmem.clearBelow (2 ^ s.rLen)) 0) :=
  enumerationMatchesRecursion s.syndromeOf s.nLen _ _ hn

theorem eq_zero_or_extension_iff (n : Nat) (u : Word) :
    ((False ∨ u = 0) ∨ Extension n (n - n) 0 u) ↔ IsVector n u := by
  constructor
  · rintro ((hfalse | rfl) | ⟨hu, _, _⟩)
    · exact hfalse.elim
    · exact isVector_zero n
    · exact hu
  · intro hu
    by_cases hz : u = 0
    · exact .inl (.inr hz)
    · exact .inr ⟨hu, hz, fun i hi => absurd hi (by omega)⟩

/-- `BUILD` records all vectors of length `n`. -/
theorem records_enumerate {s : State} (hp : s.paramsLegal = true) :
    Records s.syndromeOf (2 ^ s.rLen) (IsVector s.nLen) s.enumerate.1 s.enumerate.2 := by
  obtain ⟨_, _, _, hn, _⟩ := lengths_of_paramsLegal hp
  have hw : (0 : Weight).toNat = hammingWeight 0 := ((hammingWeight_eq_zero_iff 0).mpr rfl).symm
  have hseed := records_record (records_clearBelow s.syndromeOf (2 ^ s.rLen) s.tmem) hw
    (syndromeOf_lt s 0)
  rw [enumerate_eq_extendForm hn]
  exact records_congr (eq_zero_or_extension_iff s.nLen)
    (records_extendForm hn (syndromeOf_lt s) s.nLen (le_refl _) (isVector_zero _) hw hseed)

/-- Every syndrome is that of a vector of length `n` (40_gf2_primitives.md R89 item 4). -/
theorem exists_isVector_of_syndrome {s : State} (hc : HoldsCode s) {x : Nat} (hx : x < 2 ^ s.rLen) :
    ∃ v, IsVector s.nLen v ∧ (s.syndromeOf v).toNat = x := by
  obtain ⟨_, _, _, hn, _⟩ := lengths_of_paramsLegal hc.legal
  have hr32 : s.rLen ≤ 32 := (Nat.sub_le _ _).trans hn
  have hnat : (BitVec.ofNat 32 x).toNat = x := by
    rw [BitVec.toNat_ofNat, Nat.mod_eq_of_lt (hx.trans_le (Nat.pow_le_pow_right (by decide) hr32))]
  have hvec : IsVector s.rLen (BitVec.ofNat 32 x) := (strayBits_eq_zero_iff_lt _ _).mpr (hnat.symm ▸ hx)
  exact ⟨_, isVector_shiftLeft hc hvec, by rw [syndromeOf_shiftLeft hc hvec, hnat]⟩

section
variable {s : State} (hc : HoldsCode s)
include hc

/-- The enumeration finds every syndrome (R105 item 3). -/
theorem valid_enumerate {x : Nat} (hx : x < 2 ^ s.rLen) : (s.enumerate.1.read x).valid = true := by
  obtain ⟨v, hv, rfl⟩ := exists_isVector_of_syndrome hc hx
  exact (records_enumerate hc.legal).seen v hv

/-- The count is `2^r`: `E_RANK` is dead. -/
theorem count_enumerate : s.enumerate.2 = BitVec.ofNat 32 (2 ^ s.rLen) := by
  have hall : s.enumerate.1.validSet (2 ^ s.rLen) = Finset.range (2 ^ s.rLen) :=
    Finset.filter_true_of_mem fun x hx => valid_enumerate hc (Finset.mem_range.mp hx)
  rw [(records_enumerate hc.legal).count, hall, Finset.card_range]

/-- A state with the code of `s` and the enumerated table holds the CosetLeaderTable. -/
theorem holdsTable_of_enumerate {t : State} (hk : t.k = s.k) (hn : t.n = s.n) (hprow : t.prow = s.prow)
    (hm : t.tmem = s.enumerate.1) : HoldsTable t := by
  have hrec := records_enumerate hc.legal
  constructor <;> rw [hm]
  · rw [rLen_congr hk hn]
    exact fun x hx => valid_enumerate hc hx
  · rw [rLen_congr hk hn, nLen_congr hn, syndromeOf_congr hk hn hprow]
    exact fun x hx => hrec.reached x hx (valid_enumerate hc hx)
  · rw [nLen_congr hn, syndromeOf_congr hk hn hprow]
    exact hrec.least

end

/-! ### `BUILD` -/

theorem exec_build_body {s : State} (hf : s.status.fatal = false) (hc : s.status.cfgv = true)
    (ht : s.status.tblv = false) (hp : s.paramsLegal = true) :
    exec .build s = .next (buildBody s) := by
  rw [exec, execBuild, Status.gateBuild, hc, ht]
  exact dispatchCoded_body _ hf hp

theorem buildBody_of_holdsCode {s : State} (hc : HoldsCode s) : buildBody s =
    State.complete { s.releaseBuild with
      tmem := s.enumerate.1
      tcnt := s.enumerate.2
      status := { s.status with tblv := true } } .ok := by
  rcases buildBody_cases s with ⟨hne, _⟩ | ⟨_, hb⟩
  · exact absurd (count_enumerate hc) hne
  · exact hb

/-- `2^r` fits `TCNT`. -/
theorem toNat_ofNat_two_pow_rLen {s : State} (hp : s.paramsLegal = true) :
    (BitVec.ofNat 32 (2 ^ s.rLen)).toNat = 2 ^ s.rLen := by
  obtain ⟨hk, _, _, hn, _⟩ := lengths_of_paramsLegal hp
  have hr : s.rLen < 32 := show s.nLen - s.kLen < 32 by omega
  rw [BitVec.toNat_ofNat]
  exact Nat.mod_eq_of_lt (Nat.pow_lt_pow_right (by decide) hr)

/-- Settles O32: the enumeration records all vectors of length `n`, and they have all syndromes. -/
theorem buildPublishesLeaderWeights : Obligations.BuildPublishesLeaderWeights := by
  intro s hf hcfg htbl hc
  have hexec := exec_build_body hf hcfg htbl hc.legal
  rw [buildBody_of_holdsCode hc] at hexec
  refine ⟨_, hexec, rfl, ?_, holdsTable_of_enumerate hc rfl rfl rfl rfl,
    fun a ha => read_enumerate_of_ge s ha, ⟨rfl, rfl, rfl, rfl, rfl⟩, rfl, rfl, rfl, rfl, rfl, rfl, rfl,
    rfl, rfl⟩
  rw [complete_tcnt, count_enumerate hc, toNat_ofNat_two_pow_rLen hc.legal]

theorem publish_of_complete {s : State} {cnt : Word} (m : TMem)
    (h : cnt = BitVec.ofNat 32 (2 ^ s.rLen)) : s.publish m cnt = State.complete
      { s with tmem := m, tcnt := cnt, status := { s.status with tblv := true } } .ok :=
  if_neg (not_not.mpr h)

theorem publish_of_incomplete {s : State} {cnt : Word} (m : TMem)
    (h : cnt ≠ BitVec.ofNat 32 (2 ^ s.rLen)) :
    s.publish m cnt = State.raise { s with tmem := m, tcnt := cnt } .eRank :=
  if_pos h

/-- Settles O33: past its gate `BUILD` is its body, and phase 4 compares the count with `2^r`, which fits
32 bits. -/
theorem buildChecksCompleteness : Obligations.BuildChecksCompleteness := by
  refine fun s hf hp => ⟨fun hc ht => exec_build_body hf hc ht hp, fun m cnt => ?publish⟩
  have hfits := toNat_ofNat_two_pow_rLen hp
  have hiff : cnt.toNat = 2 ^ s.rLen ↔ cnt = BitVec.ofNat 32 (2 ^ s.rLen) :=
    ⟨fun h => BitVec.eq_of_toNat_eq (h.trans hfits.symm), fun h => h ▸ hfits⟩
  by_cases h : cnt = BitVec.ofNat 32 (2 ^ s.rLen)
  · rw [publish_of_complete m h]
    exact ⟨rfl, rfl, fun _ => rfl, fun hne => absurd (hiff.mpr h) hne, ⟨rfl, rfl, rfl, rfl, rfl⟩, rfl,
      rfl, rfl, rfl, rfl, rfl, rfl, rfl, rfl⟩
  · rw [publish_of_incomplete m h]
    exact ⟨rfl, rfl, fun heq => absurd (hiff.mp heq) h, fun _ => raise_status_of_fatal _ rfl,
      ⟨rfl, rfl, rfl, rfl, rfl⟩, rfl, rfl, rfl, rfl, rfl, rfl, rfl, rfl, rfl⟩

end Sys2Proof.Machine
end

section
/-! The invariant of the machine (10_state.md R17 to R21, R25, R30, R32): it holds after reset, every
effect of a step keeps it, and where it holds no command meets a missing code or a missing table entry. -/

namespace Sys2Proof.Machine

open Sys2Proof

/-! ### The objects depend on their registers only -/

theorem holdsCode_congr {s t : State} (h : HoldsCode s) (hcode : SameCode s t) (hprow : t.prow = s.prow)
    (hconf : t.config = s.config) : HoldsCode t := by
  obtain ⟨hk, hn, hgrows, hgcols, hgrow⟩ := hcode
  constructor
  · rw [paramsLegal_congr hk hn hconf]
    exact h.legal
  · rw [hgrows, hk]
    exact h.rows_declared
  · rw [hgcols, hn, hk]
    exact h.cols_declared
  · rw [kLen_congr hk, rLen_congr hk hn, hgrow]
    exact h.no_stray
  · rw [kLen_congr hk, rLen_congr hk hn, hgrow, hprow]
    exact h.parity

theorem holdsTable_congr {s t : State} (h : HoldsTable s) (hcode : SameCode s t)
    (hprow : t.prow = s.prow) (htmem : t.tmem = s.tmem) : HoldsTable t := by
  obtain ⟨hk, hn, _⟩ := hcode
  constructor <;> rw [htmem]
  · rw [rLen_congr hk hn]
    exact h.seen
  · rw [rLen_congr hk hn, nLen_congr hn, syndromeOf_congr hk hn hprow]
    exact h.reached
  · rw [nLen_congr hn, syndromeOf_congr hk hn hprow]
    exact h.least

/-! ### Steps that write no code and no table -/

/-- The invariant over a step that may write `VOUT`, `SYND` and `WGT` and leaves the rest. -/
theorem inv_of_results {s t : State} (h : Inv s) (hst : StatusInv t) (hconf : t.config = s.config)
    (hcode : SameCode s t) (hprow : t.prow = s.prow) (htmem : t.tmem = s.tmem)
    (htcnt : t.tcnt = s.tcnt) (hc : t.status.cfgv = s.status.cfgv)
    (hb : t.status.tblv = s.status.tblv)
    (hzero : s.status.cfgv = false → t.vout = s.vout ∧ t.synd = s.synd ∧ t.wgt = s.wgt)
    (hres : s.status.cfgv = true →
      IsVector s.nLen t.vout ∧ IsVector s.rLen t.synd ∧ IsVector 6 t.wgt) : Inv t where
  status := hst
  table_canonical := htmem ▸ h.table_canonical
  table_inside := by
    rw [hconf, htmem]
    exact h.table_inside
  missing_rows := by
    obtain ⟨_, _, _, _, hgrow⟩ := hcode
    rw [hconf, hgrow, hprow]
    exact h.missing_rows
  code := fun hcfg => holdsCode_congr (h.code (hc ▸ hcfg)) hcode hprow hconf
  no_code := fun hcfg => by
    obtain ⟨hvout, hsynd, hwgt⟩ := hzero (hc ▸ hcfg)
    rw [hprow, hvout, hsynd, hwgt, htcnt]
    exact h.no_code (hc ▸ hcfg)
  table := fun htbl => by
    obtain ⟨htable, hcount⟩ := h.table (hb ▸ htbl)
    obtain ⟨hk, hn, _⟩ := id hcode
    rw [htcnt, rLen_congr hk hn]
    exact ⟨holdsTable_congr htable hcode hprow htmem, hcount⟩
  results := fun hcfg => by
    obtain ⟨hk, hn, _⟩ := hcode
    rw [rLen_congr hk hn, nLen_congr hn]
    exact hres (hc ▸ hcfg)

/-- The invariant over a step that writes no register it speaks of. -/
theorem inv_of_same {s t : State} (h : Inv s) (hst : StatusInv t) (hconf : t.config = s.config)
    (hcode : SameCode s t) (hprow : t.prow = s.prow) (htmem : t.tmem = s.tmem)
    (hresults : SameResults s t) (hc : t.status.cfgv = s.status.cfgv)
    (hb : t.status.tblv = s.status.tblv) : Inv t := by
  obtain ⟨hvout, hsynd, hwgt, htcnt⟩ := hresults
  refine inv_of_results h hst hconf hcode hprow htmem htcnt hc hb (fun _ => ⟨hvout, hsynd, hwgt⟩) ?_
  rw [hvout, hsynd, hwgt]
  exact h.results

theorem inv_raise {s : State} (h : Inv s) (c : Code) (hst : StatusInv (s.raise c)) : Inv (s.raise c) :=
  inv_of_same h hst rfl ⟨rfl, rfl, rfl, rfl, rfl⟩ rfl rfl ⟨rfl, rfl, rfl, rfl⟩ rfl rfl

theorem inv_raise_releaseDec {s : State} (h : Inv s) (c : Code)
    (hst : StatusInv (s.releaseDec.raise c)) : Inv (s.releaseDec.raise c) :=
  inv_of_same h hst rfl ⟨rfl, rfl, rfl, rfl, rfl⟩ rfl rfl ⟨rfl, rfl, rfl, rfl⟩ rfl rfl

theorem inv_afterInput {s : State} (h : Inv s) : Inv s.afterInput :=
  inv_of_same h ⟨h.status.table_needs_code, h.status.fatal_needs_code, h.status.busy_is_fresh⟩ rfl
    ⟨rfl, rfl, rfl, rfl, rfl⟩ rfl rfl ⟨rfl, rfl, rfl, rfl⟩ rfl rfl

/-! ### Reset -/

theorem inv_toReset (s : State) : Inv s.toReset where
  status := statusInv_toReset s
  table_canonical := rfl
  table_inside := fun _ _ => rfl
  missing_rows := fun i _ => ⟨row_reset i, row_reset i⟩
  code := nofun
  no_code := fun _ => ⟨row_reset, rfl, rfl, rfl, rfl⟩
  table := nofun
  results := nofun

/-- Settles O47: the reset state is what a reset leaves. -/
theorem resetMeetsInvariant : Obligations.ResetMeetsInvariant := by
  have h := inv_toReset State.reset
  rwa [toReset_reset] at h

/-! ### Transactions -/

/-- A write reaches no row that does not exist. -/
theorem missing_rows_storeReg {s : State} (h : Inv s) (d : Word) {q : Reg}
    (hrow : ∀ i, q = .grow i → i < s.config.nmax) {i : Nat} (hi : s.config.nmax ≤ i) :
    (s.storeReg d q).grow.row i = 0 := by
  obtain ⟨hgrow, _⟩ := h.missing_rows i hi
  cases q with
  | grow j =>
    have hj : j < s.config.nmax := hrow j rfl
    show (s.grow.setRow j d).row i = 0
    rw [row_setRow, if_neg fun hji => (hj.trans_le hi).ne hji.1, hgrow]
  | _ => exact hgrow

/-- A write to a code register: the lock is open, so there is neither a code nor a table yet. -/
theorem inv_storeReg_unlocked {s : State} (h : Inv s) (d : Word) {q : Reg}
    (hc : s.status.cfgv = false) (hrow : ∀ i, q = .grow i → i < s.config.nmax)
    (hst : StatusInv (s.storeReg d q)) : Inv (s.storeReg d q) where
  status := hst
  table_canonical := by
    rw [storeReg_tmem]
    exact h.table_canonical
  table_inside := by
    rw [storeReg_tmem, storeReg_config]
    exact h.table_inside
  missing_rows := by
    rw [storeReg_prow, storeReg_config]
    exact fun i hi => ⟨missing_rows_storeReg h d hrow hi, (h.missing_rows i hi).2⟩
  code := by
    rw [storeReg_status, hc]
    exact nofun
  no_code := by
    rw [storeReg_prow, storeReg_vout, storeReg_synd, storeReg_wgt, storeReg_tcnt]
    exact fun _ => h.no_code hc
  table := by
    rw [storeReg_status, tblv_eq_false_of_cfgv h.status hc]
    exact nofun
  results := by
    rw [storeReg_status, hc]
    exact nofun

theorem inv_of_busEffect {s t : State} (h : Inv s) (hbus : BusEffect s t) : Inv t := by
  have hst : StatusInv t := statusInv_of_busEffect h.status hbus
  cases hbus with
  | view v _ ht =>
    subst t
    exact inv_of_same h hst rfl ⟨rfl, rfl, rfl, rfl, rfl⟩ rfl rfl ⟨rfl, rfl, rfl, rfl⟩ rfl rfl
  | issue w ht =>
    subst t
    exact inv_of_same h hst rfl ⟨rfl, rfl, rfl, rfl, rfl⟩ rfl rfl ⟨rfl, rfl, rfl, rfl⟩ rfl rfl
  | store q d _ lock hrow ht =>
    subst t
    cases hl : q.lockable with
    | true => exact inv_storeReg_unlocked h d (lock hl) hrow hst
    | false =>
      exact inv_of_same h hst (storeReg_config s d q) (sameCode_storeReg s d hl) (storeReg_prow s d q)
        (storeReg_tmem s d q)
        ⟨storeReg_vout s d q, storeReg_synd s d q, storeReg_wgt s d q, storeReg_tcnt s d q⟩
        (congrArg Status.cfgv (storeReg_status s d q)) (congrArg Status.tblv (storeReg_status s d q))

/-! ### Commands -/

/-- `CFG` past its tests constructs the object (R30). -/
theorem holdsCode_of_cfg {s t : State} (hrows : ∀ i, s.config.nmax ≤ i → s.prow.row i = 0)
    (he : s.cfgError = none) (hcode : SameCode s t) (hconf : t.config = s.config)
    (hprow : t.prow = s.parityRows) : HoldsCode t := by
  have hk : 0 < s.k.toInt := by
    by_contra hle
    cases (cfgError_of_k_le (not_lt.mp hle)).symm.trans he
  have hkn : s.k.toInt ≤ s.n.toInt := by
    by_contra hlt
    cases (cfgError_of_n_lt hk (not_le.mp hlt)).symm.trans he
  have hmax : s.n.toInt ≤ s.config.nmax := by
    by_contra hlt
    cases (cfgError_of_nmax_lt hk hkn (not_le.mp hlt)).symm.trans he
  have hshape : ¬ (s.grows ≠ s.k ∨ s.gcols ≠ s.n - s.k ∨
      ∃ i j, i < s.kLen ∧ s.rLen ≤ j ∧ (s.grow.row i).getLsbD j = true) := fun hs => by
    cases (cfgError_of_shape hk hkn hmax hs).symm.trans he
  push Not at hshape
  obtain ⟨hgrows, hgcols, hstray⟩ := hshape
  have hlegal : s.paramsLegal = true := (paramsLegal_iff s).mpr ⟨hk, hkn, hmax⟩
  obtain ⟨_, _, _, _, hr⟩ := lengths_of_paramsLegal hlegal
  obtain ⟨hk', hn', hgrows', hgcols', hgrow'⟩ := hcode
  constructor
  · rw [paramsLegal_congr hk' hn' hconf, hlegal]
  · rw [hgrows', hk', hgrows]
  · rw [hgcols', hn', hk', hgcols]
  · rw [kLen_congr hk', rLen_congr hk' hn', hgrow']
    exact fun i hi => (strayBits_eq_zero_iff _ _).mpr fun j hj => by simpa using hstray i j hi hj
  · rw [kLen_congr hk', rLen_congr hk' hn', hgrow', hprow]
    intro i j _ hj
    by_cases hi : i < s.config.nmax
    · exact getLsbD_parityRows_of_lt s hi hj
    · have hpos := s.config.nmax_pos
      have hir : ¬ i < s.rLen := by omega
      rw [row_parityRows_of_ge s (not_lt.mp hi), hrows i (not_lt.mp hi), decide_eq_false hir]
      exact BitVec.getLsbD_zero

/-- `CFG` with `OK`: there is a code and still no result. -/
theorem inv_cfg {s t : State} (h : Inv s) (hst : StatusInv t) (hc : s.status.cfgv = false)
    (he : s.cfgError = none)
    (ht : t = State.complete
      { s with prow := s.parityRows, status := { s.status with cfgv := true } } .ok) : Inv t := by
  obtain ⟨_, hvout, hsynd, hwgt, _⟩ := h.no_code hc
  have hcode : HoldsCode t := by
    subst t
    exact holdsCode_of_cfg (fun i hi => (h.missing_rows i hi).2) he ⟨rfl, rfl, rfl, rfl, rfl⟩ rfl rfl
  subst t
  refine ⟨hst, h.table_canonical, h.table_inside, fun i hi => ⟨(h.missing_rows i hi).1, ?row⟩,
    fun _ => hcode, nofun, fun htbl => ?table, fun _ => ?results⟩
  case row => exact (row_parityRows_of_ge s hi).trans (h.missing_rows i hi).2
  case table => cases (tblv_eq_false_of_cfgv h.status hc).symm.trans htbl
  case results =>
    rw [complete_vout, complete_synd, complete_wgt, hvout, hsynd, hwgt]
    exact ⟨isVector_zero _, isVector_zero _, isVector_zero _⟩

/-- `BUILD`: the count is complete, so the table is published (R32). -/
theorem inv_build {s : State} (h : Inv s) (hst : StatusInv (buildBody s))
    (hc : s.status.cfgv = true) : Inv (buildBody s) := by
  have hcode : HoldsCode s := h.code hc
  obtain ⟨_, _, _, _, hr⟩ := lengths_of_paramsLegal hcode.legal
  rw [buildBody_of_holdsCode hcode] at hst ⊢
  refine ⟨hst, enumerate_wf s h.table_canonical, fun a ha => ?inside, h.missing_rows,
    fun _ => holdsCode_congr hcode ⟨rfl, rfl, rfl, rfl, rfl⟩ rfl rfl,
    (fun hcfg => by cases hc.symm.trans hcfg),
    fun _ => ⟨holdsTable_of_enumerate hcode rfl rfl rfl rfl, count_enumerate hcode⟩,
    fun _ => h.results hc⟩
  case inside =>
    have hdepth : 2 ^ s.rLen ≤ a := (Nat.pow_le_pow_right (by decide) hr).trans ha
    exact (read_enumerate_of_ge s hdepth).trans (h.table_inside a ha)

theorem isVector_syndromeOf (s : State) (v : Word) : IsVector s.rLen (s.syndromeOf v) :=
  (strayBits_eq_zero_iff_lt _ _).mpr (syndromeOf_lt s v)

theorem isVector_weight (w : Weight) : IsVector 6 (w.setWidth 32) := by
  refine (strayBits_eq_zero_iff_lt _ _).mpr ?_
  rw [BitVec.toNat_setWidth_of_le (by decide)]
  exact w.isLt

/-- A command past the gate of `CFGV` that writes only `VOUT`, `SYND` or `WGT`. -/
theorem inv_of_coded {s t : State} (h : Inv s) (hst : StatusInv t) (hcfg : s.status.cfgv = true)
    (hhost : SameCode s t ∧ SameHost s t) (hprow : t.prow = s.prow) (htmem : t.tmem = s.tmem)
    (htcnt : t.tcnt = s.tcnt) (hc : t.status.cfgv = s.status.cfgv)
    (hb : t.status.tblv = s.status.tblv)
    (hres : IsVector s.nLen t.vout ∧ IsVector s.rLen t.synd ∧ IsVector 6 t.wgt) : Inv t := by
  obtain ⟨hcode, _, _, hconf, _⟩ := hhost
  exact inv_of_results h hst hconf hcode hprow htmem htcnt hc hb
    (fun hno => by cases hcfg.symm.trans hno) fun _ => hres

theorem inv_of_ran {i : Instr} {s t : State} (h : Inv s) (hst : StatusInv t)
    (hhost : SameCode s t ∧ SameHost s t) (hran : Ran s t i) : Inv t := by
  cases hran
  case cfg gate he ht => exact inv_cfg h hst gate he ht
  case build gate _ _ ht =>
    subst t
    exact inv_build h hst gate
  case enc gate hp hv ht =>
    subst t
    obtain ⟨_, hsynd, hwgt⟩ := h.results gate
    exact inv_of_coded h hst gate hhost rfl rfl rfl rfl rfl
      ⟨isVector_encodeOf hp hv, hsynd, hwgt⟩
  case syn gate _ _ ht =>
    subst t
    obtain ⟨hvout, _, hwgt⟩ := h.results gate
    exact inv_of_coded h hst gate hhost rfl rfl rfl rfl rfl
      ⟨hvout, isVector_syndromeOf s _, hwgt⟩
  case ldw gate _ _ _ ht =>
    subst t
    have hc := h.status.table_needs_code gate
    obtain ⟨hvout, hsynd, _⟩ := h.results hc
    exact inv_of_coded h hst hc hhost rfl rfl rfl rfl rfl
      ⟨hvout, hsynd, isVector_weight _⟩
  case dec gate hp hv hd ht =>
    subst t
    have hc := h.status.table_needs_code gate
    obtain ⟨_, _, _, hn, _⟩ := lengths_of_paramsLegal hp
    obtain ⟨_, hsynd, hwgt⟩ := h.results hc
    exact inv_of_coded h hst hc hhost rfl rfl rfl rfl rfl
      ⟨(zero_of_decodeVector hn hv hd).2, hsynd, hwgt⟩
  case cfgError ht | encStray ht | synStray ht | ldwMiss ht | ldwStray ht | decStray ht =>
    subst t
    exact inv_raise h _ hst
  case decMiss ht | decNoconv ht =>
    subst t
    exact inv_raise_releaseDec h _ hst

theorem inv_of_stepEffect {s t : State} (h : Inv s) (heff : StepEffect s t) : Inv t := by
  have hst : StatusInv t := statusInv_of_stepEffect h.status heff
  cases heff with
  | command i hi _ hexec =>
    rcases command_cases hi hexec with ⟨_, rfl⟩ | ⟨_, rfl, _⟩ | ⟨_, hran⟩
    · exact inv_raise h _ hst
    · exact inv_raise h _ hst
    · exact inv_of_ran h hst (sameHost_of_command hi hexec) hran
  | illegal ht =>
    subst t
    exact inv_raise h _ hst
  | idle ht => exact ht ▸ h
  | bus hbus => exact inv_of_busEffect h hbus
  | reset ht => exact ht ▸ inv_toReset s

/-- Settles O49: taking an input keeps the invariant, and so does every effect of a step. -/
theorem stepKeepsInvariant : Obligations.StepKeepsInvariant :=
  fun _ _ h hstep => inv_of_stepEffect (inv_afterInput h) (stepEffect_of_step hstep)

/-! ### The fatal codes are dead -/

theorem fatal_of_ran {i : Instr} {s t : State} (h : Inv s) (hf : s.status.fatal = false)
    (hran : Ran s t i) : t.status.fatal = false := by
  cases hran
  case cfgError hmem _ ht =>
    have hall : ∀ c ∈ [Code.eK, .eN, .eNmax, .eShape], c.isFatal = false := by decide
    rw [ht, raise_status_of_nonFatal s (hall _ hmem)]
    exact hf
  case build gate _ _ ht =>
    rw [ht, buildBody_of_holdsCode (h.code gate)]
    exact hf
  case ldwMiss gate _ hv hm _ =>
    obtain ⟨htable, _⟩ := h.table gate
    have hvalid := htable.seen s.vin.toNat ((strayBits_eq_zero_iff_lt _ _).mp hv)
    cases hm.symm.trans hvalid
  case decMiss gate hp _ hd _ | decNoconv gate hp _ hd _ =>
    obtain ⟨htable, _⟩ := h.table gate
    obtain ⟨v, hzero, _⟩ := decodeVector_decodes htable hp s.vin
    cases hd.symm.trans hzero
  case cfg ht | enc ht | syn ht | ldw ht | dec ht =>
    rw [ht]
    exact hf
  case encStray ht | synStray ht | ldwStray ht | decStray ht =>
    rw [ht, raise_status_of_nonFatal s rfl]
    exact hf

/-- Settles O51: with the invariant `BUILD` finds every syndrome, `LDW` every entry, and `DEC` ends at a
codeword. -/
theorem fatalNeverRaised : Obligations.FatalNeverRaised := by
  intro s t h hf hstep
  have h' : Inv s.afterInput := inv_afterInput h
  cases stepEffect_of_step hstep with
  | command i hi _ hexec =>
    rcases command_cases hi hexec with ⟨hfatal, _⟩ | ⟨_, rfl, _⟩ | ⟨hf', hran⟩
    · cases hf.symm.trans hfatal
    · exact (congrArg Status.fatal (raise_status_of_nonFatal s.afterInput rfl)).trans hf
    · exact fatal_of_ran h' hf' hran
  | illegal ht =>
    rw [ht, raise_status_of_nonFatal s.afterInput rfl]
    exact hf
  | idle ht => exact ht ▸ hf
  | bus hbus =>
    cases hbus with
    | view v _ ht => exact ht ▸ hf
    | issue w ht => exact ht ▸ hf
    | store q d _ _ _ ht =>
      rw [ht, storeReg_status]
      exact hf
  | reset ht =>
    rw [ht]
    rfl

/-! ### Every step is taken -/

theorem dispatch_taken (s : State) (gate : Bool) (body : State → State) :
    ∃ t, s.dispatch gate body = .next t := by
  rw [State.dispatch]
  split
  · exact ⟨_, rfl⟩
  · split <;> exact ⟨_, rfl⟩

theorem dispatchCoded_taken {s : State} {gate : Bool} (body : State → State)
    (hp : gate = true → s.paramsLegal = true) : ∃ t, s.dispatchCoded gate body = .next t := by
  have hlegal : (s.status.fatal || !gate || s.paramsLegal) = true := by
    cases hg : gate with
    | false => simp
    | true => simp [hp hg]
  rw [State.dispatchCoded, if_pos hlegal]
  exact dispatch_taken s gate body

theorem exec_command_taken {i : Instr} {s : State} (h : Inv s) (hi : IsCommand i) :
    ∃ t, exec i s = .next t := by
  have code : s.status.cfgv = true → s.paramsLegal = true := fun hc => (h.code hc).legal
  have table : s.status.tblv = true → s.paramsLegal = true := fun ht =>
    code (h.status.table_needs_code ht)
  rcases hi with rfl | rfl | rfl | rfl | rfl | rfl
  · exact dispatch_taken s _ _
  · exact dispatchCoded_taken _ fun hg => code (Bool.and_eq_true_iff.mp hg).1
  · exact dispatchCoded_taken _ code
  · exact dispatchCoded_taken _ table
  · exact dispatchCoded_taken _ code
  · exact dispatchCoded_taken _ table

theorem engineTurn_taken {s : State} (h : Inv s) : ∃ t, engineTurn s = .next t := by
  cases hb : s.status.busy with
  | false => exact ⟨s, engineTurn_idle hb⟩
  | true =>
    cases hd : decodeCommand s.pend with
    | error e => exact ⟨_, engineTurn_illegal hb hd⟩
    | ok i =>
      rw [engineTurn_legal hb hd]
      rcases isCommand_or_rst_of_decodeCommand hd with hi | rfl
      · exact exec_command_taken h hi
      · exact ⟨_, rfl⟩

theorem hostTurn_taken (r : Record) (s : State) : ∃ t, hostTurn r s = .next t := by
  rw [hostTurn, decodeBus]
  split
  · exact ⟨_, if_pos (addrField_lt r)⟩
  · exact ⟨_, if_pos (addrField_lt r)⟩

/-- Settles O50: the engine finds legal parameters past every gate, and a record's address has 7 bits. -/
theorem stepIsSafe : Obligations.StepIsSafe := by
  intro s h
  have h' : Inv s.afterInput := inv_afterInput h
  rw [Safe, step, runNext]
  split
  · exact engineTurn_taken h'
  · exact hostTurn_taken _ _
  · exact engineTurn_taken h'
  · exact ⟨_, rfl⟩
  · rw [waitTurn]
    split
    · exact engineTurn_taken h'
    · exact hostTurn_taken _ _

end Sys2Proof.Machine
end

section
/-! Progress (44_control.md R126): the engine's turn completes the command in flight, and every other
input brings that turn nearer. -/

namespace Sys2Proof.Machine

open Sys2Proof

/-! ### Runs -/

theorem run_zero (s : State) : core.run 0 s = .next s := rfl

theorem run_succ {s t : State} (h : step s = .next t) (j : Nat) : core.run (j + 1) s = core.run j t := by
  have hcore : core.step s = .next t := h
  simp only [Host.Core.run, hcore]

/-! ### One step with a command in flight -/

/-- The engine's turn ends the command and takes no input. -/
theorem engineTurn_completes {s t : State} (hb : s.status.busy = true) (h : engineTurn s = .next t) :
    t.status.busy = false ∧ t.inputs = s.inputs := by
  rcases engineTurn_cases h with ⟨_, i, hd, hexec⟩ | ⟨_, _, rfl⟩ | ⟨hidle, _⟩
  · rcases isCommand_or_rst_of_decodeCommand hd with hi | rfl
    · obtain ⟨_, _, _, _, _, hinputs⟩ := sameHost_of_command hi hexec
      exact ⟨busy_of_command hi hexec, hinputs⟩
    · cases hexec
      exact ⟨rfl, rfl⟩
  · exact ⟨rfl, rfl⟩
  · cases hb.symm.trans hidle

theorem inputs_of_busEffect {s t : State} (h : BusEffect s t) : t.inputs = s.inputs := by
  cases h with
  | view v _ ht => rw [ht]; rfl
  | issue w ht => rw [ht]; rfl
  | store q d _ _ _ ht => rw [ht, storeReg_inputs]

/-- A step that does not end the command takes a turn of the inputs. -/
theorem turnsOf_lt_of_step {s t : State} (hb : s.status.busy = true) (h : step s = .next t)
    (hb' : t.status.busy = true) : turnsOf t.inputs < turnsOf s.inputs := by
  have completes : ∀ {u : State}, u.status.busy = true → engineTurn u ≠ .next t := fun hu he => by
    cases hb'.symm.trans (engineTurn_completes hu he).1
  cases hin : s.inputs with
  | nil =>
    rw [step_nil hin] at h
    exact absurd h (completes hb)
  | cons input rest =>
    cases input with
    | txn r =>
      rw [step_txn hin] at h
      rw [inputs_of_busEffect (busEffect_of_exec h)]
      exact Nat.lt_succ_self _
    | engine =>
      rw [step_engine hin] at h
      exact absurd h (completes (u := { s with inputs := rest }) hb)
    | rstPin =>
      rw [step_rstPin hin] at h
      cases h
      cases hb'
    | wait polls =>
      cases polls with
      | zero =>
        rw [step_wait_complete hb hin] at h
        exact absurd h (completes hb)
      | succ polls =>
        rw [step_wait_poll hb hin] at h
        cases h
        exact Nat.lt_succ_self _

/-- The command ends within one step more than the listed inputs take. -/
theorem completes_within (bound : Nat) {s : State} (h : Inv s) (hb : s.status.busy = true)
    (hbound : turnsOf s.inputs ≤ bound) :
    ∃ j t, j ≤ turnsOf s.inputs + 1 ∧ core.run j s = .next t ∧ t.status.busy = false := by
  induction bound generalizing s with
  | zero =>
    obtain ⟨t, hstep⟩ := stepIsSafe s h
    cases hb' : t.status.busy with
    | false => exact ⟨1, t, by omega, (run_succ hstep 0).trans (run_zero t), hb'⟩
    | true => exact absurd (turnsOf_lt_of_step hb hstep hb') (by omega)
  | succ bound ih =>
    obtain ⟨t, hstep⟩ := stepIsSafe s h
    cases hb' : t.status.busy with
    | false => exact ⟨1, t, by omega, (run_succ hstep 0).trans (run_zero t), hb'⟩
    | true =>
      have hlt := turnsOf_lt_of_step hb hstep hb'
      obtain ⟨j, u, hj, hrun, hu⟩ := ih (stepKeepsInvariant s t h hstep) hb' (by omega)
      exact ⟨j + 1, u, by omega, (run_succ hstep j).trans hrun, hu⟩

/-- A `wait` makes its polls, sees the completion, and ends with the read that finds `BUSY = 0`. -/
theorem wait_ends (m : Nat) {s : State} {rest : List Input} (h : Inv s) (hb : s.status.busy = true)
    (hin : s.inputs = .wait m :: rest) :
    ∃ t, core.run (m + 2) s = .next t ∧ t.inputs = rest ∧ t.status.busy = false ∧
      t.rdata = t.status.word := by
  induction m generalizing s with
  | zero =>
    obtain ⟨u, hturn⟩ := engineTurn_taken h
    obtain ⟨hidle, hinputs⟩ := engineTurn_completes hb hturn
    have hstep := (step_wait_complete hb hin).trans hturn
    have hread := step_wait_idle hidle (hinputs.trans hin)
    exact ⟨_, (run_succ hstep 1).trans ((run_succ hread 0).trans (run_zero _)), rfl, hidle, rfl⟩
  | succ m ih =>
    have hpoll := step_wait_poll hb hin
    obtain ⟨t, hrun, ht⟩ := ih (stepKeepsInvariant s _ h hpoll) hb rfl
    exact ⟨t, (run_succ hpoll (m + 2)).trans hrun, ht⟩

/-- Settles O10: the measure of R126 is the number of turns the inputs take; a `wait` is one of them. -/
theorem issuedCommandCompletes : Obligations.IssuedCommandCompletes := by
  refine fun s h hb => ⟨completes_within _ h hb (le_refl _), fun m rest hin => ?_⟩
  obtain ⟨t, hrun, hinputs, hidle, hread⟩ := wait_ends m h hb hin
  exact ⟨t, hrun, hinputs, hidle, hread, by rw [hread, getLsbD_statusWord_busy, hidle]⟩

end Sys2Proof.Machine
end
